-- ==== Sys2Proof/Word.lean ====
section
/-! DEFINITION. The two value types of the block (00_scope.md R7): a Byte and a Word32. All values are
unsigned and no operation of the block is signed. -/

namespace Sys2Proof

/-- A byte, an integer in 0..255 (R7). -/
abbrev Byte := BitVec 8

/-- A Word32, an integer in 0..2^32-1 (R7). Every register is one (10_state.md R32). -/
abbrev Word := BitVec 32

end Sys2Proof
end

