-- ==== Sys2Proof/Config.lean ====
section
/-! DEFINITION. What an implementation fixes (00_scope.md R6, 20_memory.md R81) and the free values of the
spec (70_reset_and_hazards.md R281, R286). -/

namespace Sys2Proof

/-- The named parameters of one implementation. The spec leaves every one of them open, so a statement holds for
every `Config`. The state carries the one it runs under, and no step changes it. -/
structure Config where
  /-- `MEM_SIZE`, the size in bytes of BUF (R6). -/
  memSize : Nat
  /-- `MAX_CHUNKS`, the most chunks the container may hold (R6). -/
  maxChunks : Nat
  /-- `STORE_BYTES`, the most data bytes of the container, and of the staged chunk (R6). -/
  storeBytes : Nat
  /-- `REG_BASE`, where the register window sits in the host's own address map (R81). No rule reads it. -/
  regBase : Nat
  /-- `BUF_BASE`, where BUF sits in the host's own address map (R81). No rule reads it. -/
  bufBase : Nat
deriving DecidableEq, Repr

/-- CFG-A of 95_test_vectors.md, the configuration `State.reset` runs under. DESIGN CHOICE (log entry 1): the spec
leaves the parameters open, and `REG_BASE` and `BUF_BASE` are "not used" there. -/
def Config.cfgA : Config where
  memSize := 4096
  maxChunks := 16
  storeBytes := 1024
  regBase := 0
  bufBase := 0

/-- The byte that BUF holds at an address after the n-th reset, as long as nothing has been written there since:
"an arbitrary value at reset (a free draw per byte, under no law)" (R281). FREE VALUE (log entry 2). -/
opaque Config.bufDraw : Nat → Nat → Byte

/-- What the n-th read of a register other than STATUS and the constants returns while BUSY = 1: "a free draw,
which may differ from one read to the next" (R286). FREE VALUE (log entry 3). -/
opaque Config.busyWord : Nat → Word

/-- What the n-th read of a BUF byte returns while BUSY = 1 (R286). FREE VALUE (log entry 3). -/
opaque Config.busyByte : Nat → Byte

end Sys2Proof
end

