-- ==== Sys2Proof/Syntax.lean ====
section
/-! DEFINITION. The commands of the block: one constructor for each row of the opcode table (30_encoding.md R113). The
command word carries no operand (R110, R111), so no constructor has a field. -/

namespace Sys2Proof

/-- The 29 commands of 30_encoding.md R113. -/
inductive Instr where
  /-- NOP (45_system.md R245): no effect but STATUS. -/
  | nop
  /-- CRC_INIT (40_crc.md R143): start a running CRC. -/
  | crcInit
  /-- CRC_UPDATE (40_crc.md R144): fold SRC into the running CRC. -/
  | crcUpdate
  /-- CRC_FINAL (40_crc.md R145): the running CRC's final value. -/
  | crcFinal
  /-- CRC32 (40_crc.md R146): the CRC of SRC. -/
  | crc32
  /-- CRC_CHECK (40_crc.md R147): compare the CRC of SRC with CRC_EXP. -/
  | crcCheck
  /-- TYPE_LOAD (41_chunk_type.md R161): load TYPE from 4 raw bytes. -/
  | typeLoad
  /-- TYPE_FROM_STRING (41_chunk_type.md R162): load TYPE from a checked string. -/
  | typeFromString
  /-- TYPE_IS_VALID (41_chunk_type.md R164): letters and reserved bit 0. -/
  | typeIsValid
  /-- TYPE_IS_CRITICAL (41_chunk_type.md R165): byte 0 bit 5 clear. -/
  | typeIsCritical
  /-- TYPE_IS_PUBLIC (41_chunk_type.md R166): byte 1 bit 5 clear. -/
  | typeIsPublic
  /-- TYPE_IS_PRIVATE (41_chunk_type.md R167): byte 1 bit 5 set. -/
  | typeIsPrivate
  /-- TYPE_IS_RESERVED_BIT_VALID (41_chunk_type.md R168): byte 2 bit 5 clear. -/
  | typeIsReservedBitValid
  /-- TYPE_IS_SAFE_TO_COPY (41_chunk_type.md R169): byte 3 bit 5 set. -/
  | typeIsSafeToCopy
  /-- CHUNK_NEW (42_chunk.md R182): stage a new chunk. -/
  | chunkNew
  /-- CHUNK_PARSE (42_chunk.md R183): stage the chunk parsed from SRC. -/
  | chunkParse
  /-- CHUNK_SERIALIZE (42_chunk.md R184): output the staged chunk's frame. -/
  | chunkSerialize
  /-- CHUNK_DATA (42_chunk.md R185): output the staged chunk's data. -/
  | chunkData
  /-- CHUNK_TO_STRING (42_chunk.md R186): output the staged chunk's text. -/
  | chunkToString
  /-- PNG_PARSE (43_png.md R201): load the container from SRC. -/
  | pngParse
  /-- PNG_SERIALIZE (43_png.md R202): output the container's stream. -/
  | pngSerialize
  /-- PNG_APPEND (43_png.md R203): move the staged chunk to the container's end. -/
  | pngAppend
  /-- PNG_REMOVE (43_png.md R204): move the first chunk of TYPE to the stage. -/
  | pngRemove
  /-- PNG_FIND (43_png.md R205): look up the first chunk of TYPE. -/
  | pngFind
  /-- PNG_GET (43_png.md R206): stage a copy of chunk INDEX. -/
  | pngGet
  /-- PNG_HEADER (43_png.md R207): output the signature. -/
  | pngHeader
  /-- OP_ENCODE (44_orchestration.md R231): Encode. -/
  | opEncode
  /-- OP_DECODE (44_orchestration.md R232): Decode. -/
  | opDecode
  /-- OP_REMOVE (44_orchestration.md R233): Remove. -/
  | opRemove
deriving DecidableEq, Repr

end Sys2Proof
end

