-- ==== Sys2Proof/WellFormed.lean ====
section
/-! DEFINITION. Well-formedness. A command has no operand field (30_encoding.md R110, R111), so every `Instr` is well formed. The
parameters of an implementation have ranges (00_scope.md R6). -/

namespace Sys2Proof

/-- Every command is well formed: the command word "carries no register number and no immediate" (R110). -/
def Instr.wf (_ : Instr) : Bool := true

/-- The ranges of the parameters (R6). `REG_BASE` and `BUF_BASE` have none. -/
def Config.wf (c : Config) : Bool :=
  decide (1 ≤ c.memSize) && decide (c.memSize ≤ 2 ^ 32) &&
  decide (1 ≤ c.maxChunks) && decide (c.maxChunks ≤ 2 ^ 32 - 1) &&
  decide (c.storeBytes ≤ 2 ^ 32 - 1)

end Sys2Proof
end

