-- ==== Sys2Proof/Decode.lean ====
section
/-! DEFINITION. The decoder of the command word, total on every word, and the encoder, both from the encoding tables of
30_encoding.md R110 and R113. -/

namespace Sys2Proof

/-- Why a command word is no command, the two subcodes of ILLEGAL_COMMAND (30_encoding.md R116, 60_exceptions.md
R250). -/
inductive DecodeError where
  /-- `w[31:8] = 0` and `w[7:0]` is no OPCODE of R113: ILLEGAL_COMMAND(0). -/
  | unknownOpcode
  /-- `w[31:8] != 0`: ILLEGAL_COMMAND(1), tested first. -/
  | reservedBits
deriving DecidableEq, Repr

/-- OPCODE, bits 7:0 of a command word (R110). -/
def opcodeOf (w : Word) : BitVec 8 := w.extractLsb' 0 8

/-- RSVD, bits 31:8 of a command word (R110). -/
def reservedOf (w : Word) : BitVec 24 := w.extractLsb' 8 24

/-- The command an OPCODE selects (R113). Every OPCODE that R113 does not list is reserved (R114). -/
def decodeOpcode (op : BitVec 8) : Option Instr :=
  match op.toNat with
  | 0x00 => some .nop
  | 0x01 => some .crcInit
  | 0x02 => some .crcUpdate
  | 0x03 => some .crcFinal
  | 0x04 => some .crc32
  | 0x05 => some .crcCheck
  | 0x10 => some .typeLoad
  | 0x11 => some .typeFromString
  | 0x12 => some .typeIsValid
  | 0x13 => some .typeIsCritical
  | 0x14 => some .typeIsPublic
  | 0x15 => some .typeIsPrivate
  | 0x16 => some .typeIsReservedBitValid
  | 0x17 => some .typeIsSafeToCopy
  | 0x20 => some .chunkNew
  | 0x21 => some .chunkParse
  | 0x22 => some .chunkSerialize
  | 0x23 => some .chunkData
  | 0x24 => some .chunkToString
  | 0x30 => some .pngParse
  | 0x31 => some .pngSerialize
  | 0x32 => some .pngAppend
  | 0x33 => some .pngRemove
  | 0x34 => some .pngFind
  | 0x35 => some .pngGet
  | 0x36 => some .pngHeader
  | 0x40 => some .opEncode
  | 0x41 => some .opDecode
  | 0x42 => some .opRemove
  | _ => none

/-- `CheckCommandWord` (R116): the reserved bits first, then the opcode. -/
def decode (w : Word) : Except DecodeError Instr :=
  if reservedOf w ≠ 0 then .error .reservedBits
  else
    match decodeOpcode (opcodeOf w) with
    | some i => .ok i
    | none => .error .unknownOpcode

/-- The OPCODE of a command (R113). -/
def opcode (i : Instr) : BitVec 8 :=
  match i with
  | .nop => 0x00
  | .crcInit => 0x01
  | .crcUpdate => 0x02
  | .crcFinal => 0x03
  | .crc32 => 0x04
  | .crcCheck => 0x05
  | .typeLoad => 0x10
  | .typeFromString => 0x11
  | .typeIsValid => 0x12
  | .typeIsCritical => 0x13
  | .typeIsPublic => 0x14
  | .typeIsPrivate => 0x15
  | .typeIsReservedBitValid => 0x16
  | .typeIsSafeToCopy => 0x17
  | .chunkNew => 0x20
  | .chunkParse => 0x21
  | .chunkSerialize => 0x22
  | .chunkData => 0x23
  | .chunkToString => 0x24
  | .pngParse => 0x30
  | .pngSerialize => 0x31
  | .pngAppend => 0x32
  | .pngRemove => 0x33
  | .pngFind => 0x34
  | .pngGet => 0x35
  | .pngHeader => 0x36
  | .opEncode => 0x40
  | .opDecode => 0x41
  | .opRemove => 0x42

/-- The command word of a command: its OPCODE in bits 7:0, RSVD zero (R110). -/
def encode (i : Instr) : Word := (0 : BitVec 24) ++ opcode i

/-- The instruction the decoder reads from an opcode-table row's bits: one 32-bit word, bit 0 its least significant
bit (R110). There is no other length (R110, R119). -/
def decodeTableWord (nbits w : Nat) : Option Instr :=
  if nbits ≤ 32 ∧ w < 2 ^ nbits then (decode (BitVec.ofNat 32 w)).toOption else none

end Sys2Proof
end

