-- ==== Sys2Proof/Machine/State.lean ====
section
/-! DEFINITION. The state of the block as 10_state.md R55 lists it, with the configuration it runs under, and the
model's own fields for what is outside the block: the host's remaining actions, the interleaving, the values the host
has read and two counters of free values. -/

namespace Sys2Proof.Machine

/-- A ChunkType: 4 bytes with no further constraint, `t0` the first byte on the wire (00_scope.md R11, 10_state.md
R41). -/
structure ChunkType where
  t0 : Byte
  t1 : Byte
  t2 : Byte
  t3 : Byte
deriving DecidableEq, Repr

/-- A Chunk `(type, data, crc)` (00_scope.md R11). Its length is `data.length`, "derived not independently stored". -/
structure Chunk where
  ctype : ChunkType
  data : List Byte
  crc : Word
deriving DecidableEq, Repr

/-- BUF (20_memory.md R80) as the bytes written since the last reset, by strictly rising address. An unlisted address
holds no known byte: what a read of it gives is `State.byteAt`, the free draw of 70_reset_and_hazards.md R281. -/
abbrev Memory := List Host.Cell

/-- The fields of STATUS (10_state.md R34). Its reserved bits are no state: they read 0. -/
structure Status where
  /-- BUSY, the same bit as PENDING (R50). -/
  busy : Bool
  done : Bool
  err : Bool
  errSub : BitVec 4
  errCode : BitVec 8
  lastOp : BitVec 8
deriving DecidableEq, Repr

/-- The operands RANGE_ERROR names by its subcode (20_memory.md R83). -/
inductive RangeName where
  /-- (SRC_ADDR, SRC_LEN), subcode 0. -/
  | src
  /-- (ARG_ADDR, ARG_LEN), subcode 1. -/
  | arg
  /-- (MSG_ADDR, MSG_LEN), subcode 2. -/
  | msg
  /-- (DST_ADDR, DST_CAP), subcode 3. -/
  | dst
  /-- (SRC_ADDR, 4), the fixed range of TYPE_LOAD, subcode 4. -/
  | typeWord
deriving DecidableEq, Repr

/-- The two cases of INVALID_SIGNATURE (60_exceptions.md R250). -/
inductive SignatureReason where
  /-- The first 8 bytes differ from SIG, subcode 0. -/
  | mismatch
  /-- Fewer than 8 bytes, subcode 1. -/
  | tooShort
deriving DecidableEq, Repr

/-- The part of a frame that is incomplete, the three cases of TRUNCATED (60_exceptions.md R250). -/
inductive FramePart where
  /-- Length or type field incomplete, subcode 0. -/
  | header
  /-- Declared length exceeds the remaining bytes, subcode 1. -/
  | data
  /-- Crc field incomplete, subcode 2. -/
  | crc
deriving DecidableEq, Repr

/-- The two reasons of INVALID_CHUNK_TYPE (60_exceptions.md R250). -/
inductive TypeReason where
  /-- WrongLength, subcode 0. -/
  | wrongLength
  /-- NonAlphabetic, subcode 1. -/
  | nonAlphabetic
deriving DecidableEq, Repr

/-- The capacity a command would exceed (60_exceptions.md R250). -/
inductive CapacityKind where
  /-- MAX_CHUNKS, subcode 0. -/
  | chunks
  /-- STORE_BYTES, subcode 1. -/
  | bytes
deriving DecidableEq, Repr

/-- The errors a command can end in, `raise E(sub)` of the rules (60_exceptions.md R250). FILE_NOT_FOUND has no
constructor: "this block never raises it". -/
inductive CmdError where
  | invalidSignature (r : SignatureReason)
  | truncated (p : FramePart)
  | crcMismatch
  | invalidChunkType (r : TypeReason)
  | invalidUtf8
  | chunkNotFound
  | illegalCommand (r : DecodeError)
  | rangeError (r : RangeName)
  | outputOverflow
  | noPng
  | noChunk
  | capacityExceeded (c : CapacityKind)
  | indexOutOfRange
deriving DecidableEq, Repr

/-- The four host actions (10_state.md R30). Offsets and BUF addresses are numbers without an upper bound, so an access past
the window or past BUF is refused and never wraps (20_memory.md R82, 70_reset_and_hazards.md R289). -/
inductive HostAction where
  | regRead (off : Nat)
  | regWrite (off : Nat) (v : Word)
  | bufRead (addr : Nat)
  | bufWrite (addr : Nat) (b : Byte)
deriving DecidableEq, Repr

/-- What comes to the block from outside: a host action, the host's WAIT loop (30_encoding.md R121), or the RESET
input (70_reset_and_hazards.md R280). -/
inductive Input where
  | act (a : HostAction)
  /-- `repeat RegRead(0x04) until bit 0 (BUSY) = 0`. -/
  | wait
  /-- RESET is asserted. -/
  | reset
deriving DecidableEq, Repr

/-- Who takes a step (10_state.md R30): the outside or the engine. -/
inductive Agent where
  | host
  | engine
deriving DecidableEq, Repr

/-- A value a host read returned: a register word or a BUF byte (10_state.md R30). -/
inductive Reading where
  | reg (off : Nat) (v : Word)
  | buf (addr : Nat) (b : Byte)
deriving DecidableEq, Repr

/-- The complete state of 10_state.md R55, one field for each of its entries, and after it the model's own fields. -/
structure State where
  /-- The parameters of 00_scope.md R6. -/
  cfg : Config
  buf : Memory
  cmd : Word
  status : Status
  srcAddr : Word
  srcLen : Word
  argAddr : Word
  argLen : Word
  msgAddr : Word
  msgLen : Word
  dstAddr : Word
  dstCap : Word
  dstLen : Word
  result : Word
  /-- TYPE (10_state.md R41). -/
  typeReg : Word
  crcAcc : Word
  crcExp : Word
  index : Word
  /-- STAGE (10_state.md R44). -/
  stage : Option Chunk
  /-- PNG (10_state.md R46). -/
  png : Option (List Chunk)
  /-- MODEL: how many times RESET has been asserted. It picks the free value of a BUF byte (R281). -/
  resetCount : Nat
  /-- MODEL: how many free values reads while busy have drawn (R286). -/
  drawCount : Nat
  /-- MODEL: what the outside has still to do, first action first (R31, R121). -/
  script : List Input
  /-- MODEL: who moves when both agents can (R30). When it is used up the engine moves (R290). -/
  turns : List Agent
  /-- MODEL: what the host's reads returned, newest first (R96). -/
  reads : List Reading
deriving DecidableEq, Repr

/-- Why a run is refused from a host action on (10_state.md R53, 70_reset_and_hazards.md R285, R289). All are host
faults: "the faulted state is never final". -/
inductive Fault where
  /-- A host write of a register or of a BUF byte while BUSY = 1 (R285). Safe: nothing is claimed after it. -/
  | writeWhileBusy
  /-- A register access at an offset that is not a multiple of 4 (R289). Safe. -/
  | misalignedOffset
  /-- A register access at an offset of 0x100 or above (R289). Safe. -/
  | offsetOutOfWindow
  /-- A BUF access at an address of MEM_SIZE or more (R289). Safe. -/
  | bufAddressOutOfRange
deriving DecidableEq, Repr

/-- Why the model has no meaning for an instruction. -/
inductive Refusal where
  /-- An instruction without a meaning yet, raised by `exec` alone. Safe. No arm of this model raises it. -/
  | notModelled (mnemonic : String)
deriving DecidableEq, Repr

/-- STATUS after reset, 0x00000000 (70_reset_and_hazards.md R280). -/
def Status.afterReset : Status where
  busy := false
  done := false
  err := false
  errSub := 0
  errCode := 0
  lastOp := 0

/-- The reset condition of 70_reset_and_hazards.md R280 under a configuration, with nothing to do outside the block.
No BUF byte is known (R281). -/
def State.resetWith (c : Config) : State where
  cfg := c
  buf := []
  cmd := 0
  status := Status.afterReset
  srcAddr := 0
  srcLen := 0
  argAddr := 0
  argLen := 0
  msgAddr := 0
  msgLen := 0
  dstAddr := 0
  dstCap := 0
  dstLen := 0
  result := 0
  typeReg := 0
  crcAcc := 0xFFFFFFFF
  crcExp := 0
  index := 0
  stage := none
  png := none
  resetCount := 0
  drawCount := 0
  script := []
  turns := []
  reads := []

/-- The machine right after reset, under CFG-A (DESIGN CHOICE, log entry 1). -/
def State.reset : State := State.resetWith Config.cfgA

end Sys2Proof.Machine
end

