-- ==== Sys2Proof/Machine/Bytes.lean ====
section
/-! DEFINITION. Word and byte conversions (00_scope.md R9), the 4 bytes of a type (10_state.md R41) and the constant byte
sequences SIG (20_memory.md R90) and SENTINEL (44_orchestration.md R234). -/

namespace Sys2Proof.Machine

/-- `be32([b0, b1, b2, b3]) = b0*2^24 + b1*2^16 + b2*2^8 + b3` (R9). -/
def be32 (b0 b1 b2 b3 : Byte) : Word := b0 ++ b1 ++ b2 ++ b3

/-- `u32be(v) = [v[31:24], v[23:16], v[15:8], v[7:0]]` (R9). -/
def u32be (v : Word) : List Byte :=
  [v.extractLsb' 24 8, v.extractLsb' 16 8, v.extractLsb' 8 8, v.extractLsb' 0 8]

/-- The type whose register word is `v`: `tbytes(TYPE) = u32be(TYPE)` (R41). -/
def typeOfWord (v : Word) : ChunkType where
  t0 := v.extractLsb' 24 8
  t1 := v.extractLsb' 16 8
  t2 := v.extractLsb' 8 8
  t3 := v.extractLsb' 0 8

/-- The register word of a type, `be32` of its bytes (R41). -/
def ChunkType.toWord (t : ChunkType) : Word := be32 t.t0 t.t1 t.t2 t.t3

/-- The 4 bytes of a type in stream order (R41). -/
def ChunkType.bytes (t : ChunkType) : List Byte := [t.t0, t.t1, t.t2, t.t3]

/-- A length or an index as a register value. -/
def wordOfNat (n : Nat) : Word := BitVec.ofNat 32 n

/-- SIG, the PNG signature (R90). -/
def sig : List Byte := [0x89, 0x50, 0x4E, 0x47, 0x0D, 0x0A, 0x1A, 0x0A]

/-- SENTINEL, the 23 ASCII bytes of "No secret message found" (R234). -/
def sentinel : List Byte :=
  [0x4E, 0x6F, 0x20, 0x73, 0x65, 0x63, 0x72, 0x65, 0x74, 0x20, 0x6D, 0x65] ++
  [0x73, 0x73, 0x61, 0x67, 0x65, 0x20, 0x66, 0x6F, 0x75, 0x6E, 0x64]

end Sys2Proof.Machine
end

