-- ==== Sys2Proof/Machine/Flags.lean ====
section
/-! DEFINITION. The STATUS word and its values (10_state.md R34), the error codes and subcodes (60_exceptions.md R250), FLAGS and the
other views of STAGE and PNG (10_state.md R45, R47, R48). -/

namespace Sys2Proof.Machine

/-- A predicate's RESULT: 1 = true, 0 = false (10_state.md R40). -/
def boolWord (b : Bool) : Word := if b then 1 else 0

/-- The STATUS word: BUSY bit 0, DONE bit 1, ERR bit 2, bit 3 reads 0, ERRSUB bits 7:4, ERRCODE bits 15:8, LAST_OP bits
23:16, bits 31:24 read 0 (R34). -/
def Status.toWord (st : Status) : Word :=
  (0 : BitVec 8) ++ st.lastOp ++ st.errCode ++ st.errSub ++ (0 : BitVec 1) ++
  BitVec.ofBool st.err ++ BitVec.ofBool st.done ++ BitVec.ofBool st.busy

/-- ERRCODE of an error (60_exceptions.md R250). -/
def CmdError.code (e : CmdError) : BitVec 8 :=
  match e with
  | .invalidSignature _ => 0x01
  | .truncated _ => 0x02
  | .crcMismatch => 0x03
  | .invalidChunkType _ => 0x04
  | .invalidUtf8 => 0x05
  | .chunkNotFound => 0x06
  | .illegalCommand _ => 0x08
  | .rangeError _ => 0x09
  | .outputOverflow => 0x0A
  | .noPng => 0x0B
  | .noChunk => 0x0C
  | .capacityExceeded _ => 0x0D
  | .indexOutOfRange => 0x0E

/-- ERRSUB of an error (60_exceptions.md R250). -/
def CmdError.sub (e : CmdError) : BitVec 4 :=
  match e with
  | .invalidSignature .mismatch => 0
  | .invalidSignature .tooShort => 1
  | .truncated .header => 0
  | .truncated .data => 1
  | .truncated .crc => 2
  | .invalidChunkType .wrongLength => 0
  | .invalidChunkType .nonAlphabetic => 1
  | .illegalCommand .unknownOpcode => 0
  | .illegalCommand .reservedBits => 1
  | .rangeError .src => 0
  | .rangeError .arg => 1
  | .rangeError .msg => 2
  | .rangeError .dst => 3
  | .rangeError .typeWord => 4
  | .capacityExceeded .chunks => 0
  | .capacityExceeded .bytes => 1
  | .crcMismatch => 0
  | .invalidUtf8 => 0
  | .chunkNotFound => 0
  | .outputOverflow => 0
  | .noPng => 0
  | .noChunk => 0
  | .indexOutOfRange => 0

/-- STATUS on CMD acceptance (30_encoding.md R117). -/
def Status.accepted (op : BitVec 8) : Status where
  busy := true
  done := false
  err := false
  errSub := 0
  errCode := 0
  lastOp := op

/-- STATUS at the end of a command without error (30_encoding.md R118). -/
def Status.completed (op : BitVec 8) : Status where
  busy := false
  done := true
  err := false
  errSub := 0
  errCode := 0
  lastOp := op

/-- STATUS at the end of a command that raised an error (60_exceptions.md R254). -/
def Status.failed (e : CmdError) (op : BitVec 8) : Status where
  busy := false
  done := true
  err := true
  errSub := e.sub
  errCode := e.code
  lastOp := op

/-- CHUNK_COUNT: the number of chunks of the container, 0 without one (10_state.md R47). -/
def State.chunkCount (s : State) : Word :=
  match s.png with
  | some cs => wordOfNat cs.length
  | none => 0

/-- STAGE_LEN: the length of the staged chunk's data, 0 without one (10_state.md R45). -/
def State.stageLen (s : State) : Word :=
  match s.stage with
  | some c => wordOfNat c.data.length
  | none => 0

/-- STAGE_TYPE: the type of the staged chunk, 0 without one (10_state.md R45). -/
def State.stageType (s : State) : Word :=
  match s.stage with
  | some c => c.ctype.toWord
  | none => 0

/-- STAGE_CRC: the crc of the staged chunk, 0 without one (10_state.md R45). -/
def State.stageCrc (s : State) : Word :=
  match s.stage with
  | some c => c.crc
  | none => 0

/-- FLAGS: bit 0 PNG_VALID, bit 1 STAGE_VALID, bits 31:2 read 0 (10_state.md R48). -/
def State.flags (s : State) : Word :=
  (0 : BitVec 30) ++ BitVec.ofBool s.stage.isSome ++ BitVec.ofBool s.png.isSome

end Sys2Proof.Machine
end

