-- ==== Sys2Proof/Machine/Ops.lean ====
section
/-! DEFINITION. The shared operations: BUF (20_memory.md R80 to R86), the end of a command with and without an error
(30_encoding.md R118, 60_exceptions.md R254), command acceptance, which is the only way out of an error (R117,
60_exceptions.md R255), and the reset event (70_reset_and_hazards.md R280). -/

namespace Sys2Proof.Machine

/-- What one step answers. -/
abbrev Answer := Host.Outcome State Fault Refusal

/-- The known byte at an address, if one has been written since the last reset. -/
def Memory.lookup : Memory → Nat → Option Byte
  | [], _ => none
  | (k, v) :: m, a => if a = k then some v else Memory.lookup m a

/-- Memory with one byte written, in canonical form if `m` is. -/
def Memory.write : Memory → Nat → Byte → Memory
  | [], a, b => [(a, b)]
  | (k, v) :: m, a, b =>
    if a < k then (a, b) :: (k, v) :: m
    else if a = k then (a, b) :: m
    else (k, v) :: Memory.write m a b

/-- Memory with a byte sequence written from an address up: `MemWrite` (00_scope.md R10). -/
def Memory.writeBytes (m : Memory) (a : Nat) : List Byte → Memory
  | [] => m
  | b :: bs => Memory.writeBytes (Memory.write m a b) (a + 1) bs

/-- The canonical form: addresses strictly rising, all below MEM_SIZE. An unlisted address has no known byte, so no
entry can be equal to what it reads as. -/
abbrev Memory.wf (memSize : Nat) (m : Memory) : Prop :=
  m.Pairwise (fun x y => x.1 < y.1) ∧ ∀ c ∈ m, c.1 < memSize

/-- `BUF[a]`: the byte last written there, or the free draw of the last reset (70_reset_and_hazards.md R281). What an
unlisted address reads as is defined here and nowhere else (log entry 2). -/
def State.byteAt (s : State) (a : Nat) : Byte :=
  match Memory.lookup s.buf a with
  | some b => b
  | none => Config.bufDraw s.resetCount a

/-- `MemRead(a, n) = [BUF[a], ..., BUF[a+n-1]]` (00_scope.md R10). -/
def State.readBytes (s : State) (a : Nat) : Nat → List Byte
  | 0 => []
  | n + 1 => s.byteAt a :: State.readBytes s (a + 1) n

/-- A check of a rule: `if not p: raise e`. -/
def require (p : Prop) [Decidable p] (e : CmdError) : Except CmdError Unit :=
  if p then .ok () else .error e

/-- `Output(out)` (20_memory.md R85): nothing is written if `out` is longer than DST_CAP, else its bytes land at
DST_ADDR and DST_LEN is their number. -/
def output (out : List Byte) (s : State) : Except CmdError State :=
  if out.length > s.dstCap.toNat then .error .outputOverflow
  else .ok { s with
    buf := Memory.writeBytes s.buf s.dstAddr.toNat out
    dstLen := wordOfNat out.length }

/-- The end of `EngineStep` without an error (30_encoding.md R118): the working copy becomes the state, and STATUS
says done. `op` is CMD[7:0]. -/
def completeCommand (w : State) : State := { w with status := Status.completed (opcodeOf w.cmd) }

/-- ERROR ENTRY (60_exceptions.md R254): the state is the one at the start of the step but for STATUS, which
records ERRCODE, ERRSUB and LAST_OP (R251). -/
def raiseError (e : CmdError) (s : State) : State := { s with status := Status.failed e (opcodeOf s.cmd) }

/-- CMD acceptance (30_encoding.md R117), which also clears an earlier error: there is no other return from one
(60_exceptions.md R255). -/
def acceptCommand (v : Word) (s : State) : State := { s with cmd := v, status := Status.accepted (opcodeOf v) }

/-- `EngineStep` for a command whose rule is `rule` (30_encoding.md R118): the rule runs on a working copy, and the
step ends with or without an error. -/
def runRule (rule : State → Except CmdError State) (s : State) : Answer :=
  match rule s with
  | .ok w => .next (completeCommand w)
  | .error e => .next (raiseError e s)

/-- The reset event (70_reset_and_hazards.md R280): every piece of the block's state takes its reset value, a pending
command is abandoned, and every BUF byte is a new draw (R281). What is outside the block goes on. -/
def resetEvent (s : State) : State :=
  { State.resetWith s.cfg with
    resetCount := s.resetCount + 1
    drawCount := s.drawCount
    script := s.script
    turns := s.turns
    reads := s.reads }

end Sys2Proof.Machine
end

