-- ==== Sys2Proof/Machine/Operands.lean ====
section
/-! DEFINITION. The operand forms of 30_encoding.md R111: the ranges with their legality check (20_memory.md R83, R84) and the type
in TYPE. INDEX, CRC_EXP, CRC_ACC, STAGE and PNG are read from the state as they stand. -/

namespace Sys2Proof.Machine

/-- The start address of an operand range (10_state.md R35 to R38). -/
def State.rangeAddr (s : State) (r : RangeName) : Nat :=
  match r with
  | .src => s.srcAddr.toNat
  | .arg => s.argAddr.toNat
  | .msg => s.msgAddr.toNat
  | .dst => s.dstAddr.toNat
  | .typeWord => s.srcAddr.toNat

/-- The length of an operand range. DST's is its capacity; TYPE_LOAD's is 4, whatever SRC_LEN holds (20_memory.md R83). -/
def State.rangeLen (s : State) (r : RangeName) : Nat :=
  match r with
  | .src => s.srcLen.toNat
  | .arg => s.argLen.toNat
  | .msg => s.msgLen.toNat
  | .dst => s.dstCap.toNat
  | .typeWord => 4

/-- "A range (a, n) is legal iff a + n <= MEM_SIZE, computed on unbounded integers" (R83). -/
abbrev State.rangeLegal (s : State) (r : RangeName) : Prop :=
  s.rangeAddr r + s.rangeLen r ≤ s.cfg.memSize

/-- The check of one range: RANGE_ERROR with the operand's subcode if it is illegal (R83). -/
def checkRange (s : State) (r : RangeName) : Except CmdError Unit :=
  require (s.rangeLegal r) (.rangeError r)

/-- The check of a command's ranges in order; "the first illegal range is reported" (R84). -/
def checkRanges (s : State) : List RangeName → Except CmdError Unit
  | [] => .ok ()
  | r :: rs => do
    checkRange s r
    checkRanges s rs

/-- The bytes of an operand range in ascending address order. -/
def State.rangeBytes (s : State) (r : RangeName) : List Byte :=
  s.readBytes (s.rangeAddr r) (s.rangeLen r)

/-- `tbytes(TYPE)`, the type operand (10_state.md R41). -/
def State.typeOperand (s : State) : ChunkType := typeOfWord s.typeReg

/-- The staged chunk, or NO_CHUNK (60_exceptions.md R250). -/
def State.stageOperand (s : State) : Except CmdError Chunk :=
  match s.stage with
  | some c => .ok c
  | none => .error .noChunk

/-- The container's chunks, or NO_PNG (60_exceptions.md R250). -/
def State.pngOperand (s : State) : Except CmdError (List Chunk) :=
  match s.png with
  | some cs => .ok cs
  | none => .error .noPng

end Sys2Proof.Machine
end

