-- ==== Sys2Proof/Machine/ChunkType.lean ====
section
/-! DEFINITION. The ChunkType commands (41_chunk_type.md). -/

namespace Sys2Proof.Machine

/-- `IsLetter(b)`: A to Z or a to z (R160). -/
def isLetter (b : Byte) : Bool :=
  (decide (0x41 ≤ b.toNat) && decide (b.toNat ≤ 0x5A)) ||
  (decide (0x61 ≤ b.toNat) && decide (b.toNat ≤ 0x7A))

/-- `Bit5(b) = b[5]`, the bit of weight 0x20 (R160). -/
def bit5 (b : Byte) : Bool := b.getLsbD 5

/-- `TypeFromString(s)` (R163): the length is tested before the letters. -/
def typeFromString (s : List Byte) : Except CmdError ChunkType :=
  match s with
  | [b0, b1, b2, b3] =>
    if isLetter b0 && isLetter b1 && isLetter b2 && isLetter b3 then .ok { t0 := b0, t1 := b1, t2 := b2, t3 := b3 }
    else .error (.invalidChunkType .nonAlphabetic)
  | _ => .error (.invalidChunkType .wrongLength)

/-- `is_valid` (R164): 4 letters, and the reserved bit is 0. -/
def ChunkType.isValid (t : ChunkType) : Bool :=
  isLetter t.t0 && isLetter t.t1 && isLetter t.t2 && isLetter t.t3 && !bit5 t.t2

/-- `is_critical` (R165). Ancillary is its negation (R171). -/
def ChunkType.isCritical (t : ChunkType) : Bool := !bit5 t.t0

/-- `is_public` (R166). -/
def ChunkType.isPublic (t : ChunkType) : Bool := !bit5 t.t1

/-- `is_private` (R167, 90_conflicts.md C2). -/
def ChunkType.isPrivate (t : ChunkType) : Bool := bit5 t.t1

/-- `is_reserved_bit_valid` (R168). -/
def ChunkType.isReservedBitValid (t : ChunkType) : Bool := !bit5 t.t2

/-- `is_safe_to_copy` (R169): set means true. -/
def ChunkType.isSafeToCopy (t : ChunkType) : Bool := bit5 t.t3

/-- A predicate command: RESULT is 1 or 0 as the predicate of TYPE says, and nothing is raised (41_chunk_type.md
section 3). -/
def predicateRule (p : ChunkType → Bool) (w : State) : Except CmdError State :=
  .ok { w with result := boolWord (p w.typeOperand) }

/-- TYPE_LOAD (R161): 4 raw bytes at SRC_ADDR, no content check. -/
def typeLoadRule (w : State) : Except CmdError State := do
  checkRange w .typeWord
  let a := w.rangeAddr .typeWord
  .ok { w with typeReg := be32 (w.byteAt a) (w.byteAt (a + 1)) (w.byteAt (a + 2)) (w.byteAt (a + 3)) }

/-- The meaning of TYPE_LOAD: its rule, run as one `EngineStep`. -/
def execTypeLoad (s : State) : Answer := runRule typeLoadRule s

/-- TYPE_FROM_STRING (R162). -/
def typeFromStringRule (w : State) : Except CmdError State := do
  checkRange w .src
  let t ← typeFromString (w.rangeBytes .src)
  .ok { w with typeReg := t.toWord }

/-- The meaning of TYPE_FROM_STRING: its rule, run as one `EngineStep`. -/
def execTypeFromString (s : State) : Answer := runRule typeFromStringRule s

/-- TYPE_IS_VALID (R164). -/
def execTypeIsValid (s : State) : Answer := runRule (predicateRule ChunkType.isValid) s

/-- TYPE_IS_CRITICAL (R165). -/
def execTypeIsCritical (s : State) : Answer := runRule (predicateRule ChunkType.isCritical) s

/-- TYPE_IS_PUBLIC (R166). -/
def execTypeIsPublic (s : State) : Answer := runRule (predicateRule ChunkType.isPublic) s

/-- TYPE_IS_PRIVATE (R167). -/
def execTypeIsPrivate (s : State) : Answer := runRule (predicateRule ChunkType.isPrivate) s

/-- TYPE_IS_RESERVED_BIT_VALID (R168). -/
def execTypeIsReservedBitValid (s : State) : Answer := runRule (predicateRule ChunkType.isReservedBitValid) s

/-- TYPE_IS_SAFE_TO_COPY (R169). -/
def execTypeIsSafeToCopy (s : State) : Answer := runRule (predicateRule ChunkType.isSafeToCopy) s

end Sys2Proof.Machine
end

