-- ==== Sys2Proof/Machine/Crc.lean ====
section
/-! DEFINITION. The CRC unit (40_crc.md): the CRC-32/ISO-HDLC algorithm and its five commands. -/

namespace Sys2Proof.Machine

/-- The reflected polynomial of CRC-32/ISO-HDLC (R140). -/
def crcPoly : Word := 0xEDB88320

/-- The initial register, and the final XOR (R140). -/
def crcOnes : Word := 0xFFFFFFFF

/-- One of the 8 rounds of `CrcStep` (R141). -/
def crcBit (acc : Word) : Word :=
  if acc.getLsbD 0 then (acc >>> 1) ^^^ crcPoly else acc >>> 1

/-- `n` rounds. -/
def crcBits : Nat → Word → Word
  | 0, acc => acc
  | n + 1, acc => crcBits n (crcBit acc)

/-- `CrcStep(acc, b)` (R141): the byte enters the low bits, then 8 rounds. -/
def crcStep (acc : Word) (b : Byte) : Word := crcBits 8 (acc ^^^ b.setWidth 32)

/-- `CrcFold(acc, s)` (R141): `CrcStep` over the bytes of s in order. -/
def crcFold (acc : Word) : List Byte → Word
  | [] => acc
  | b :: bs => crcFold (crcStep acc b) bs

/-- `crc32(s) = CrcFold(0xFFFFFFFF, s) xor 0xFFFFFFFF` (R142). -/
def crc32 (s : List Byte) : Word := crcFold crcOnes s ^^^ crcOnes

/-- CRC_INIT (R143). -/
def crcInitRule (w : State) : Except CmdError State :=
  .ok { w with crcAcc := crcOnes }

/-- The meaning of CRC_INIT: its rule, run as one `EngineStep`. -/
def execCrcInit (s : State) : Answer := runRule crcInitRule s

/-- CRC_UPDATE (R144): no final XOR, and the fold goes on from whatever CRC_ACC holds. -/
def crcUpdateRule (w : State) : Except CmdError State := do
  checkRange w .src
  .ok { w with crcAcc := crcFold w.crcAcc (w.rangeBytes .src) }

/-- The meaning of CRC_UPDATE: its rule, run as one `EngineStep`. -/
def execCrcUpdate (s : State) : Answer := runRule crcUpdateRule s

/-- CRC_FINAL (R145). -/
def crcFinalRule (w : State) : Except CmdError State :=
  .ok { w with result := w.crcAcc ^^^ crcOnes }

/-- The meaning of CRC_FINAL: its rule, run as one `EngineStep`. -/
def execCrcFinal (s : State) : Answer := runRule crcFinalRule s

/-- CRC32 (R146): CRC_ACC is neither read nor written. -/
def crc32Rule (w : State) : Except CmdError State := do
  checkRange w .src
  .ok { w with result := crc32 (w.rangeBytes .src) }

/-- The meaning of CRC32: its rule, run as one `EngineStep`. -/
def execCrc32 (s : State) : Answer := runRule crc32Rule s

/-- CRC_CHECK (R147): all 32 bits are compared with CRC_EXP. -/
def crcCheckRule (w : State) : Except CmdError State := do
  checkRange w .src
  require (crc32 (w.rangeBytes .src) = w.crcExp) .crcMismatch
  .ok { w with result := crc32 (w.rangeBytes .src) }

/-- The meaning of CRC_CHECK: its rule, run as one `EngineStep`. -/
def execCrcCheck (s : State) : Answer := runRule crcCheckRule s

end Sys2Proof.Machine
end

