-- ==== Sys2Proof/Machine/Utf8.lean ====
section
/-! DEFINITION. Well-formed UTF-8, the table of 42_chunk.md R187. -/

namespace Sys2Proof.Machine

/-- A range of byte values, both ends included. -/
structure ByteSpan where
  lo : Nat
  hi : Nat
deriving DecidableEq, Repr

/-- The byte lies in the range. -/
def ByteSpan.has (r : ByteSpan) (b : Byte) : Bool := decide (r.lo ≤ b.toNat) && decide (b.toNat ≤ r.hi)

/-- The byte ranges of one row of the table: the first byte, then the bytes after it. -/
structure Utf8Row where
  first : ByteSpan
  rest : List ByteSpan
deriving DecidableEq, Repr

/-- 80 to BF, a continuation byte without a further limit. -/
def contByte : ByteSpan := { lo := 0x80, hi := 0xBF }

/-- The rows of R187, in its order. -/
def utf8Table : List Utf8Row :=
  [ { first := { lo := 0x00, hi := 0x7F }, rest := [] },
    { first := { lo := 0xC2, hi := 0xDF }, rest := [contByte] },
    { first := { lo := 0xE0, hi := 0xE0 }, rest := [{ lo := 0xA0, hi := 0xBF }, contByte] },
    { first := { lo := 0xE1, hi := 0xEC }, rest := [contByte, contByte] },
    { first := { lo := 0xED, hi := 0xED }, rest := [{ lo := 0x80, hi := 0x9F }, contByte] },
    { first := { lo := 0xEE, hi := 0xEF }, rest := [contByte, contByte] },
    { first := { lo := 0xF0, hi := 0xF0 }, rest := [{ lo := 0x90, hi := 0xBF }, contByte, contByte] },
    { first := { lo := 0xF1, hi := 0xF3 }, rest := [contByte, contByte, contByte] },
    { first := { lo := 0xF4, hi := 0xF4 }, rest := [{ lo := 0x80, hi := 0x8F }, contByte, contByte] } ]

/-- The row whose first byte is `b`; the rows' first bytes do not overlap. -/
def utf8RowOf (b : Byte) : Option Utf8Row := utf8Table.find? (fun r => r.first.has b)

/-- The bytes still to come of the sequence in progress lie in `pending`, and whole sequences follow. -/
def utf8From (pending : List ByteSpan) : List Byte → Bool
  | [] => pending.isEmpty
  | b :: bs =>
    match pending with
    | r :: rs => r.has b && utf8From rs bs
    | [] =>
      match utf8RowOf b with
      | some row => utf8From row.rest bs
      | none => false

/-- `Utf8Valid(s)`: s is a concatenation of zero or more well-formed sequences (R187). -/
def utf8Valid (s : List Byte) : Bool := utf8From [] s

end Sys2Proof.Machine
end

