-- ==== Sys2Proof/Machine/Chunk.lean ====
section
/-! DEFINITION. The Chunk functions and commands (42_chunk.md). -/

namespace Sys2Proof.Machine

/-- `NewChunk(t, d) = (t, d, crc32(t ++ d))` (R180). It never fails. -/
def newChunk (t : ChunkType) (d : List Byte) : Chunk where
  ctype := t
  data := d
  crc := crc32 (t.bytes ++ d)

/-- `ParseChunk(r)` (R181): the chunk at the front of r and the number of bytes it takes. The length and type fields are the
first 8 bytes; the declared length is compared with what is left after them, then the crc field is. -/
def parseChunk (r : List Byte) : Except CmdError (Chunk × Nat) :=
  match r with
  | l0 :: l1 :: l2 :: l3 :: t0 :: t1 :: t2 :: t3 :: body =>
    let len := (be32 l0 l1 l2 l3).toNat
    let t : ChunkType := { t0 := t0, t1 := t1, t2 := t2, t3 := t3 }
    if len > body.length then .error (.truncated .data)
    else
      match body.drop len with
      | c0 :: c1 :: c2 :: c3 :: _ =>
        let d := body.take len
        let c := be32 c0 c1 c2 c3
        if c ≠ crc32 (t.bytes ++ d) then .error .crcMismatch
        else .ok ({ ctype := t, data := d, crc := c }, 12 + len)
      | _ => .error (.truncated .crc)
  | _ => .error (.truncated .header)

/-- `ChunkBytes(c)`, the frame of a chunk (R188, 20_memory.md R91). The stored crc is written as it is. -/
def chunkBytes (c : Chunk) : List Byte :=
  u32be (wordOfNat c.data.length) ++ c.ctype.bytes ++ c.data ++ u32be c.crc

/-- CHUNK_NEW (R182). -/
def chunkNewRule (w : State) : Except CmdError State := do
  checkRange w .src
  let d := w.rangeBytes .src
  require (d.length ≤ w.cfg.storeBytes) (.capacityExceeded .bytes)
  .ok { w with stage := some (newChunk w.typeOperand d) }

/-- The meaning of CHUNK_NEW: its rule, run as one `EngineStep`. -/
def execChunkNew (s : State) : Answer := runRule chunkNewRule s

/-- CHUNK_PARSE (R183): bytes after the first frame are ignored, and RESULT is the frame's size. -/
def chunkParseRule (w : State) : Except CmdError State := do
  checkRange w .src
  let p ← parseChunk (w.rangeBytes .src)
  require (p.1.data.length ≤ w.cfg.storeBytes) (.capacityExceeded .bytes)
  .ok { w with stage := some p.1, result := wordOfNat p.2 }

/-- The meaning of CHUNK_PARSE: its rule, run as one `EngineStep`. -/
def execChunkParse (s : State) : Answer := runRule chunkParseRule s

/-- CHUNK_SERIALIZE (R184). -/
def chunkSerializeRule (w : State) : Except CmdError State := do
  let c ← w.stageOperand
  checkRange w .dst
  output (chunkBytes c) w

/-- The meaning of CHUNK_SERIALIZE: its rule, run as one `EngineStep`. -/
def execChunkSerialize (s : State) : Answer := runRule chunkSerializeRule s

/-- CHUNK_DATA (R185). -/
def chunkDataRule (w : State) : Except CmdError State := do
  let c ← w.stageOperand
  checkRange w .dst
  output c.data w

/-- The meaning of CHUNK_DATA: its rule, run as one `EngineStep`. -/
def execChunkData (s : State) : Answer := runRule chunkDataRule s

/-- CHUNK_TO_STRING (R186). -/
def chunkToStringRule (w : State) : Except CmdError State := do
  let c ← w.stageOperand
  checkRange w .dst
  require (utf8Valid c.data = true) .invalidUtf8
  output c.data w

/-- The meaning of CHUNK_TO_STRING: its rule, run as one `EngineStep`. -/
def execChunkToString (s : State) : Answer := runRule chunkToStringRule s

end Sys2Proof.Machine
end

