-- ==== Sys2Proof/Machine/Png.lean ====
section
/-! DEFINITION. The Png container functions and commands (43_png.md). -/

namespace Sys2Proof.Machine

/-- The data bytes of a container summed over its chunks (00_scope.md R6). -/
def dataTotal (cs : List Chunk) : Nat := (cs.map (fun c => c.data.length)).sum

/-- Room for one more chunk of `n` data bytes in a container of `count` chunks and `total` data bytes: MAX_CHUNKS is tested
before STORE_BYTES (R200, R203). -/
def checkRoom (cfg : Config) (count total n : Nat) : Except CmdError Unit := do
  require (count + 1 ≤ cfg.maxChunks) (.capacityExceeded .chunks)
  require (total + n ≤ cfg.storeBytes) (.capacityExceeded .bytes)

/-- The loop of `ParsePng` (R200) after the signature: frames until the bytes are used up, `cs` and `total` being
what the earlier ones gave. Every frame takes 12 bytes or more, so `fuel` passes are enough for `fuel` bytes. -/
def parseFrames (cfg : Config) : Nat → List Byte → List Chunk → Nat → Except CmdError (List Chunk)
  | 0, _, cs, _ => .ok cs
  | fuel + 1, b, cs, total =>
    if b.isEmpty then .ok cs
    else do
      let p ← parseChunk b
      checkRoom cfg cs.length total p.1.data.length
      parseFrames cfg fuel (b.drop p.2) (cs ++ [p.1]) (total + p.1.data.length)

/-- `ParsePng(b)` (R200): the length, then the signature, then the frames. -/
def parsePng (cfg : Config) (b : List Byte) : Except CmdError (List Chunk) :=
  if b.length < 8 then .error (.invalidSignature .tooShort)
  else if b.take 8 ≠ sig then .error (.invalidSignature .mismatch)
  else parseFrames cfg b.length (b.drop 8) [] 0

/-- `PngBytes(cs) = SIG ++ ChunkBytes(c0) ++ ...` (R208). -/
def pngBytes (cs : List Chunk) : List Byte := sig ++ cs.flatMap chunkBytes

/-- The first chunk of a type with its index (R209), byte-exact (41_chunk_type.md R170). Its index is
`FirstIndex(cs, t)`. -/
def firstOfType : List Chunk → ChunkType → Option (Nat × Chunk)
  | [], _ => none
  | c :: cs, t =>
    if c.ctype = t then some (0, c)
    else
      match firstOfType cs t with
      | some (i, d) => some (i + 1, d)
      | none => none

/-- `cs[0..i) ++ cs[i+1..len(cs))` (R204). -/
def removeAt (cs : List Chunk) (i : Nat) : List Chunk := cs.take i ++ cs.drop (i + 1)

/-- The first chunk of a type, or CHUNK_NOT_FOUND (R204). -/
def findOrFail (cs : List Chunk) (t : ChunkType) : Except CmdError (Nat × Chunk) :=
  match firstOfType cs t with
  | some p => .ok p
  | none => .error .chunkNotFound

/-- PNG_PARSE (R201). -/
def pngParseRule (w : State) : Except CmdError State := do
  checkRange w .src
  let cs ← parsePng w.cfg (w.rangeBytes .src)
  .ok { w with png := some cs }

/-- The meaning of PNG_PARSE: its rule, run as one `EngineStep`. -/
def execPngParse (s : State) : Answer := runRule pngParseRule s

/-- PNG_SERIALIZE (R202). -/
def pngSerializeRule (w : State) : Except CmdError State := do
  let cs ← w.pngOperand
  checkRange w .dst
  output (pngBytes cs) w

/-- The meaning of PNG_SERIALIZE: its rule, run as one `EngineStep`. -/
def execPngSerialize (s : State) : Answer := runRule pngSerializeRule s

/-- PNG_APPEND (R203): the staged chunk is moved to the end, and STAGE is left empty. -/
def pngAppendRule (w : State) : Except CmdError State := do
  let cs ← w.pngOperand
  let c ← w.stageOperand
  checkRoom w.cfg cs.length (dataTotal cs) c.data.length
  .ok { w with png := some (cs ++ [c]), stage := none }

/-- The meaning of PNG_APPEND: its rule, run as one `EngineStep`. -/
def execPngAppend (s : State) : Answer := runRule pngAppendRule s

/-- PNG_REMOVE (R204): the first chunk of TYPE is moved to STAGE. -/
def pngRemoveRule (w : State) : Except CmdError State := do
  let cs ← w.pngOperand
  let p ← findOrFail cs w.typeOperand
  .ok { w with stage := some p.2, png := some (removeAt cs p.1) }

/-- The meaning of PNG_REMOVE: its rule, run as one `EngineStep`. -/
def execPngRemove (s : State) : Answer := runRule pngRemoveRule s

/-- PNG_FIND (R205): absence is no error, and then INDEX and STAGE are unchanged. -/
def pngFindRule (w : State) : Except CmdError State := do
  let cs ← w.pngOperand
  match firstOfType cs w.typeOperand with
  | none => .ok { w with result := 0 }
  | some p => .ok { w with result := 1, index := wordOfNat p.1, stage := some p.2 }

/-- The meaning of PNG_FIND: its rule, run as one `EngineStep`. -/
def execPngFind (s : State) : Answer := runRule pngFindRule s

/-- PNG_GET (R206): a copy of the chunk INDEX selects. -/
def pngGetRule (w : State) : Except CmdError State := do
  let cs ← w.pngOperand
  match cs[w.index.toNat]? with
  | none => .error .indexOutOfRange
  | some c => .ok { w with stage := some c }

/-- The meaning of PNG_GET: its rule, run as one `EngineStep`. -/
def execPngGet (s : State) : Answer := runRule pngGetRule s

/-- PNG_HEADER (R207): no Png is needed. -/
def pngHeaderRule (w : State) : Except CmdError State := do
  checkRange w .dst
  output sig w

/-- The meaning of PNG_HEADER: its rule, run as one `EngineStep`. -/
def execPngHeader (s : State) : Answer := runRule pngHeaderRule s

end Sys2Proof.Machine
end

