-- ==== Sys2Proof/Machine/Orchestration.lean ====
section
/-! DEFINITION. Encode, Decode and Remove (44_orchestration.md R230 to R234). -/

namespace Sys2Proof.Machine

/-- OP_ENCODE (R231): all ranges first, then the parse, the type string, the new chunk's capacity, the output. -/
def opEncodeRule (w : State) : Except CmdError State := do
  checkRanges w [.src, .arg, .msg, .dst]
  let cs ← parsePng w.cfg (w.rangeBytes .src)
  let t ← typeFromString (w.rangeBytes .arg)
  let m := w.rangeBytes .msg
  require (m.length ≤ w.cfg.storeBytes) (.capacityExceeded .bytes)
  checkRoom w.cfg cs.length (dataTotal cs) m.length
  let cs2 := cs ++ [newChunk t m]
  let w2 ← output (pngBytes cs2) w
  .ok { w2 with png := some cs2, typeReg := t.toWord, stage := none }

/-- The meaning of OP_ENCODE: its rule, run as one `EngineStep`. -/
def execOpEncode (s : State) : Answer := runRule opEncodeRule s

/-- OP_DECODE (R232): the first chunk's text with RESULT = 1, or SENTINEL with RESULT = 0. -/
def opDecodeRule (w : State) : Except CmdError State := do
  checkRanges w [.src, .arg, .dst]
  let cs ← parsePng w.cfg (w.rangeBytes .src)
  let t ← typeFromString (w.rangeBytes .arg)
  match firstOfType cs t with
  | none => do
    let w2 ← output sentinel w
    .ok { w2 with result := 0, png := some cs, typeReg := t.toWord }
  | some p => do
    require (utf8Valid p.2.data = true) .invalidUtf8
    let w2 ← output p.2.data w
    .ok { w2 with
      result := 1
      index := wordOfNat p.1
      stage := some p.2
      png := some cs
      typeReg := t.toWord }

/-- The meaning of OP_DECODE: its rule, run as one `EngineStep`. -/
def execOpDecode (s : State) : Answer := runRule opDecodeRule s

/-- OP_REMOVE (R233). -/
def opRemoveRule (w : State) : Except CmdError State := do
  checkRanges w [.src, .arg, .dst]
  let cs ← parsePng w.cfg (w.rangeBytes .src)
  let t ← typeFromString (w.rangeBytes .arg)
  let p ← findOrFail cs t
  let cs2 := removeAt cs p.1
  let w2 ← output (pngBytes cs2) w
  .ok { w2 with png := some cs2, typeReg := t.toWord, stage := some p.2 }

/-- The meaning of OP_REMOVE: its rule, run as one `EngineStep`. -/
def execOpRemove (s : State) : Answer := runRule opRemoveRule s

end Sys2Proof.Machine
end

