-- ==== Sys2Proof/Machine/System.lean ====
section
/-! DEFINITION. The system command NOP (45_system.md). -/

namespace Sys2Proof.Machine

/-- NOP (R245): the command's rule is empty; STATUS says done. -/
def nopRule (w : State) : Except CmdError State :=
  .ok w

/-- The meaning of NOP: its rule, run as one `EngineStep`. -/
def execNop (s : State) : Answer := runRule nopRule s

end Sys2Proof.Machine
end

