-- ==== Sys2Proof/Machine/Dispatch.lean ====
section
/-! DEFINITION. `Execute`: one arm for each command of 30_encoding.md R113. -/

namespace Sys2Proof.Machine

def exec (i : Instr) (s : State) : Host.Outcome State Fault Refusal :=
  match i with
  | .nop => Sys2Proof.Machine.execNop s
  | .crcInit => Sys2Proof.Machine.execCrcInit s
  | .crcUpdate => Sys2Proof.Machine.execCrcUpdate s
  | .crcFinal => Sys2Proof.Machine.execCrcFinal s
  | .crc32 => Sys2Proof.Machine.execCrc32 s
  | .crcCheck => Sys2Proof.Machine.execCrcCheck s
  | .typeLoad => Sys2Proof.Machine.execTypeLoad s
  | .typeFromString => Sys2Proof.Machine.execTypeFromString s
  | .typeIsValid => Sys2Proof.Machine.execTypeIsValid s
  | .typeIsCritical => Sys2Proof.Machine.execTypeIsCritical s
  | .typeIsPublic => Sys2Proof.Machine.execTypeIsPublic s
  | .typeIsPrivate => Sys2Proof.Machine.execTypeIsPrivate s
  | .typeIsReservedBitValid => Sys2Proof.Machine.execTypeIsReservedBitValid s
  | .typeIsSafeToCopy => Sys2Proof.Machine.execTypeIsSafeToCopy s
  | .chunkNew => Sys2Proof.Machine.execChunkNew s
  | .chunkParse => Sys2Proof.Machine.execChunkParse s
  | .chunkSerialize => Sys2Proof.Machine.execChunkSerialize s
  | .chunkData => Sys2Proof.Machine.execChunkData s
  | .chunkToString => Sys2Proof.Machine.execChunkToString s
  | .pngParse => Sys2Proof.Machine.execPngParse s
  | .pngSerialize => Sys2Proof.Machine.execPngSerialize s
  | .pngAppend => Sys2Proof.Machine.execPngAppend s
  | .pngRemove => Sys2Proof.Machine.execPngRemove s
  | .pngFind => Sys2Proof.Machine.execPngFind s
  | .pngGet => Sys2Proof.Machine.execPngGet s
  | .pngHeader => Sys2Proof.Machine.execPngHeader s
  | .opEncode => Sys2Proof.Machine.execOpEncode s
  | .opDecode => Sys2Proof.Machine.execOpDecode s
  | .opRemove => Sys2Proof.Machine.execOpRemove s

end Sys2Proof.Machine
end

