-- ==== Sys2Proof/Machine/Engine.lean ====
section
/-! DEFINITION. `EngineStep` (30_encoding.md R118) and the choice of who moves next (10_state.md R30, R50). -/

namespace Sys2Proof.Machine

/-- The pending command: CMD decoded. It is the only "fetch" the block has (30_encoding.md R116, 20_memory.md R97). -/
def pendingCommand (s : State) : Except DecodeError Instr := decode s.cmd

/-- `EngineStep` (R118): the command-word check, then the command; an illegal word completes with ILLEGAL_COMMAND
(R114, R116). -/
def engineStep (s : State) : Answer :=
  match pendingCommand s with
  | .ok i => exec i s
  | .error r => .next (raiseError (.illegalCommand r) s)

/-- Who moves next. The engine can move iff BUSY (= PENDING) is 1 (10_state.md R50), the outside iff it has something
left to do. When both can, `turns` says who; when it says nothing, the engine (70_reset_and_hazards.md R290). -/
def State.mover (s : State) : Option Agent :=
  match s.status.busy, s.script, s.turns with
  | true, [], _ => some .engine
  | true, _ :: _, [] => some .engine
  | true, _ :: _, a :: _ => some a
  | false, [], _ => none
  | false, _ :: _, _ => some .host

/-- The state with the turn used up, if both agents could have moved. -/
def State.takeTurn (s : State) : State :=
  match s.status.busy, s.script with
  | true, _ :: _ => { s with turns := s.turns.tail }
  | _, _ => s

end Sys2Proof.Machine
end

