-- ==== Sys2Proof/Machine/RegisterMap.lean ====
section
/-! DEFINITION. The register window (10_state.md R32 to R53). -/

namespace Sys2Proof.Machine

/-- The registers of the window (R32). -/
inductive RegName where
  | cmd
  | status
  | srcAddr
  | srcLen
  | argAddr
  | argLen
  | msgAddr
  | msgLen
  | dstAddr
  | dstCap
  | dstLen
  | result
  | type
  | crcAcc
  | crcExp
  | index
  | chunkCount
  | stageLen
  | stageType
  | stageCrc
  | flags
  | sigHi
  | sigLo
  | capMem
  | capChunks
  | capStore
deriving DecidableEq, Repr

/-- All registers, by offset. -/
def RegName.all : List RegName :=
  [.cmd, .status, .srcAddr, .srcLen, .argAddr, .argLen, .msgAddr, .msgLen, .dstAddr, .dstCap, .dstLen, .result, .type] ++
  [.crcAcc, .crcExp, .index, .chunkCount, .stageLen, .stageType, .stageCrc, .flags, .sigHi, .sigLo, .capMem] ++
  [.capChunks, .capStore]

/-- The offset of a register (R32). -/
def RegName.offset (r : RegName) : Nat :=
  match r with
  | .cmd => 0x00
  | .status => 0x04
  | .srcAddr => 0x08
  | .srcLen => 0x0C
  | .argAddr => 0x10
  | .argLen => 0x14
  | .msgAddr => 0x18
  | .msgLen => 0x1C
  | .dstAddr => 0x20
  | .dstCap => 0x24
  | .dstLen => 0x28
  | .result => 0x2C
  | .type => 0x30
  | .crcAcc => 0x34
  | .crcExp => 0x38
  | .index => 0x3C
  | .chunkCount => 0x40
  | .stageLen => 0x44
  | .stageType => 0x48
  | .stageCrc => 0x4C
  | .flags => 0x50
  | .sigHi => 0x54
  | .sigLo => 0x58
  | .capMem => 0x5C
  | .capChunks => 0x60
  | .capStore => 0x64

/-- What an offset of the window means (R53, 70_reset_and_hazards.md R289). -/
inductive Slot where
  /-- A register. -/
  | reg (r : RegName)
  /-- 0x68 to 0xFC: reads 0, writes ignored. -/
  | reserved
  /-- Not a multiple of 4: refused. -/
  | misaligned
  /-- 0x100 or above: refused. -/
  | outside
deriving DecidableEq, Repr

/-- The slot at an offset. -/
def slotAt (off : Nat) : Slot :=
  if off ≥ 0x100 then .outside
  else if off % 4 ≠ 0 then .misaligned
  else
    match RegName.all.find? (fun r => decide (r.offset = off)) with
    | some r => .reg r
    | none => .reserved

/-- The value of a register by the state rules (R33 to R49). -/
def State.regValue (s : State) (r : RegName) : Word :=
  match r with
  | .cmd => s.cmd
  | .status => s.status.toWord
  | .srcAddr => s.srcAddr
  | .srcLen => s.srcLen
  | .argAddr => s.argAddr
  | .argLen => s.argLen
  | .msgAddr => s.msgAddr
  | .msgLen => s.msgLen
  | .dstAddr => s.dstAddr
  | .dstCap => s.dstCap
  | .dstLen => s.dstLen
  | .result => s.result
  | .type => s.typeReg
  | .crcAcc => s.crcAcc
  | .crcExp => s.crcExp
  | .index => s.index
  | .chunkCount => s.chunkCount
  | .stageLen => s.stageLen
  | .stageType => s.stageType
  | .stageCrc => s.stageCrc
  | .flags => s.flags
  | .sigHi => 0x89504E47
  | .sigLo => 0x0D0A1A0A
  | .capMem => wordOfNat (s.cfg.memSize - 1)
  | .capChunks => wordOfNat s.cfg.maxChunks
  | .capStore => wordOfNat s.cfg.storeBytes

/-- The value of a slot; a reserved offset reads 0 (R53). -/
def State.slotValue (s : State) (sl : Slot) : Word :=
  match sl with
  | .reg r => s.regValue r
  | .reserved => 0
  | .misaligned => 0
  | .outside => 0

/-- The registers whose value a read returns even while BUSY = 1: STATUS and the constants (70_reset_and_hazards.md R286).
A reserved offset is not among them (log entry 7). -/
def Slot.steady (sl : Slot) : Bool :=
  match sl with
  | .reg .status => true
  | .reg .sigHi => true
  | .reg .sigLo => true
  | .reg .capMem => true
  | .reg .capChunks => true
  | .reg .capStore => true
  | _ => false

/-- A host write of a register while BUSY = 0 (R33 to R43, R47). A write to CMD starts a command (30_encoding.md R117); a write
to a register of access R or C changes nothing (R53). -/
def State.writeReg (s : State) (r : RegName) (v : Word) : State :=
  match r with
  | .cmd => acceptCommand v s
  | .srcAddr => { s with srcAddr := v }
  | .srcLen => { s with srcLen := v }
  | .argAddr => { s with argAddr := v }
  | .argLen => { s with argLen := v }
  | .msgAddr => { s with msgAddr := v }
  | .msgLen => { s with msgLen := v }
  | .dstAddr => { s with dstAddr := v }
  | .dstCap => { s with dstCap := v }
  | .type => { s with typeReg := v }
  | .crcExp => { s with crcExp := v }
  | .index => { s with index := v }
  | .status => s
  | .dstLen => s
  | .result => s
  | .crcAcc => s
  | .chunkCount => s
  | .stageLen => s
  | .stageType => s
  | .stageCrc => s
  | .flags => s
  | .sigHi => s
  | .sigLo => s
  | .capMem => s
  | .capChunks => s
  | .capStore => s

end Sys2Proof.Machine
end

