-- ==== Sys2Proof/Machine/HostAgent.lean ====
section
/-! DEFINITION. The four host actions (10_state.md R30), the WAIT loop (30_encoding.md R121), the RESET input
(70_reset_and_hazards.md R280) and the step of the outside. -/

namespace Sys2Proof.Machine

/-- The state after a read: the host holds the value, and nothing else has changed (20_memory.md R96). -/
def recordRead (x : Reading) (s : State) : State := { s with reads := x :: s.reads }

/-- `RegRead(off)`: the register's value; while BUSY = 1 a free draw for all but STATUS and the constants (R286); a
refused offset faults (R289). After completion but before a STATUS read has returned BUSY = 0 the spec leaves the value
open (R286, R95); here it is the register's value, since BUSY = 0 (DESIGN CHOICE, log entry 15). -/
def regRead (off : Nat) (s : State) : Answer :=
  match slotAt off with
  | .outside => .fault .offsetOutOfWindow
  | .misaligned => .fault .misalignedOffset
  | sl =>
    if s.status.busy && !sl.steady then
      .next (recordRead (.reg off (Config.busyWord s.drawCount)) { s with drawCount := s.drawCount + 1 })
    else .next (recordRead (.reg off (s.slotValue sl)) s)

/-- `RegWrite(off, v)`: a refused offset faults (R289), and so does a write while BUSY = 1
(R285), to a reserved offset too (DEDUCED, log entry 9). -/
def regWrite (off : Nat) (v : Word) (s : State) : Answer :=
  match slotAt off with
  | .outside => .fault .offsetOutOfWindow
  | .misaligned => .fault .misalignedOffset
  | .reserved => if s.status.busy then .fault .writeWhileBusy else .next s
  | .reg r => if s.status.busy then .fault .writeWhileBusy else .next (s.writeReg r v)

/-- `BufRead(a)` (20_memory.md R82); while BUSY = 1 a free draw (R286). After completion but before a STATUS read has
returned BUSY = 0 the spec leaves the value open (R286, R95); here it is BUF[a], since BUSY = 0 (DESIGN CHOICE, log
entry 15). -/
def bufRead (addr : Nat) (s : State) : Answer :=
  if addr ≥ s.cfg.memSize then .fault .bufAddressOutOfRange
  else if s.status.busy then
    .next (recordRead (.buf addr (Config.busyByte s.drawCount)) { s with drawCount := s.drawCount + 1 })
  else .next (recordRead (.buf addr (s.byteAt addr)) s)

/-- `BufWrite(a, b)` (20_memory.md R82); while BUSY = 1 a fault (R285). -/
def bufWrite (addr : Nat) (b : Byte) (s : State) : Answer :=
  if addr ≥ s.cfg.memSize then .fault .bufAddressOutOfRange
  else if s.status.busy then .fault .writeWhileBusy
  else .next { s with buf := Memory.write s.buf addr b }

/-- One host action. -/
def hostAction (a : HostAction) (s : State) : Answer :=
  match a with
  | .regRead off => regRead off s
  | .regWrite off v => regWrite off v s
  | .bufRead addr => bufRead addr s
  | .bufWrite addr b => bufWrite addr b s

/-- One poll of STATUS, whose value is true at all times (R286). -/
def pollStatus (s : State) : State := recordRead (.reg RegName.status.offset s.status.toWord) s

/-- The next thing the outside does. WAIT polls STATUS and is over once a poll returns BUSY = 0 (30_encoding.md R121). -/
def hostStep (s : State) : Answer :=
  match s.script with
  | [] => .next s
  | .act a :: rest => hostAction a { s with script := rest }
  | .wait :: rest => if s.status.busy then .next (pollStatus s) else .next (pollStatus { s with script := rest })
  | .reset :: rest => .next (resetEvent { s with script := rest })

end Sys2Proof.Machine
end

