-- ==== Sys2Proof/Machine/HostProgram.lean ====
section
/-! DEFINITION. The host-program notation (30_encoding.md R121): its lines and the host actions they stand for. -/

namespace Sys2Proof.Machine

/-- A line of a host program (R121). -/
inductive HostLine where
  /-- `WR reg, v`. -/
  | wr (r : RegName) (v : Word)
  /-- `RD reg`. -/
  | rd (r : RegName)
  /-- `CMD mnemonic`. -/
  | cmd (i : Instr)
  /-- `BUFW a, b0 b1 ... bk`. -/
  | bufw (a : Nat) (bs : List Byte)
  /-- `BUFR a, n`. -/
  | bufr (a n : Nat)
  | wait
  /-- `RUN mnemonic`. -/
  | run (i : Instr)
  /-- `BUFS a, "text"`, the text given by the ASCII codes of its characters (00_scope.md R8; log entry 12). -/
  | bufs (a : Nat) (text : List (BitVec 7))
deriving DecidableEq, Repr

/-- `BufWrite(a, b0); BufWrite(a+1, b1); ...`, in ascending address order (20_memory.md R82). An address past BUF stays past it. -/
def bufWrites (a : Nat) : List Byte → List Input
  | [] => []
  | b :: bs => .act (.bufWrite a b) :: bufWrites (a + 1) bs

/-- `BufRead(a); ...; BufRead(a+n-1)`. -/
def bufReads (a : Nat) : Nat → List Input
  | 0 => []
  | n + 1 => .act (.bufRead a) :: bufReads (a + 1) n

/-- The bytes of a text: the ASCII code of each character, "no terminator" (R121). -/
def asciiBytes (text : List (BitVec 7)) : List Byte := text.map (fun c => c.setWidth 8)

/-- The host actions a line stands for. -/
def HostLine.inputs (l : HostLine) : List Input :=
  match l with
  | .wr r v => [.act (.regWrite r.offset v)]
  | .rd r => [.act (.regRead r.offset)]
  | .cmd i => [.act (.regWrite RegName.cmd.offset (encode i))]
  | .bufw a bs => bufWrites a bs
  | .bufr a n => bufReads a n
  | .wait => [.wait]
  | .run i => [.act (.regWrite RegName.cmd.offset (encode i)), .wait]
  | .bufs a text => bufWrites a (asciiBytes text)

/-- The state in which the host is about to run a program. -/
def State.withProgram (s : State) (p : List HostLine) : State := { s with script := p.flatMap HostLine.inputs }

end Sys2Proof.Machine
end

