-- ==== Sys2Proof/Machine/Step.lean ====
section
/-! DEFINITION. One step of the whole: the engine's or the outside's (10_state.md R30). -/

namespace Sys2Proof.Machine

/-- One step. With no agent able to move the block is idle and all state is kept (60_exceptions.md R265). -/
def step (s : State) : Host.Outcome State Fault Refusal :=
  match s.mover with
  | some .engine => engineStep s.takeTurn
  | some .host => hostStep s.takeTurn
  | none => .next s

/-- The state in which `w` is the pending command and the engine moves next: CMD and STATUS as CMD acceptance leaves
them (30_encoding.md R117), and no turn of the outside before the engine's. -/
def State.withFetchWord (s : State) (nbits w : Nat) : State :=
  { acceptCommand (BitVec.ofNat 32 (w % 2 ^ nbits)) s with turns := [] }

end Sys2Proof.Machine
end

