-- ==== Sys2Proof/Safety.lean ====
section
/-! DEFINITION. What counts as a safe state: the invariants the spec states of every state of the block. -/

namespace Sys2Proof.Machine

/-- "`c = crc32(t ++ d)` and `len(d) <= 2^32 - 1`", the invariant of every chunk the block holds (10_state.md R51). -/
abbrev Chunk.Sound (c : Chunk) : Prop :=
  c.crc = crc32 (c.ctype.bytes ++ c.data) ∧ c.data.length ≤ 2 ^ 32 - 1

/-- The container's chunks, the empty list without a container. -/
def State.chunks (s : State) : List Chunk := s.png.getD []

/-- Every chunk in STAGE or in PNG keeps the invariant of R51. -/
abbrev State.ChunksSound (s : State) : Prop :=
  (∀ c ∈ s.stage, Chunk.Sound c) ∧ ∀ c ∈ s.chunks, Chunk.Sound c

/-- The capacity invariant (10_state.md R52). -/
abbrev State.WithinCapacity (s : State) : Prop :=
  s.chunks.length ≤ s.cfg.maxChunks ∧ dataTotal s.chunks ≤ s.cfg.storeBytes ∧
  ∀ c ∈ s.stage, c.data.length ≤ s.cfg.storeBytes

/-- The legal values of STATUS (10_state.md R34): BUSY = 1 implies DONE = 0 and ERR = 0; ERR = 1 implies DONE = 1; ERRCODE and
ERRSUB are 0 when ERR = 0. -/
abbrev Status.Legal (st : Status) : Prop :=
  (st.busy = true → st.done = false ∧ st.err = false) ∧ (st.err = true → st.done = true) ∧
  (st.err = false → st.errCode = 0 ∧ st.errSub = 0)

/-- The ERRCODE and ERRSUB pairs that the table of 60_exceptions.md R250 lists for an error. -/
def errorPairs : List (Nat × Nat) :=
  [(0x01, 0), (0x01, 1), (0x02, 0), (0x02, 1), (0x02, 2), (0x03, 0), (0x04, 0), (0x04, 1), (0x05, 0), (0x06, 0)] ++
  [(0x08, 0), (0x08, 1), (0x09, 0), (0x09, 1), (0x09, 2), (0x09, 3), (0x09, 4), (0x0A, 0), (0x0B, 0), (0x0C, 0)] ++
  [(0x0D, 0), (0x0D, 1), (0x0E, 0)]

/-- An error in STATUS is one of the table: reserved codes and subcodes are "never raised" (60_exceptions.md R250). -/
abbrev Status.ErrorListed (st : Status) : Prop :=
  st.err = true → (st.errCode.toNat, st.errSub.toNat) ∈ errorPairs

/-- What holds of every state of the block that is reached from reset: the parameters are in their ranges (00_scope.md R6), BUF
is in canonical form, STATUS is legal and LAST_OP is CMD[7:0] (10_state.md R34), and the chunk and capacity invariants
hold (R51, R52). -/
abbrev State.Inv (s : State) : Prop :=
  s.cfg.wf = true ∧ Memory.wf s.cfg.memSize s.buf ∧ s.status.Legal ∧ s.status.ErrorListed ∧
  s.status.lastOp = opcodeOf s.cmd ∧ s.ChunksSound ∧ s.WithinCapacity

/-- The state with STATUS saying that the command of CMD has completed: DONE = 1, ERR = 0 (30_encoding.md R118). The claims
say every other field for themselves. -/
def State.finished (s : State) : State :=
  { s with status :=
    { busy := false, done := true, err := false, errSub := 0, errCode := 0, lastOp := s.cmd.extractLsb' 0 8 } }

/-- The state with STATUS saying that the command of CMD has ended in an error with this ERRCODE and ERRSUB
(60_exceptions.md R254). -/
def State.failedWith (s : State) (code : BitVec 8) (sub : BitVec 4) : State :=
  { s with status :=
    { busy := false, done := true, err := true, errSub := sub, errCode := code, lastOp := s.cmd.extractLsb' 0 8 } }

/-- A range of BUF is legal: `a + n <= MEM_SIZE` (20_memory.md R83). -/
abbrev State.Legal (s : State) (a n : Word) : Prop := a.toNat + n.toNat ≤ s.cfg.memSize

/-- The bytes of a range of BUF, given by two register values. -/
def State.bytesAt (s : State) (a n : Word) : List Byte := s.readBytes a.toNat n.toNat

/-- The state after the host has written SRC_ADDR and SRC_LEN. -/
def State.withSrc (s : State) (a n : Word) : State := { s with srcAddr := a, srcLen := n }

/-- The state after the host has written DST_ADDR and DST_CAP. -/
def State.withDst (s : State) (a n : Word) : State := { s with dstAddr := a, dstCap := n }

/-- What `Output(out)` has done between `s` and `t` (20_memory.md R85): DST_LEN is the number of bytes, they stand at DST_ADDR,
and every byte outside them reads as before. -/
abbrev State.Outputs (s t : State) (out : List Byte) : Prop :=
  t.dstLen.toNat = out.length ∧ t.bytesAt s.dstAddr t.dstLen = out ∧
  ∀ a, a < s.dstAddr.toNat ∨ s.dstAddr.toNat + out.length ≤ a → t.byteAt a = s.byteAt a

/-- An ASCII letter, A to Z or a to z (41_chunk_type.md R160). -/
abbrev Letter (b : Byte) : Prop := (0x41 ≤ b ∧ b ≤ 0x5A) ∨ (0x61 ≤ b ∧ b ≤ 0x7A)

/-- A byte sequence with bit `k` of byte `i` inverted. -/
def flipBit (s : List Byte) (i k : Nat) : List Byte :=
  match s[i]? with
  | some b => s.set i (b ^^^ ((1 : Byte) <<< k))
  | none => s

/-- The ERRCODE and ERRSUB pairs of a failing parse of a stream (43_png.md R201). -/
def parseErrors : List (Nat × Nat) :=
  [(0x01, 1), (0x01, 0), (0x02, 0), (0x02, 1), (0x02, 2), (0x03, 0), (0x0D, 0), (0x0D, 1)]

/-- The ERRCODE and ERRSUB pairs a command can raise: its row of the "Errors" line of its rule (40_crc.md, 41_chunk_type.md,
42_chunk.md, 43_png.md, 44_orchestration.md, 45_system.md). -/
def errorsOf (i : Instr) : List (Nat × Nat) :=
  match i with
  | .nop => []
  | .crcInit => []
  | .crcUpdate => [(0x09, 0)]
  | .crcFinal => []
  | .crc32 => [(0x09, 0)]
  | .crcCheck => [(0x09, 0), (0x03, 0)]
  | .typeLoad => [(0x09, 4)]
  | .typeFromString => [(0x09, 0), (0x04, 0), (0x04, 1)]
  | .typeIsValid => []
  | .typeIsCritical => []
  | .typeIsPublic => []
  | .typeIsPrivate => []
  | .typeIsReservedBitValid => []
  | .typeIsSafeToCopy => []
  | .chunkNew => [(0x09, 0), (0x0D, 1)]
  | .chunkParse => [(0x09, 0), (0x02, 0), (0x02, 1), (0x02, 2), (0x03, 0), (0x0D, 1)]
  | .chunkSerialize => [(0x0C, 0), (0x09, 3), (0x0A, 0)]
  | .chunkData => [(0x0C, 0), (0x09, 3), (0x0A, 0)]
  | .chunkToString => [(0x0C, 0), (0x09, 3), (0x05, 0), (0x0A, 0)]
  | .pngParse => (0x09, 0) :: parseErrors
  | .pngSerialize => [(0x0B, 0), (0x09, 3), (0x0A, 0)]
  | .pngAppend => [(0x0B, 0), (0x0C, 0), (0x0D, 0), (0x0D, 1)]
  | .pngRemove => [(0x0B, 0), (0x06, 0)]
  | .pngFind => [(0x0B, 0)]
  | .pngGet => [(0x0B, 0), (0x0E, 0)]
  | .pngHeader => [(0x09, 3), (0x0A, 0)]
  | .opEncode => [(0x09, 0), (0x09, 1), (0x09, 2), (0x09, 3), (0x04, 0), (0x04, 1), (0x0A, 0)] ++ parseErrors
  | .opDecode => [(0x09, 0), (0x09, 1), (0x09, 3), (0x04, 0), (0x04, 1), (0x05, 0), (0x0A, 0)] ++ parseErrors
  | .opRemove => [(0x09, 0), (0x09, 1), (0x09, 3), (0x04, 0), (0x04, 1), (0x06, 0), (0x0A, 0)] ++ parseErrors

/-- The CRC in the form R140 states its parameters in, not reflected: the register takes one input bit at its high end
and the polynomial is 0x04C11DB7. -/
def crcNormalBit (reg : Word) (bit : Bool) : Word :=
  if reg.getLsbD 31 ^^ bit then (reg <<< 1) ^^^ 0x04C11DB7 else reg <<< 1

/-- One byte, least significant bit first ("input reflected"). -/
def crcNormalByte (reg : Word) (b : Byte) : Word :=
  [0, 1, 2, 3, 4, 5, 6, 7].foldl (fun r k => crcNormalBit r (b.getLsbD k)) reg

/-- Initial register 0xFFFFFFFF, output reflected, final XOR 0xFFFFFFFF (40_crc.md R140). -/
def crcNormal (s : List Byte) : Word := (s.foldl crcNormalByte 0xFFFFFFFF).reverse ^^^ 0xFFFFFFFF

/-- One of the well-formed UTF-8 sequences of the table of 42_chunk.md R187, written out. -/
inductive Utf8Seq : List Byte → Prop
  | one (a : Byte) : a ≤ 0x7F → Utf8Seq [a]
  | two (a b : Byte) : 0xC2 ≤ a → a ≤ 0xDF → 0x80 ≤ b → b ≤ 0xBF → Utf8Seq [a, b]
  | threeE0 (b c : Byte) : 0xA0 ≤ b → b ≤ 0xBF → 0x80 ≤ c → c ≤ 0xBF → Utf8Seq [0xE0, b, c]
  | threeE1 (a b c : Byte) : 0xE1 ≤ a → a ≤ 0xEC → 0x80 ≤ b → b ≤ 0xBF → 0x80 ≤ c → c ≤ 0xBF → Utf8Seq [a, b, c]
  | threeED (b c : Byte) : 0x80 ≤ b → b ≤ 0x9F → 0x80 ≤ c → c ≤ 0xBF → Utf8Seq [0xED, b, c]
  | threeEE (a b c : Byte) : 0xEE ≤ a → a ≤ 0xEF → 0x80 ≤ b → b ≤ 0xBF → 0x80 ≤ c → c ≤ 0xBF → Utf8Seq [a, b, c]
  | fourF0 (b c d : Byte) : 0x90 ≤ b → b ≤ 0xBF → 0x80 ≤ c → c ≤ 0xBF → 0x80 ≤ d → d ≤ 0xBF → Utf8Seq [0xF0, b, c, d]
  | fourF1 (a b c d : Byte) : 0xF1 ≤ a → a ≤ 0xF3 → 0x80 ≤ b → b ≤ 0xBF → 0x80 ≤ c → c ≤ 0xBF → 0x80 ≤ d → d ≤ 0xBF →
      Utf8Seq [a, b, c, d]
  | fourF4 (b c d : Byte) : 0x80 ≤ b → b ≤ 0x8F → 0x80 ≤ c → c ≤ 0xBF → 0x80 ≤ d → d ≤ 0xBF → Utf8Seq [0xF4, b, c, d]

/-- CRC_UPDATE over one range after the other, the host writing SRC before each, none of them failing: a streamed CRC
(40_crc.md R148). -/
def CrcUpdates (s : State) : List (Word × Word) → State → Prop
  | [], t => s = t
  | r :: rs, t => ∃ u, exec .crcUpdate (s.withSrc r.1 r.2) = .next u ∧ u.status.err = false ∧ CrcUpdates u rs t

end Sys2Proof.Machine
end

