-- ==== Sys2Proof/Certificates/Slice0/Obligations.lean ====
section
/-! DEFINITION. The statements about the block, for the provers. `State.finished`, `State.failedWith`, `State.Legal`, `State.Outputs` and the
other words of the claims are in Sys2Proof/Safety.lean. -/

open Sys2Proof Sys2Proof.Machine

/-! ### Encoding and the engine's step -/

/-- 30_encoding.md R113: the words of the opcode table, written out, decode to their commands. -/
def Obligations.OpcodeTableWordsDecode : Prop :=
  decode 0x00000000 = .ok .nop ∧ decode 0x00000001 = .ok .crcInit ∧ decode 0x00000002 = .ok .crcUpdate ∧
  decode 0x00000003 = .ok .crcFinal ∧ decode 0x00000004 = .ok .crc32 ∧ decode 0x00000005 = .ok .crcCheck ∧
  decode 0x00000010 = .ok .typeLoad ∧ decode 0x00000011 = .ok .typeFromString ∧
  decode 0x00000012 = .ok .typeIsValid ∧ decode 0x00000013 = .ok .typeIsCritical ∧
  decode 0x00000014 = .ok .typeIsPublic ∧ decode 0x00000015 = .ok .typeIsPrivate ∧
  decode 0x00000016 = .ok .typeIsReservedBitValid ∧ decode 0x00000017 = .ok .typeIsSafeToCopy ∧
  decode 0x00000020 = .ok .chunkNew ∧ decode 0x00000021 = .ok .chunkParse ∧
  decode 0x00000022 = .ok .chunkSerialize ∧ decode 0x00000023 = .ok .chunkData ∧
  decode 0x00000024 = .ok .chunkToString ∧ decode 0x00000030 = .ok .pngParse ∧
  decode 0x00000031 = .ok .pngSerialize ∧ decode 0x00000032 = .ok .pngAppend ∧
  decode 0x00000033 = .ok .pngRemove ∧ decode 0x00000034 = .ok .pngFind ∧ decode 0x00000035 = .ok .pngGet ∧
  decode 0x00000036 = .ok .pngHeader ∧ decode 0x00000040 = .ok .opEncode ∧ decode 0x00000041 = .ok .opDecode ∧
  decode 0x00000042 = .ok .opRemove

/-- 30_encoding.md R116: a word is a command iff it is that command's encoding; any other word is illegal, with subcode 1 if
a reserved bit is set and subcode 0 if not. -/
def Obligations.DecodeIsTheInverseOfEncode : Prop :=
  (∀ (w : Word) (i : Instr), decode w = .ok i ↔ w = encode i) ∧
  (∀ w : Word, w >>> 8 ≠ 0 → decode w = .error .reservedBits) ∧
  (∀ w : Word, w >>> 8 = 0 → (∀ i, w ≠ encode i) → decode w = .error .unknownOpcode) ∧
  (CmdError.illegalCommand .reservedBits).sub = 1 ∧ (CmdError.illegalCommand .unknownOpcode).sub = 0 ∧
  ∀ r, (CmdError.illegalCommand r).code = 0x08

/-- 30_encoding.md R118: with a command pending and the engine's turn, a step is the meaning of the decoded command, at the
state with the turn used up, and for any pending word it is `EngineStep`. Who moves when both can is the model's field `turns` (log entry 5). -/
def Obligations.StepRunsThePendingCommand : Prop :=
  (∀ (s : State) (i : Instr), s.status.busy = true → decode s.cmd = .ok i →
    (s.script = [] → step s = exec i s) ∧
    (s.script ≠ [] → s.turns = [] → step s = exec i s) ∧
    (∀ ts, s.script ≠ [] → s.turns = .engine :: ts → step s = exec i { s with turns := ts })) ∧
  ∀ s : State, s.status.busy = true →
    (s.script = [] ∨ s.turns = [] → step s = engineStep s) ∧
    (∀ ts, s.script ≠ [] → s.turns = .engine :: ts → step s = engineStep { s with turns := ts })

/-- 30_encoding.md R114: the engine's step on a word with a bit of 31:8 set, or with a reserved OPCODE, completes with ILLEGAL_COMMAND and
changes nothing but STATUS. -/
def Obligations.ReservedWordsCompleteAsIllegal : Prop :=
  ∀ s : State,
    (s.cmd >>> 8 ≠ 0 → engineStep s = .next (s.failedWith 0x08 1)) ∧
    (∀ op : Nat, s.cmd.toNat = op → op ≤ 0xFF →
      (0x06 ≤ op ∧ op ≤ 0x0F) ∨ (0x18 ≤ op ∧ op ≤ 0x1F) ∨ (0x25 ≤ op ∧ op ≤ 0x2F) ∨ (0x37 ≤ op ∧ op ≤ 0x3F) ∨ 0x43 ≤ op →
      engineStep s = .next (s.failedWith 0x08 0))

/-- The model's placement of a word (log entry 4): the step after it runs exactly that word's command, which is pending
as CMD acceptance leaves it. -/
def Obligations.PlacedWordRunsNext : Prop :=
  ∀ (s : State) (i : Instr),
    step (s.withFetchWord 32 (encode i).toNat) = exec i (s.withFetchWord 32 (encode i).toNat) ∧
    (s.withFetchWord 32 (encode i).toNat).cmd = encode i ∧
    (s.withFetchWord 32 (encode i).toNat).status.busy = true ∧
    decodeTableWord 32 (encode i).toNat = some i

/-- 30_encoding.md R117: what a host write to CMD with BUSY = 0 does. -/
def Obligations.CommandAcceptanceStartsACommand : Prop :=
  ∀ (s : State) (v : Word), s.status.busy = false →
    hostAction (.regWrite 0x00 v) s = .next { s with
      cmd := v
      status :=
        { busy := true, done := false, err := false, errSub := 0, errCode := 0, lastOp := v.extractLsb' 0 8 } }

/-- 60_exceptions.md R254: whatever the command, an error leaves the state as it was but for STATUS. -/
def Obligations.ErrorChangesNothingButStatus : Prop :=
  ∀ (i : Instr) (s t : State), exec i s = .next t → t.status.err = true →
    t = s.failedWith t.status.errCode t.status.errSub

/-- 60_exceptions.md R250, and the "Errors" line of every command's rule: a command ends in a state that is no longer busy, and
an error it reports is one of its own. -/
def Obligations.EveryErrorIsOneOfTheCommands : Prop :=
  ∀ (i : Instr) (s : State), ∃ t, exec i s = .next t ∧ t.status.busy = false ∧ t.status.done = true ∧
    t.status.lastOp = s.cmd.extractLsb' 0 8 ∧
    (t.status.err = false → t.status.errCode = 0 ∧ t.status.errSub = 0) ∧
    (t.status.err = true → (t.status.errCode.toNat, t.status.errSub.toNat) ∈ errorsOf i)

/-- 10_state.md R33 to R47 and the "writes on success" column of 30_encoding.md R113: what no command writes, and which
commands alone write a register, STAGE or PNG. -/
def Obligations.CommandsWriteOnlyWhatTheTableLists : Prop :=
  ∀ (i : Instr) (s t : State), exec i s = .next t →
    (t.cfg = s.cfg ∧ t.cmd = s.cmd ∧ t.srcAddr = s.srcAddr ∧ t.srcLen = s.srcLen ∧ t.argAddr = s.argAddr ∧
      t.argLen = s.argLen ∧ t.msgAddr = s.msgAddr ∧ t.msgLen = s.msgLen ∧ t.dstAddr = s.dstAddr ∧
      t.dstCap = s.dstCap ∧ t.crcExp = s.crcExp ∧ t.resetCount = s.resetCount ∧ t.drawCount = s.drawCount ∧
      t.script = s.script ∧ t.turns = s.turns ∧ t.reads = s.reads) ∧
    (t.crcAcc ≠ s.crcAcc → i ∈ [.crcInit, .crcUpdate]) ∧
    (t.result ≠ s.result → i ∈ [.crcFinal, .crc32, .crcCheck, .typeIsValid, .typeIsCritical, .typeIsPublic, .typeIsPrivate,
      .typeIsReservedBitValid, .typeIsSafeToCopy, .chunkParse, .pngFind, .opDecode]) ∧
    (t.typeReg ≠ s.typeReg → i ∈ [.typeLoad, .typeFromString, .opEncode, .opDecode, .opRemove]) ∧
    (t.index ≠ s.index → i ∈ [.pngFind, .opDecode]) ∧
    (t.stage ≠ s.stage → i ∈ [.chunkNew, .chunkParse, .pngAppend, .pngRemove, .pngFind, .pngGet, .opEncode, .opDecode,
      .opRemove]) ∧
    (t.png ≠ s.png → i ∈ [.pngParse, .pngAppend, .pngRemove, .opEncode, .opDecode, .opRemove]) ∧
    (t.dstLen ≠ s.dstLen ∨ t.buf ≠ s.buf → i ∈ [.chunkSerialize, .chunkData, .chunkToString, .pngSerialize, .pngHeader, .opEncode,
      .opDecode, .opRemove])

/-- 10_state.md R38, 20_memory.md R85: whatever the command, a BUF byte that is outside DST_ADDR .. DST_ADDR + DST_LEN of the state
after it reads as before; after an error, and after a command that stores nothing, every byte does. -/
def Obligations.StoresStayInsideTheOutput : Prop :=
  ∀ (i : Instr) (s t : State) (a : Nat), exec i s = .next t →
    (a < s.dstAddr.toNat ∨ s.dstAddr.toNat + t.dstLen.toNat ≤ a → t.byteAt a = s.byteAt a) ∧
    (s.dstAddr.toNat + s.dstCap.toNat ≤ a → t.byteAt a = s.byteAt a) ∧
    (t.status.err = true → t.byteAt a = s.byteAt a) ∧
    (i ∉ [.chunkSerialize, .chunkData, .chunkToString, .pngSerialize, .pngHeader, .opEncode, .opDecode, .opRemove] →
      t.byteAt a = s.byteAt a)

/-! ### The host and the register window -/

/-- 10_state.md R30, 30_encoding.md R121, 60_exceptions.md R265, 70_reset_and_hazards.md R280: what a step of the outside is. The script and the turns
are the model's fields (log entries 4 and 5). -/
def Obligations.StepRunsTheOutside : Prop :=
  (∀ (s : State) (a : HostAction) (rest : List Input), s.script = .act a :: rest → s.status.busy = false →
    step s = hostAction a { s with script := rest }) ∧
  (∀ (s : State) (a : HostAction) (rest : List Input) (ts : List Agent), s.script = .act a :: rest → s.status.busy = true →
    s.turns = .host :: ts → step s = hostAction a { s with script := rest, turns := ts }) ∧
  (∀ (s : State) (rest : List Input), s.script = .wait :: rest → s.status.busy = false →
    step s = .next { s with script := rest, reads := .reg 0x04 s.status.toWord :: s.reads }) ∧
  (∀ (s : State) (rest : List Input) (ts : List Agent), s.script = .wait :: rest → s.status.busy = true →
    s.turns = .host :: ts → step s = .next { s with turns := ts, reads := .reg 0x04 s.status.toWord :: s.reads }) ∧
  (∀ (s : State) (rest : List Input), s.script = .reset :: rest → s.status.busy = false →
    step s = .next (resetEvent { s with script := rest })) ∧
  (∀ (s : State) (rest : List Input) (ts : List Agent), s.script = .reset :: rest → s.status.busy = true →
    s.turns = .host :: ts → step s = .next (resetEvent { s with script := rest, turns := ts })) ∧
  (∀ s : State, s.script = [] → s.status.busy = false → step s = .next s)

/-- 10_state.md R34: the fields of the STATUS word. -/
def Obligations.StatusWordHasItsFields : Prop :=
  ∀ st : Status, st.toWord.getLsbD 0 = st.busy ∧ st.toWord.getLsbD 1 = st.done ∧ st.toWord.getLsbD 2 = st.err ∧
    st.toWord.getLsbD 3 = false ∧ st.toWord.extractLsb' 4 4 = st.errSub ∧ st.toWord.extractLsb' 8 8 = st.errCode ∧
    st.toWord.extractLsb' 16 8 = st.lastOp ∧ st.toWord.extractLsb' 24 8 = 0

/-- 10_state.md R32: the register map, as a host reads it while BUSY = 0. A read leaves everything but the model's record
of readings as it was (20_memory.md R96). That this holds too before a STATUS read has returned BUSY = 0 is the model's choice, log
entry 15. -/
def Obligations.RegisterMapAsReadWhenIdle : Prop :=
  ∀ (s : State) (p : Nat × Word), s.status.busy = false →
    p ∈ [(0x00, s.cmd), (0x04, s.status.toWord), (0x08, s.srcAddr), (0x0C, s.srcLen), (0x10, s.argAddr),
      (0x14, s.argLen), (0x18, s.msgAddr), (0x1C, s.msgLen), (0x20, s.dstAddr), (0x24, s.dstCap), (0x28, s.dstLen),
      (0x2C, s.result), (0x30, s.typeReg), (0x34, s.crcAcc), (0x38, s.crcExp), (0x3C, s.index),
      (0x40, s.chunkCount), (0x44, s.stageLen), (0x48, s.stageType), (0x4C, s.stageCrc), (0x50, s.flags),
      (0x54, 0x89504E47), (0x58, 0x0D0A1A0A), (0x5C, BitVec.ofNat 32 (s.cfg.memSize - 1)),
      (0x60, BitVec.ofNat 32 s.cfg.maxChunks), (0x64, BitVec.ofNat 32 s.cfg.storeBytes)] →
    hostAction (.regRead p.1) s = .next { s with reads := .reg p.1 p.2 :: s.reads }

/-- 10_state.md R45, R47, R48: the views of STAGE and PNG. -/
def Obligations.ViewsOfStageAndContainer : Prop :=
  ∀ s : State,
    (s.stage = none → s.stageLen = 0 ∧ s.stageType = 0 ∧ s.stageCrc = 0 ∧ s.flags.getLsbD 1 = false) ∧
    (∀ c, s.stage = some c → s.stageLen = BitVec.ofNat 32 c.data.length ∧ u32be s.stageType = c.ctype.bytes ∧
      s.stageCrc = c.crc ∧ s.flags.getLsbD 1 = true) ∧
    (s.png = none → s.chunkCount = 0 ∧ s.flags.getLsbD 0 = false) ∧
    (∀ cs, s.png = some cs → s.chunkCount = BitVec.ofNat 32 cs.length ∧ s.flags.getLsbD 0 = true) ∧
    s.flags >>> 2 = 0

/-- 10_state.md R32, R53: a host write while BUSY = 0 sets a register of access RW; one to a register of access R or C, or to a
reserved offset, changes nothing; a reserved offset reads 0. That it reads so too before a STATUS read has returned BUSY = 0 is
the model's choice, log entry 15. -/
def Obligations.RegisterWritesWhenIdle : Prop :=
  ∀ (s : State) (v : Word), s.status.busy = false →
    (∀ p ∈ [((0x08 : Nat), { s with srcAddr := v }), (0x0C, { s with srcLen := v }), (0x10, { s with argAddr := v }),
        (0x14, { s with argLen := v }), (0x18, { s with msgAddr := v }), (0x1C, { s with msgLen := v }),
        (0x20, { s with dstAddr := v }), (0x24, { s with dstCap := v }), (0x30, { s with typeReg := v }),
        (0x38, { s with crcExp := v }), (0x3C, { s with index := v })],
      hostAction (.regWrite p.1 v) s = .next p.2) ∧
    (∀ off ∈ [(0x04 : Nat), 0x28, 0x2C, 0x34, 0x40, 0x44, 0x48, 0x4C, 0x50, 0x54, 0x58, 0x5C, 0x60, 0x64],
      hostAction (.regWrite off v) s = .next s) ∧
    (∀ off : Nat, 0x68 ≤ off → off ≤ 0xFC → off % 4 = 0 →
      hostAction (.regWrite off v) s = .next s ∧
      hostAction (.regRead off) s = .next { s with reads := .reg off 0 :: s.reads })

/-- 20_memory.md R82: the host's byte accesses of BUF while BUSY = 0. That a read returns BUF[a] too before a STATUS read has
returned BUSY = 0 is the model's choice, log entry 15. -/
def Obligations.BufAccessesWhenIdle : Prop :=
  ∀ (s : State) (a : Nat), s.status.busy = false → a < s.cfg.memSize →
    hostAction (.bufRead a) s = .next { s with reads := .buf a (s.byteAt a) :: s.reads } ∧
    ∀ b : Byte, ∃ t, hostAction (.bufWrite a b) s = .next t ∧ t = { s with buf := t.buf } ∧
      t.byteAt a = b ∧ ∀ x, x ≠ a → t.byteAt x = s.byteAt x

/-- 70_reset_and_hazards.md R285, R289: the host faults. An access at a misaligned offset, at 0x100 or above, or of a BUF byte at
MEM_SIZE or above, busy or not; and any host write while BUSY = 1. That the last takes in a reserved offset, where R53 says that a write is
ignored, is the model's choice of log entry 9. -/
def Obligations.HostProtocolViolationsFault : Prop :=
  ∀ (s : State) (off a : Nat) (v : Word) (b : Byte),
    (0x100 ≤ off ∨ off % 4 ≠ 0 → ∃ f g, hostAction (.regRead off) s = .fault f ∧ hostAction (.regWrite off v) s = .fault g) ∧
    (s.cfg.memSize ≤ a → ∃ f g, hostAction (.bufRead a) s = .fault f ∧ hostAction (.bufWrite a b) s = .fault g) ∧
    (s.status.busy = true → (∃ f, hostAction (.regWrite off v) s = .fault f) ∧ ∃ f, hostAction (.bufWrite a b) s = .fault f)

/-- 70_reset_and_hazards.md R286: while BUSY = 1 a read of STATUS or of a constant returns its value, a read of any other
register or of a BUF byte a free draw, and the next read draws anew. That a reserved offset is read as a draw then, and not as 0, is the
model's choice of log entry 7. -/
def Obligations.ReadWhileBusy : Prop :=
  ∀ s : State, s.status.busy = true →
    (∀ p ∈ [((0x04 : Nat), s.status.toWord), (0x54, 0x89504E47), (0x58, 0x0D0A1A0A),
        (0x5C, BitVec.ofNat 32 (s.cfg.memSize - 1)), (0x60, BitVec.ofNat 32 s.cfg.maxChunks),
        (0x64, BitVec.ofNat 32 s.cfg.storeBytes)],
      hostAction (.regRead p.1) s = .next { s with reads := .reg p.1 p.2 :: s.reads }) ∧
    (∀ off ∈ [(0x00 : Nat), 0x08, 0x0C, 0x10, 0x14, 0x18, 0x1C, 0x20, 0x24, 0x28, 0x2C, 0x30, 0x34, 0x38, 0x3C, 0x40, 0x44,
        0x48, 0x4C, 0x50],
      hostAction (.regRead off) s = .next { s with
        drawCount := s.drawCount + 1, reads := .reg off (Config.busyWord s.drawCount) :: s.reads }) ∧
    (∀ off : Nat, 0x68 ≤ off → off ≤ 0xFC → off % 4 = 0 → hostAction (.regRead off) s = .next { s with
      drawCount := s.drawCount + 1, reads := .reg off (Config.busyWord s.drawCount) :: s.reads }) ∧
    (∀ a : Nat, a < s.cfg.memSize → hostAction (.bufRead a) s = .next { s with
      drawCount := s.drawCount + 1, reads := .buf a (Config.busyByte s.drawCount) :: s.reads })

/-! ### Reset, invariants, progress -/

/-- 70_reset_and_hazards.md R280: the reset event puts every piece of the block's state into its reset condition, whatever it was and
whether or not a command was pending. A BUF byte is a free value, a new one after each reset (R281, log entry 2). -/
def Obligations.ResetEventSetsEveryPieceOfState : Prop :=
  (∀ (s : State), ∃ t, t = resetEvent s ∧ t.cmd = 0 ∧ t.srcAddr = 0 ∧ t.srcLen = 0 ∧ t.argAddr = 0 ∧ t.argLen = 0 ∧ t.msgAddr = 0 ∧
      t.msgLen = 0 ∧ t.dstAddr = 0 ∧ t.dstCap = 0 ∧ t.dstLen = 0 ∧ t.result = 0 ∧ t.typeReg = 0 ∧ t.crcExp = 0 ∧
      t.index = 0 ∧ t.crcAcc = 0xFFFFFFFF ∧ t.status.toWord = 0 ∧ t.stage = none ∧ t.png = none ∧ t.cfg = s.cfg ∧
      ∀ a, t.byteAt a = Config.bufDraw (s.resetCount + 1) a) ∧
  ∀ (c : Config) (a : Nat), (State.resetWith c).byteAt a = Config.bufDraw (State.resetWith c).resetCount a

/-- 10_state.md R32 ("reset" column), for every configuration: the registers as a host reads them right after reset.
`State.reset` is this state under the configuration of log entry 1. -/
def Obligations.RegistersAfterReset : Prop :=
  State.reset = State.resetWith Config.cfgA ∧
  ∀ (c : Config) (off : Nat), off < 0x68 → off % 4 = 0 →
    off ∉ [(0x34 : Nat), 0x54, 0x58, 0x5C, 0x60, 0x64] →
    hostAction (.regRead off) (State.resetWith c) = .next { State.resetWith c with reads := [.reg off 0] } ∧
    hostAction (.regRead 0x34) (State.resetWith c) =
      .next { State.resetWith c with reads := [.reg 0x34 0xFFFFFFFF] }

/-- The invariant holds right after reset, under every configuration within the ranges of 00_scope.md R6. -/
def Obligations.InvariantHoldsAtReset : Prop :=
  State.reset.Inv ∧ ∀ c : Config, c.wf = true → (State.resetWith c).Inv

/-- 10_state.md R34, R51, R52, 60_exceptions.md R250 and the canonical form of BUF: every step, of the engine or of the outside, keeps the
invariant. -/
def Obligations.EveryStepKeepsTheInvariant : Prop :=
  ∀ s t : State, s.Inv → step s = .next t → t.Inv

/-- 70_reset_and_hazards.md R290: a pending command completes. As long as the outside only reads, where it may read (a WAIT is reads),
it moves at most as often as its turns allow (a finite list, the model's choice of log entry 5), which changes only what is outside
the block, and then the engine runs the command. -/
def Obligations.PendingCommandCompletes : Prop :=
  ∀ s : State, s.status.busy = true →
    (∀ x ∈ s.script, x = .wait ∨ (∃ off : Nat, x = .act (.regRead off) ∧ off < 0x100 ∧ off % 4 = 0) ∨
      ∃ a : Nat, x = .act (.bufRead a) ∧ a < s.cfg.memSize) →
    ∃ (k n : Nat) (sc : List Input) (ts : List Agent) (rd : List Reading), k ≤ s.turns.length ∧
      Host.Core.run core k s = .next { s with drawCount := n, script := sc, turns := ts, reads := rd } ∧
      (∃ t, step { s with drawCount := n, script := sc, turns := ts, reads := rd } = .next t ∧ t.status.busy = false ∧
        t.status.done = true) ∧
      ∀ i, decode s.cmd = .ok i → ∃ ts', step { s with drawCount := n, script := sc, turns := ts, reads := rd } =
        exec i { s with drawCount := n, script := sc, turns := ts', reads := rd }

/-- 10_state.md R55: what a command does to the block depends on the block's state alone, not on what is outside it (the fields the
model adds of its own, log entries 3 to 6), and it leaves that as it was. -/
def Obligations.MeaningsIgnoreWhatIsOutsideTheBlock : Prop :=
  ∀ (i : Instr) (s t : State) (n : Nat) (sc : List Input) (ts : List Agent) (rd : List Reading), exec i s = .next t →
    exec i { s with drawCount := n, script := sc, turns := ts, reads := rd } =
      .next { t with drawCount := n, script := sc, turns := ts, reads := rd }

/-! ### System and CRC unit -/

/-- 45_system.md R245: NOP changes nothing but STATUS; it raises nothing. -/
def Obligations.NopChangesOnlyStatus : Prop :=
  encode .nop = 0x00000000 ∧ decode 0x00000100 = .error .reservedBits ∧ ∀ s : State, exec .nop s = .next s.finished

/-- 40_crc.md R144. -/
def Obligations.CrcUpdateFoldsTheSource : Prop :=
  encode .crcUpdate = 0x00000002 ∧ ∀ s : State,
    (s.Legal s.srcAddr s.srcLen → exec .crcUpdate s =
      .next { s with crcAcc := crcFold s.crcAcc (s.bytesAt s.srcAddr s.srcLen) }.finished) ∧
    (¬ s.Legal s.srcAddr s.srcLen → exec .crcUpdate s = .next (s.failedWith 0x09 0))

/-- 40_crc.md R143, R145: CRC_INIT sets the running register; CRC_FINAL reads it and leaves it. -/
def Obligations.CrcInitAndFinal : Prop :=
  encode .crcInit = 0x00000001 ∧ encode .crcFinal = 0x00000003 ∧ ∀ s : State,
    exec .crcInit s = .next { s with crcAcc := 0xFFFFFFFF }.finished ∧
    exec .crcFinal s = .next { s with result := s.crcAcc ^^^ 0xFFFFFFFF }.finished

/-- 40_crc.md R146. -/
def Obligations.Crc32OfTheSource : Prop :=
  encode .crc32 = 0x00000004 ∧ ∀ s : State,
    (s.Legal s.srcAddr s.srcLen → exec .crc32 s =
      .next { s with result := crc32 (s.bytesAt s.srcAddr s.srcLen) }.finished) ∧
    (¬ s.Legal s.srcAddr s.srcLen → exec .crc32 s = .next (s.failedWith 0x09 0))

/-- 40_crc.md R147. -/
def Obligations.CrcCheckComparesAllBits : Prop :=
  encode .crcCheck = 0x00000005 ∧ ∀ s : State,
    (s.Legal s.srcAddr s.srcLen → crc32 (s.bytesAt s.srcAddr s.srcLen) = s.crcExp →
      exec .crcCheck s = .next { s with result := crc32 (s.bytesAt s.srcAddr s.srcLen) }.finished) ∧
    (s.Legal s.srcAddr s.srcLen → crc32 (s.bytesAt s.srcAddr s.srcLen) ≠ s.crcExp →
      exec .crcCheck s = .next (s.failedWith 0x03 0)) ∧
    (¬ s.Legal s.srcAddr s.srcLen → exec .crcCheck s = .next (s.failedWith 0x09 0))

/-- 40_crc.md R140: the reflected computation the block uses is the one its parameters name (polynomial 0x04C11DB7 in normal form,
input and output reflected, initial register and final XOR 0xFFFFFFFF; 0xEDB88320 in reflected form), with its check value and its residue, which is left in
the register after a message followed by its CRC, least significant byte first. -/
def Obligations.CrcHasTheParametersOfIsoHdlc : Prop :=
  (∀ s : List Byte, crc32 s = crcNormal s) ∧ crcPoly = 0xEDB88320 ∧ (0x04C11DB7 : Word).reverse = 0xEDB88320 ∧
  crc32 [0x31, 0x32, 0x33, 0x34, 0x35, 0x36, 0x37, 0x38, 0x39] = 0xCBF43926 ∧
  ∀ s : List Byte, crcFold 0xFFFFFFFF (s ++ (u32be (crc32 s)).reverse) = 0xDEBB20E3

/-- 40_crc.md R148: for any legal ranges, CRC_INIT, a CRC_UPDATE for each of them and CRC_FINAL all succeed and leave in RESULT the
CRC of their bytes in order, the value CRC32 over those bytes gives. -/
def Obligations.StreamedCrcIsTheCrcOfTheWhole : Prop :=
  ∀ (s : State) (rs : List (Word × Word)), (∀ r ∈ rs, s.Legal r.1 r.2) →
    ∃ s1 s2 t, exec .crcInit s = .next s1 ∧ CrcUpdates s1 rs s2 ∧ exec .crcFinal s2 = .next t ∧
      t.status.err = false ∧ t.result = crc32 (rs.flatMap (fun r => s.bytesAt r.1 r.2)) ∧
      ∀ u : State, u.Legal u.srcAddr u.srcLen → u.bytesAt u.srcAddr u.srcLen = rs.flatMap (fun r => s.bytesAt r.1 r.2) →
        ∃ v, exec .crc32 u = .next v ∧ v.result = t.result

/-- 40_crc.md R149: two sequences of the same length that differ in exactly one bit have different CRCs. -/
def Obligations.CrcDetectsEverySingleBitFlip : Prop :=
  ∀ (s : List Byte) (i k : Nat), i < s.length → k < 8 → crc32 (flipBit s i k) ≠ crc32 s

/-! ### ChunkType -/

/-- 41_chunk_type.md R161: any 4 bytes, SRC_LEN is not read. -/
def Obligations.TypeLoadTakesAnyFourBytes : Prop :=
  encode .typeLoad = 0x00000010 ∧ ∀ s : State,
    (s.srcAddr.toNat + 4 ≤ s.cfg.memSize → exec .typeLoad s = .next { s with
      typeReg := BitVec.ofNat 32 ((s.byteAt s.srcAddr.toNat).toNat * 2 ^ 24 + (s.byteAt (s.srcAddr.toNat + 1)).toNat * 2 ^ 16 +
        (s.byteAt (s.srcAddr.toNat + 2)).toNat * 2 ^ 8 + (s.byteAt (s.srcAddr.toNat + 3)).toNat) }.finished) ∧
    (s.cfg.memSize < s.srcAddr.toNat + 4 → exec .typeLoad s = .next (s.failedWith 0x09 4))

/-- 41_chunk_type.md R162, R163: 4 letters in SRC; the length is tested first. -/
def Obligations.TypeFromStringChecksLengthThenLetters : Prop :=
  encode .typeFromString = 0x00000011 ∧ ∀ s : State,
    (¬ s.Legal s.srcAddr s.srcLen → exec .typeFromString s = .next (s.failedWith 0x09 0)) ∧
    (s.Legal s.srcAddr s.srcLen → s.srcLen ≠ 4 → exec .typeFromString s = .next (s.failedWith 0x04 0)) ∧
    (s.Legal s.srcAddr s.srcLen → s.srcLen = 4 → (∃ b ∈ s.bytesAt s.srcAddr s.srcLen, ¬ Letter b) →
      exec .typeFromString s = .next (s.failedWith 0x04 1)) ∧
    (s.Legal s.srcAddr s.srcLen → s.srcLen = 4 → (∀ b ∈ s.bytesAt s.srcAddr s.srcLen, Letter b) →
      ∃ t, exec .typeFromString s = .next t ∧ t = { s with typeReg := t.typeReg }.finished ∧
        u32be t.typeReg = s.bytesAt s.srcAddr s.srcLen)

/-- 41_chunk_type.md R164 to R169, by the bits of TYPE: bit 5 of byte 0, 1, 2, 3 is bit 29, 21, 13, 5. -/
def Obligations.TypePredicatesReadTheirBits : Prop :=
  (encode .typeIsValid = 0x00000012 ∧ encode .typeIsCritical = 0x00000013 ∧ encode .typeIsPublic = 0x00000014 ∧
    encode .typeIsPrivate = 0x00000015 ∧ encode .typeIsReservedBitValid = 0x00000016 ∧
    encode .typeIsSafeToCopy = 0x00000017) ∧
  ∀ s : State,
    ((∀ b ∈ u32be s.typeReg, Letter b) ∧ s.typeReg.getLsbD 13 = false →
      exec .typeIsValid s = .next { s with result := 1 }.finished) ∧
    (¬ ((∀ b ∈ u32be s.typeReg, Letter b) ∧ s.typeReg.getLsbD 13 = false) →
      exec .typeIsValid s = .next { s with result := 0 }.finished) ∧
    exec .typeIsCritical s = .next { s with result := if s.typeReg.getLsbD 29 then 0 else 1 }.finished ∧
    exec .typeIsPublic s = .next { s with result := if s.typeReg.getLsbD 21 then 0 else 1 }.finished ∧
    exec .typeIsPrivate s = .next { s with result := if s.typeReg.getLsbD 21 then 1 else 0 }.finished ∧
    exec .typeIsReservedBitValid s = .next { s with result := if s.typeReg.getLsbD 13 then 0 else 1 }.finished ∧
    exec .typeIsSafeToCopy s = .next { s with result := if s.typeReg.getLsbD 5 then 1 else 0 }.finished

/-! ### Chunk -/

/-- 42_chunk.md R181: ParseChunk of every byte sequence, by the length of the sequence and of its fields, with the ERRCODE and ERRSUB of
each of its errors (60_exceptions.md R250). -/
def Obligations.ParseChunkIsStrict : Prop :=
  (∀ r : List Byte, r.length < 8 → parseChunk r = .error (.truncated .header)) ∧
  (∀ (l : Word) (t : ChunkType) (body : List Byte), body.length < l.toNat →
    parseChunk (u32be l ++ t.bytes ++ body) = .error (.truncated .data)) ∧
  (∀ (l : Word) (t : ChunkType) (d tail : List Byte), d.length = l.toNat → tail.length < 4 →
    parseChunk (u32be l ++ t.bytes ++ d ++ tail) = .error (.truncated .crc)) ∧
  (∀ (l : Word) (t : ChunkType) (d rest : List Byte) (c : Word), d.length = l.toNat →
    (c ≠ crc32 (t.bytes ++ d) → parseChunk (u32be l ++ t.bytes ++ d ++ u32be c ++ rest) = .error .crcMismatch) ∧
    (c = crc32 (t.bytes ++ d) → parseChunk (u32be l ++ t.bytes ++ d ++ u32be c ++ rest) =
      .ok ({ ctype := t, data := d, crc := c }, 12 + l.toNat))) ∧
  (∀ p, (CmdError.truncated p).code = 0x02) ∧ (CmdError.truncated .header).sub = 0 ∧ (CmdError.truncated .data).sub = 1 ∧
  (CmdError.truncated .crc).sub = 2 ∧ CmdError.crcMismatch.code = 0x03 ∧ CmdError.crcMismatch.sub = 0

/-- 42_chunk.md R187: valid UTF-8 is a concatenation of zero or more of the table's sequences. -/
def Obligations.Utf8ValidIsConcatenationOfSequences : Prop :=
  ∀ s : List Byte, utf8Valid s = true ↔ ∃ qs : List (List Byte), (∀ q ∈ qs, Utf8Seq q) ∧ s = qs.flatten

/-- 42_chunk.md R182, R180. -/
def Obligations.ChunkNewStagesAChunk : Prop :=
  encode .chunkNew = 0x00000020 ∧ ∀ s : State,
    (¬ s.Legal s.srcAddr s.srcLen → exec .chunkNew s = .next (s.failedWith 0x09 0)) ∧
    (s.Legal s.srcAddr s.srcLen → s.cfg.storeBytes < s.srcLen.toNat → exec .chunkNew s = .next (s.failedWith 0x0D 1)) ∧
    (s.Legal s.srcAddr s.srcLen → s.srcLen.toNat ≤ s.cfg.storeBytes →
      ∃ c : Chunk, exec .chunkNew s = .next { s with stage := some c }.finished ∧ c.ctype.bytes = u32be s.typeReg ∧
        c.data = s.bytesAt s.srcAddr s.srcLen ∧ c.crc = crc32 (c.ctype.bytes ++ c.data))

/-- 42_chunk.md R183. -/
def Obligations.ChunkParseStagesTheFirstFrame : Prop :=
  encode .chunkParse = 0x00000021 ∧ ∀ s : State,
    (¬ s.Legal s.srcAddr s.srcLen → exec .chunkParse s = .next (s.failedWith 0x09 0)) ∧
    (∀ e, s.Legal s.srcAddr s.srcLen → parseChunk (s.bytesAt s.srcAddr s.srcLen) = .error e →
      exec .chunkParse s = .next (s.failedWith e.code e.sub)) ∧
    (∀ c k, s.Legal s.srcAddr s.srcLen → parseChunk (s.bytesAt s.srcAddr s.srcLen) = .ok (c, k) →
      s.cfg.storeBytes < c.data.length → exec .chunkParse s = .next (s.failedWith 0x0D 1)) ∧
    (∀ c k, s.Legal s.srcAddr s.srcLen → parseChunk (s.bytesAt s.srcAddr s.srcLen) = .ok (c, k) →
      c.data.length ≤ s.cfg.storeBytes →
      exec .chunkParse s = .next { s with stage := some c, result := BitVec.ofNat 32 (12 + c.data.length) }.finished)

/-- 42_chunk.md R184. -/
def Obligations.ChunkSerializeOutputsTheFrame : Prop :=
  encode .chunkSerialize = 0x00000022 ∧ ∀ s : State,
    (s.stage = none → exec .chunkSerialize s = .next (s.failedWith 0x0C 0)) ∧
    (∀ c, s.stage = some c → ¬ s.Legal s.dstAddr s.dstCap → exec .chunkSerialize s = .next (s.failedWith 0x09 3)) ∧
    (∀ c, s.stage = some c → s.Legal s.dstAddr s.dstCap → s.dstCap.toNat < 12 + c.data.length →
      exec .chunkSerialize s = .next (s.failedWith 0x0A 0)) ∧
    (∀ c, s.stage = some c → s.Legal s.dstAddr s.dstCap → 12 + c.data.length ≤ s.dstCap.toNat →
      ∃ t, exec .chunkSerialize s = .next t ∧ t = { s with buf := t.buf, dstLen := t.dstLen }.finished ∧
        s.Outputs t (u32be (BitVec.ofNat 32 c.data.length) ++ c.ctype.bytes ++ c.data ++ u32be c.crc))

/-- 42_chunk.md R185, R186: CHUNK_DATA and CHUNK_TO_STRING output the staged data; the second checks that it is text. -/
def Obligations.ChunkDataAndTextOutputTheData : Prop :=
  encode .chunkData = 0x00000023 ∧ encode .chunkToString = 0x00000024 ∧ ∀ s : State,
    (s.stage = none → exec .chunkData s = .next (s.failedWith 0x0C 0) ∧
      exec .chunkToString s = .next (s.failedWith 0x0C 0)) ∧
    (∀ c, s.stage = some c → ¬ s.Legal s.dstAddr s.dstCap → exec .chunkData s = .next (s.failedWith 0x09 3) ∧
      exec .chunkToString s = .next (s.failedWith 0x09 3)) ∧
    (∀ c, s.stage = some c → s.Legal s.dstAddr s.dstCap → utf8Valid c.data = false →
      exec .chunkToString s = .next (s.failedWith 0x05 0)) ∧
    (∀ c, s.stage = some c → s.Legal s.dstAddr s.dstCap → s.dstCap.toNat < c.data.length →
      exec .chunkData s = .next (s.failedWith 0x0A 0) ∧
      (utf8Valid c.data = true → exec .chunkToString s = .next (s.failedWith 0x0A 0))) ∧
    (∀ c, s.stage = some c → s.Legal s.dstAddr s.dstCap → c.data.length ≤ s.dstCap.toNat →
      ∃ t, exec .chunkData s = .next t ∧ t = { s with buf := t.buf, dstLen := t.dstLen }.finished ∧ s.Outputs t c.data) ∧
    (∀ c, s.stage = some c → s.Legal s.dstAddr s.dstCap → c.data.length ≤ s.dstCap.toNat → utf8Valid c.data = true →
      ∃ t, exec .chunkToString s = .next t ∧ t = { s with buf := t.buf, dstLen := t.dstLen }.finished ∧ s.Outputs t c.data)

/-- 42_chunk.md R189: serializing and parsing a chunk are inverse to each other. -/
def Obligations.ChunkRoundTrip : Prop :=
  (∀ (c : Chunk) (rest : List Byte), c.Sound → parseChunk (chunkBytes c ++ rest) = .ok (c, 12 + c.data.length)) ∧
  (∀ (r : List Byte) (c : Chunk) (k : Nat), parseChunk r = .ok (c, k) → chunkBytes c = r.take k ∧ k ≤ r.length ∧ c.Sound)

/-- 42_chunk.md R190: one inverted bit in the type, data or crc bytes of a frame gives CRC_MISMATCH. -/
def Obligations.FrameBitFlipIsDetected : Prop :=
  ∀ (c : Chunk) (i k : Nat), c.Sound → 4 ≤ i → i < 12 + c.data.length → k < 8 →
    parseChunk (flipBit (chunkBytes c) i k) = .error .crcMismatch

/-! ### Png container -/

/-- 43_png.md R200: ParsePng by cases: the length, the signature, and, after frames that parsed within the capacities, what the next
bytes give. So the first frame that fails decides the error. With the ERRCODE and ERRSUB of each of its errors (60_exceptions.md R250). -/
def Obligations.ParsePngReportsTheFirstFailure : Prop :=
  (∀ cfg b, b.length < 8 → parsePng cfg b = .error (.invalidSignature .tooShort)) ∧
  (∀ cfg b, 8 ≤ b.length → b.take 8 ≠ sig → parsePng cfg b = .error (.invalidSignature .mismatch)) ∧
  (∀ (cfg : Config) (cs : List Chunk) (rest : List Byte), (∀ c ∈ cs, c.Sound) → cs.length ≤ cfg.maxChunks →
    dataTotal cs ≤ cfg.storeBytes →
    (rest = [] → parsePng cfg (pngBytes cs ++ rest) = .ok cs) ∧
    (∀ e, rest ≠ [] → parseChunk rest = .error e → parsePng cfg (pngBytes cs ++ rest) = .error e) ∧
    (∀ c k, parseChunk rest = .ok (c, k) → cfg.maxChunks < cs.length + 1 →
      parsePng cfg (pngBytes cs ++ rest) = .error (.capacityExceeded .chunks)) ∧
    (∀ c k, parseChunk rest = .ok (c, k) → cs.length + 1 ≤ cfg.maxChunks → cfg.storeBytes < dataTotal cs + c.data.length →
      parsePng cfg (pngBytes cs ++ rest) = .error (.capacityExceeded .bytes))) ∧
  (∀ r, (CmdError.invalidSignature r).code = 0x01) ∧ (CmdError.invalidSignature .tooShort).sub = 1 ∧
  (CmdError.invalidSignature .mismatch).sub = 0 ∧ (∀ k, (CmdError.capacityExceeded k).code = 0x0D) ∧
  (CmdError.capacityExceeded .chunks).sub = 0 ∧ (CmdError.capacityExceeded .bytes).sub = 1

/-- 43_png.md R210: the stream round trip, both ways. -/
def Obligations.StreamRoundTrip : Prop :=
  (∀ (cfg : Config) (b : List Byte) (cs : List Chunk), parsePng cfg b = .ok cs → pngBytes cs = b) ∧
  (∀ (cfg : Config) (cs : List Chunk), (∀ c ∈ cs, c.Sound) → cs.length ≤ cfg.maxChunks → dataTotal cs ≤ cfg.storeBytes →
    parsePng cfg (pngBytes cs) = .ok cs)

/-- 43_png.md R209: FirstIndex is the least index of a chunk of the type, none if there is none. -/
def Obligations.FirstIndexIsTheLeast : Prop :=
  ∀ (cs : List Chunk) (t : ChunkType),
    (∀ i c, firstOfType cs t = some (i, c) ↔
      cs[i]? = some c ∧ c.ctype = t ∧ ∀ j d, j < i → cs[j]? = some d → d.ctype ≠ t) ∧
    (firstOfType cs t = none ↔ ∀ c ∈ cs, c.ctype ≠ t)

/-- 43_png.md R201. -/
def Obligations.PngParseLoadsTheContainer : Prop :=
  encode .pngParse = 0x00000030 ∧ ∀ s : State,
    (¬ s.Legal s.srcAddr s.srcLen → exec .pngParse s = .next (s.failedWith 0x09 0)) ∧
    (∀ e, s.Legal s.srcAddr s.srcLen → parsePng s.cfg (s.bytesAt s.srcAddr s.srcLen) = .error e →
      exec .pngParse s = .next (s.failedWith e.code e.sub)) ∧
    (∀ cs, s.Legal s.srcAddr s.srcLen → parsePng s.cfg (s.bytesAt s.srcAddr s.srcLen) = .ok cs →
      exec .pngParse s = .next { s with png := some cs }.finished)

/-- 43_png.md R202, R208: the container's stream, SIG and then each chunk's frame. -/
def Obligations.PngSerializeOutputsTheStream : Prop :=
  encode .pngSerialize = 0x00000031 ∧ ∀ s : State,
    (s.png = none → exec .pngSerialize s = .next (s.failedWith 0x0B 0)) ∧
    (∀ cs, s.png = some cs → ¬ s.Legal s.dstAddr s.dstCap → exec .pngSerialize s = .next (s.failedWith 0x09 3)) ∧
    (∀ cs, s.png = some cs → s.Legal s.dstAddr s.dstCap → s.dstCap.toNat < 8 + 12 * cs.length + dataTotal cs →
      exec .pngSerialize s = .next (s.failedWith 0x0A 0)) ∧
    (∀ cs, s.png = some cs → s.Legal s.dstAddr s.dstCap → 8 + 12 * cs.length + dataTotal cs ≤ s.dstCap.toNat →
      ∃ t, exec .pngSerialize s = .next t ∧ t = { s with buf := t.buf, dstLen := t.dstLen }.finished ∧
        s.Outputs t ([0x89, 0x50, 0x4E, 0x47, 0x0D, 0x0A, 0x1A, 0x0A] ++ (cs.map chunkBytes).flatten))

/-- 43_png.md R203. -/
def Obligations.PngAppendMovesTheStagedChunkToTheEnd : Prop :=
  encode .pngAppend = 0x00000032 ∧ ∀ s : State,
    (s.png = none → exec .pngAppend s = .next (s.failedWith 0x0B 0)) ∧
    (∀ cs, s.png = some cs → s.stage = none → exec .pngAppend s = .next (s.failedWith 0x0C 0)) ∧
    ∀ cs c, s.png = some cs → s.stage = some c →
      (s.cfg.maxChunks < cs.length + 1 → exec .pngAppend s = .next (s.failedWith 0x0D 0)) ∧
      (cs.length + 1 ≤ s.cfg.maxChunks → s.cfg.storeBytes < dataTotal cs + c.data.length →
        exec .pngAppend s = .next (s.failedWith 0x0D 1)) ∧
      (cs.length + 1 ≤ s.cfg.maxChunks → dataTotal cs + c.data.length ≤ s.cfg.storeBytes →
        exec .pngAppend s = .next { s with png := some (cs ++ [c]), stage := none }.finished)

/-- 43_png.md R204. -/
def Obligations.PngRemoveMovesTheFirstMatchToTheStage : Prop :=
  encode .pngRemove = 0x00000033 ∧ ∀ s : State,
    (s.png = none → exec .pngRemove s = .next (s.failedWith 0x0B 0)) ∧
    (∀ cs, s.png = some cs → (∀ c ∈ cs, c.ctype.bytes ≠ u32be s.typeReg) →
      exec .pngRemove s = .next (s.failedWith 0x06 0)) ∧
    (∀ l c r, s.png = some (l ++ c :: r) → c.ctype.bytes = u32be s.typeReg → (∀ d ∈ l, d.ctype.bytes ≠ u32be s.typeReg) →
      exec .pngRemove s = .next { s with png := some (l ++ r), stage := some c }.finished)

/-- 43_png.md R205: absence is a normal outcome and leaves INDEX and STAGE as they were. -/
def Obligations.PngFindLooksUpTheFirstMatch : Prop :=
  encode .pngFind = 0x00000034 ∧ ∀ s : State,
    (s.png = none → exec .pngFind s = .next (s.failedWith 0x0B 0)) ∧
    (∀ cs, s.png = some cs → (∀ c ∈ cs, c.ctype.bytes ≠ u32be s.typeReg) →
      exec .pngFind s = .next { s with result := 0 }.finished) ∧
    (∀ l c r, s.png = some (l ++ c :: r) → c.ctype.bytes = u32be s.typeReg → (∀ d ∈ l, d.ctype.bytes ≠ u32be s.typeReg) →
      exec .pngFind s = .next { s with result := 1, index := BitVec.ofNat 32 l.length, stage := some c }.finished)

/-- 43_png.md R206, R207: PNG_GET copies the chunk INDEX selects; PNG_HEADER outputs SIG, with a Png loaded or not. -/
def Obligations.PngGetAndHeader : Prop :=
  encode .pngGet = 0x00000035 ∧ encode .pngHeader = 0x00000036 ∧ ∀ s : State,
    (s.png = none → exec .pngGet s = .next (s.failedWith 0x0B 0)) ∧
    (∀ cs, s.png = some cs → cs.length ≤ s.index.toNat → exec .pngGet s = .next (s.failedWith 0x0E 0)) ∧
    (∀ l c r, s.png = some (l ++ c :: r) → s.index.toNat = l.length →
      exec .pngGet s = .next { s with stage := some c }.finished) ∧
    (¬ s.Legal s.dstAddr s.dstCap → exec .pngHeader s = .next (s.failedWith 0x09 3)) ∧
    (s.Legal s.dstAddr s.dstCap → s.dstCap.toNat < 8 → exec .pngHeader s = .next (s.failedWith 0x0A 0)) ∧
    (s.Legal s.dstAddr s.dstCap → 8 ≤ s.dstCap.toNat →
      ∃ t, exec .pngHeader s = .next t ∧ t = { s with buf := t.buf, dstLen := t.dstLen }.finished ∧
        s.Outputs t [0x89, 0x50, 0x4E, 0x47, 0x0D, 0x0A, 0x1A, 0x0A])

/-- 43_png.md R211, R212: whatever command runs without loading another stream, the chunks that stay keep their order: PNG_APPEND
adds one at the end, PNG_REMOVE takes out the first of its type, any other primitive leaves the list. -/
def Obligations.PrimitivesKeepChunkOrder : Prop :=
  ∀ (i : Instr) (s t : State), exec i s = .next t → t.status.err = false →
    (i = .pngAppend → ∃ c, s.stage = some c ∧ t.chunks = s.chunks ++ [c]) ∧
    (i = .pngRemove →
      t.chunks.filter (fun c => c.ctype.toWord = s.typeReg) = (s.chunks.filter (fun c => c.ctype.toWord = s.typeReg)).tail ∧
      t.chunks.filter (fun c => c.ctype.toWord ≠ s.typeReg) = s.chunks.filter (fun c => c.ctype.toWord ≠ s.typeReg) ∧
      t.chunks.Sublist s.chunks) ∧
    (i ∉ [.pngParse, .pngAppend, .pngRemove, .opEncode, .opDecode, .opRemove] → t.png = s.png)

/-! ### Encode, Decode, Remove -/

/-- 44_orchestration.md R231: every check in its order, and the result. -/
def Obligations.OpEncodeAppendsTheMessage : Prop :=
  encode .opEncode = 0x00000040 ∧ ∀ s : State,
    (¬ s.Legal s.srcAddr s.srcLen → exec .opEncode s = .next (s.failedWith 0x09 0)) ∧
    (s.Legal s.srcAddr s.srcLen → ¬ s.Legal s.argAddr s.argLen → exec .opEncode s = .next (s.failedWith 0x09 1)) ∧
    (s.Legal s.srcAddr s.srcLen → s.Legal s.argAddr s.argLen → ¬ s.Legal s.msgAddr s.msgLen →
      exec .opEncode s = .next (s.failedWith 0x09 2)) ∧
    (s.Legal s.srcAddr s.srcLen → s.Legal s.argAddr s.argLen → s.Legal s.msgAddr s.msgLen → ¬ s.Legal s.dstAddr s.dstCap →
      exec .opEncode s = .next (s.failedWith 0x09 3)) ∧
    (s.Legal s.srcAddr s.srcLen → s.Legal s.argAddr s.argLen → s.Legal s.msgAddr s.msgLen → s.Legal s.dstAddr s.dstCap →
      (∀ e, parsePng s.cfg (s.bytesAt s.srcAddr s.srcLen) = .error e →
        exec .opEncode s = .next (s.failedWith e.code e.sub)) ∧
      ∀ cs, parsePng s.cfg (s.bytesAt s.srcAddr s.srcLen) = .ok cs →
        (∀ e, typeFromString (s.bytesAt s.argAddr s.argLen) = .error e →
          exec .opEncode s = .next (s.failedWith e.code e.sub)) ∧
        ∀ ty, typeFromString (s.bytesAt s.argAddr s.argLen) = .ok ty →
          (s.cfg.storeBytes < s.msgLen.toNat → exec .opEncode s = .next (s.failedWith 0x0D 1)) ∧
          (s.msgLen.toNat ≤ s.cfg.storeBytes → s.cfg.maxChunks < cs.length + 1 →
            exec .opEncode s = .next (s.failedWith 0x0D 0)) ∧
          (cs.length + 1 ≤ s.cfg.maxChunks → s.cfg.storeBytes < dataTotal cs + s.msgLen.toNat →
            exec .opEncode s = .next (s.failedWith 0x0D 1)) ∧
          (cs.length + 1 ≤ s.cfg.maxChunks → dataTotal cs + s.msgLen.toNat ≤ s.cfg.storeBytes →
            s.dstCap.toNat < s.srcLen.toNat + 12 + s.msgLen.toNat → exec .opEncode s = .next (s.failedWith 0x0A 0)) ∧
          (cs.length + 1 ≤ s.cfg.maxChunks → dataTotal cs + s.msgLen.toNat ≤ s.cfg.storeBytes →
            s.srcLen.toNat + 12 + s.msgLen.toNat ≤ s.dstCap.toNat →
            ∃ t, exec .opEncode s = .next t ∧
              t = { s with
                buf := t.buf, dstLen := t.dstLen, typeReg := ty.toWord, stage := none
                png := some (cs ++ [newChunk ty (s.bytesAt s.msgAddr s.msgLen)]) }.finished ∧
              s.Outputs t (s.bytesAt s.srcAddr s.srcLen ++ chunkBytes (newChunk ty (s.bytesAt s.msgAddr s.msgLen)))))

/-- 44_orchestration.md R232: every check in its order, the found and the absent outcome. -/
def Obligations.OpDecodeRecoversTheTextOrTheSentinel : Prop :=
  encode .opDecode = 0x00000041 ∧ ∀ s : State,
    (¬ s.Legal s.srcAddr s.srcLen → exec .opDecode s = .next (s.failedWith 0x09 0)) ∧
    (s.Legal s.srcAddr s.srcLen → ¬ s.Legal s.argAddr s.argLen → exec .opDecode s = .next (s.failedWith 0x09 1)) ∧
    (s.Legal s.srcAddr s.srcLen → s.Legal s.argAddr s.argLen → ¬ s.Legal s.dstAddr s.dstCap →
      exec .opDecode s = .next (s.failedWith 0x09 3)) ∧
    (s.Legal s.srcAddr s.srcLen → s.Legal s.argAddr s.argLen → s.Legal s.dstAddr s.dstCap →
      (∀ e, parsePng s.cfg (s.bytesAt s.srcAddr s.srcLen) = .error e →
        exec .opDecode s = .next (s.failedWith e.code e.sub)) ∧
      ∀ cs, parsePng s.cfg (s.bytesAt s.srcAddr s.srcLen) = .ok cs →
        (∀ e, typeFromString (s.bytesAt s.argAddr s.argLen) = .error e →
          exec .opDecode s = .next (s.failedWith e.code e.sub)) ∧
        ∀ ty, typeFromString (s.bytesAt s.argAddr s.argLen) = .ok ty →
          ((∀ c ∈ cs, c.ctype ≠ ty) → s.dstCap.toNat < 23 → exec .opDecode s = .next (s.failedWith 0x0A 0)) ∧
          ((∀ c ∈ cs, c.ctype ≠ ty) → 23 ≤ s.dstCap.toNat →
            ∃ t, exec .opDecode s = .next t ∧
              t = { s with
                buf := t.buf, dstLen := t.dstLen, result := 0, typeReg := ty.toWord, png := some cs }.finished ∧
              s.Outputs t [0x4E, 0x6F, 0x20, 0x73, 0x65, 0x63, 0x72, 0x65, 0x74, 0x20, 0x6D, 0x65, 0x73, 0x73, 0x61, 0x67, 0x65,
                0x20, 0x66, 0x6F, 0x75, 0x6E, 0x64]) ∧
          ∀ l c r, cs = l ++ c :: r → c.ctype = ty → (∀ d ∈ l, d.ctype ≠ ty) →
            (utf8Valid c.data = false → exec .opDecode s = .next (s.failedWith 0x05 0)) ∧
            (utf8Valid c.data = true → s.dstCap.toNat < c.data.length → exec .opDecode s = .next (s.failedWith 0x0A 0)) ∧
            (utf8Valid c.data = true → c.data.length ≤ s.dstCap.toNat →
              ∃ t, exec .opDecode s = .next t ∧
                t = { s with
                  buf := t.buf, dstLen := t.dstLen, result := 1, index := BitVec.ofNat 32 l.length
                  stage := some c, typeReg := ty.toWord, png := some cs }.finished ∧
                s.Outputs t c.data))

/-- 44_orchestration.md R233: every check in its order, and the result. -/
def Obligations.OpRemoveTakesOutTheFirstMatch : Prop :=
  encode .opRemove = 0x00000042 ∧ ∀ s : State,
    (¬ s.Legal s.srcAddr s.srcLen → exec .opRemove s = .next (s.failedWith 0x09 0)) ∧
    (s.Legal s.srcAddr s.srcLen → ¬ s.Legal s.argAddr s.argLen → exec .opRemove s = .next (s.failedWith 0x09 1)) ∧
    (s.Legal s.srcAddr s.srcLen → s.Legal s.argAddr s.argLen → ¬ s.Legal s.dstAddr s.dstCap →
      exec .opRemove s = .next (s.failedWith 0x09 3)) ∧
    (s.Legal s.srcAddr s.srcLen → s.Legal s.argAddr s.argLen → s.Legal s.dstAddr s.dstCap →
      (∀ e, parsePng s.cfg (s.bytesAt s.srcAddr s.srcLen) = .error e →
        exec .opRemove s = .next (s.failedWith e.code e.sub)) ∧
      ∀ cs, parsePng s.cfg (s.bytesAt s.srcAddr s.srcLen) = .ok cs →
        (∀ e, typeFromString (s.bytesAt s.argAddr s.argLen) = .error e →
          exec .opRemove s = .next (s.failedWith e.code e.sub)) ∧
        ∀ ty, typeFromString (s.bytesAt s.argAddr s.argLen) = .ok ty →
          ((∀ c ∈ cs, c.ctype ≠ ty) → exec .opRemove s = .next (s.failedWith 0x06 0)) ∧
          ∀ l c r, cs = l ++ c :: r → c.ctype = ty → (∀ d ∈ l, d.ctype ≠ ty) →
            (s.dstCap.toNat + 12 + c.data.length < s.srcLen.toNat → exec .opRemove s = .next (s.failedWith 0x0A 0)) ∧
            (s.srcLen.toNat ≤ s.dstCap.toNat + 12 + c.data.length →
              ∃ t, exec .opRemove s = .next t ∧
                t = { s with
                  buf := t.buf, dstLen := t.dstLen, typeReg := ty.toWord, stage := some c, png := some (l ++ r) }.finished ∧
                t.dstLen.toNat + 12 + c.data.length = s.srcLen.toNat ∧ s.Outputs t (pngBytes (l ++ r))))

/-- 44_orchestration.md R230: a successful OP_ENCODE, OP_DECODE (found) or OP_REMOVE leaves PNG, TYPE, STAGE, INDEX, RESULT, DST_LEN and BUF as
its primitive commands leave them, the host writing SRC in between. OP_DECODE with no match leaves PNG, TYPE, STAGE, INDEX and RESULT so; the
SENTINEL it outputs is no primitive's, and its rule's pseudocode is normative there. -/
def Obligations.OrchestrationEqualsItsPrimitives : Prop :=
  (∀ s t : State, exec .opEncode s = .next t → t.status.err = false →
    ∃ s1 s2 s3 s4 u, exec .pngParse s = .next s1 ∧ exec .typeFromString (s1.withSrc s.argAddr s.argLen) = .next s2 ∧
      exec .chunkNew (s2.withSrc s.msgAddr s.msgLen) = .next s3 ∧ exec .pngAppend s3 = .next s4 ∧
      exec .pngSerialize s4 = .next u ∧ u.status.err = false ∧ u.png = t.png ∧ u.typeReg = t.typeReg ∧ u.stage = t.stage ∧
      u.index = t.index ∧ u.result = t.result ∧ u.dstLen = t.dstLen ∧ ∀ a, u.byteAt a = t.byteAt a) ∧
  (∀ s t : State, exec .opDecode s = .next t → t.status.err = false → t.result = 1 →
    ∃ s1 s2 s3 u, exec .pngParse s = .next s1 ∧ exec .typeFromString (s1.withSrc s.argAddr s.argLen) = .next s2 ∧
      exec .pngFind s2 = .next s3 ∧ exec .chunkToString s3 = .next u ∧ u.status.err = false ∧ u.png = t.png ∧
      u.typeReg = t.typeReg ∧ u.stage = t.stage ∧ u.index = t.index ∧ u.result = t.result ∧ u.dstLen = t.dstLen ∧
      ∀ a, u.byteAt a = t.byteAt a) ∧
  (∀ s t : State, exec .opDecode s = .next t → t.status.err = false → t.result = 0 →
    ∃ s1 s2 u, exec .pngParse s = .next s1 ∧ exec .typeFromString (s1.withSrc s.argAddr s.argLen) = .next s2 ∧
      exec .pngFind s2 = .next u ∧ u.status.err = false ∧ u.png = t.png ∧ u.typeReg = t.typeReg ∧ u.stage = t.stage ∧
      u.index = t.index ∧ u.result = t.result) ∧
  (∀ s t : State, exec .opRemove s = .next t → t.status.err = false →
    ∃ s1 s2 s3 u, exec .pngParse s = .next s1 ∧ exec .typeFromString (s1.withSrc s.argAddr s.argLen) = .next s2 ∧
      exec .pngRemove s2 = .next s3 ∧ exec .pngSerialize s3 = .next u ∧ u.status.err = false ∧ u.png = t.png ∧
      u.typeReg = t.typeReg ∧ u.stage = t.stage ∧ u.index = t.index ∧ u.result = t.result ∧ u.dstLen = t.dstLen ∧
      ∀ a, u.byteAt a = t.byteAt a)

/-- 44_orchestration.md R235: with no earlier chunk of the type, and no limit hit, decoding what OP_ENCODE wrote gives the message
back. The host points SRC at the output, DST at `(da, dc)`, and the type string still stands at ARG. -/
def Obligations.EncodeThenDecodeGivesTheMessage : Prop :=
  ∀ (s t : State) (cs : List Chunk) (ty : ChunkType) (da dc : Word),
    exec .opEncode s = .next t → t.status.err = false →
    parsePng s.cfg (s.bytesAt s.srcAddr s.srcLen) = .ok cs → typeFromString (s.bytesAt s.argAddr s.argLen) = .ok ty →
    (∀ c ∈ cs, c.ctype ≠ ty) → utf8Valid (s.bytesAt s.msgAddr s.msgLen) = true →
    t.bytesAt s.argAddr s.argLen = s.bytesAt s.argAddr s.argLen → s.Legal da dc → s.msgLen.toNat ≤ dc.toNat →
    ∃ u, exec .opDecode ((t.withSrc t.dstAddr t.dstLen).withDst da dc) = .next u ∧ u.status.err = false ∧
      u.result = 1 ∧ u.bytesAt da u.dstLen = s.bytesAt s.msgAddr s.msgLen

/-- 44_orchestration.md R236: under the same conditions OP_REMOVE of the OP_ENCODE output gives the first stream back byte for byte, and
decoding that gives SENTINEL. -/
def Obligations.EncodeThenRemoveGivesTheStreamBack : Prop :=
  ∀ (s t : State) (cs : List Chunk) (ty : ChunkType) (da dc ea ec : Word),
    exec .opEncode s = .next t → t.status.err = false →
    parsePng s.cfg (s.bytesAt s.srcAddr s.srcLen) = .ok cs → typeFromString (s.bytesAt s.argAddr s.argLen) = .ok ty →
    (∀ c ∈ cs, c.ctype ≠ ty) → t.bytesAt s.argAddr s.argLen = s.bytesAt s.argAddr s.argLen →
    s.Legal da dc → s.srcLen.toNat ≤ dc.toNat → s.Legal ea ec → 23 ≤ ec.toNat →
    ∃ u, exec .opRemove ((t.withSrc t.dstAddr t.dstLen).withDst da dc) = .next u ∧ u.status.err = false ∧
      u.bytesAt da u.dstLen = s.bytesAt s.srcAddr s.srcLen ∧
      (u.bytesAt s.argAddr s.argLen = s.bytesAt s.argAddr s.argLen →
        ∃ v, exec .opDecode ((u.withSrc da u.dstLen).withDst ea ec) = .next v ∧ v.status.err = false ∧ v.result = 0 ∧
          v.bytesAt ea v.dstLen = sentinel)

/-- 44_orchestration.md R237: an absent type gives SENTINEL with RESULT = 0, and again when the command runs again with DST apart from
SRC and ARG. -/
def Obligations.AbsenceIsIdempotent : Prop :=
  ∀ (s : State) (cs : List Chunk) (ty : ChunkType),
    s.Legal s.srcAddr s.srcLen → s.Legal s.argAddr s.argLen → s.Legal s.dstAddr s.dstCap → 23 ≤ s.dstCap.toNat →
    parsePng s.cfg (s.bytesAt s.srcAddr s.srcLen) = .ok cs → typeFromString (s.bytesAt s.argAddr s.argLen) = .ok ty →
    (∀ c ∈ cs, c.ctype ≠ ty) →
    (s.srcAddr.toNat + s.srcLen.toNat ≤ s.dstAddr.toNat ∨ s.dstAddr.toNat + 23 ≤ s.srcAddr.toNat) →
    (s.argAddr.toNat + s.argLen.toNat ≤ s.dstAddr.toNat ∨ s.dstAddr.toNat + 23 ≤ s.argAddr.toNat) →
    ∃ t u, exec .opDecode s = .next t ∧ exec .opDecode t = .next u ∧ t.result = 0 ∧ t.status.err = false ∧
      t.bytesAt s.dstAddr t.dstLen = sentinel ∧ u = { t with buf := u.buf } ∧ ∀ a, u.byteAt a = t.byteAt a
end

