-- ==== Sys2Proof/Laws/State.lean ====
section
/-! SUPPORT. One lemma for each field of State and each named update of it, true by rfl, and what the derived reads see of these
updates. -/

namespace Sys2Proof.Machine

section Updates
variable (s w : State) (e : CmdError) (v : Word) (x : Reading) (n k : Nat)

@[simp] theorem completeCommand_cfg : (completeCommand w).cfg = w.cfg := rfl
@[simp] theorem completeCommand_buf : (completeCommand w).buf = w.buf := rfl
@[simp] theorem completeCommand_cmd : (completeCommand w).cmd = w.cmd := rfl
@[simp] theorem completeCommand_status : (completeCommand w).status = Status.completed (opcodeOf w.cmd) := rfl
@[simp] theorem completeCommand_srcAddr : (completeCommand w).srcAddr = w.srcAddr := rfl
@[simp] theorem completeCommand_srcLen : (completeCommand w).srcLen = w.srcLen := rfl
@[simp] theorem completeCommand_argAddr : (completeCommand w).argAddr = w.argAddr := rfl
@[simp] theorem completeCommand_argLen : (completeCommand w).argLen = w.argLen := rfl
@[simp] theorem completeCommand_msgAddr : (completeCommand w).msgAddr = w.msgAddr := rfl
@[simp] theorem completeCommand_msgLen : (completeCommand w).msgLen = w.msgLen := rfl
@[simp] theorem completeCommand_dstAddr : (completeCommand w).dstAddr = w.dstAddr := rfl
@[simp] theorem completeCommand_dstCap : (completeCommand w).dstCap = w.dstCap := rfl
@[simp] theorem completeCommand_dstLen : (completeCommand w).dstLen = w.dstLen := rfl
@[simp] theorem completeCommand_result : (completeCommand w).result = w.result := rfl
@[simp] theorem completeCommand_typeReg : (completeCommand w).typeReg = w.typeReg := rfl
@[simp] theorem completeCommand_crcAcc : (completeCommand w).crcAcc = w.crcAcc := rfl
@[simp] theorem completeCommand_crcExp : (completeCommand w).crcExp = w.crcExp := rfl
@[simp] theorem completeCommand_index : (completeCommand w).index = w.index := rfl
@[simp] theorem completeCommand_stage : (completeCommand w).stage = w.stage := rfl
@[simp] theorem completeCommand_png : (completeCommand w).png = w.png := rfl
@[simp] theorem completeCommand_resetCount : (completeCommand w).resetCount = w.resetCount := rfl
@[simp] theorem completeCommand_drawCount : (completeCommand w).drawCount = w.drawCount := rfl
@[simp] theorem completeCommand_script : (completeCommand w).script = w.script := rfl
@[simp] theorem completeCommand_turns : (completeCommand w).turns = w.turns := rfl
@[simp] theorem completeCommand_reads : (completeCommand w).reads = w.reads := rfl

@[simp] theorem raiseError_cfg : (raiseError e s).cfg = s.cfg := rfl
@[simp] theorem raiseError_buf : (raiseError e s).buf = s.buf := rfl
@[simp] theorem raiseError_cmd : (raiseError e s).cmd = s.cmd := rfl
@[simp] theorem raiseError_status : (raiseError e s).status = Status.failed e (opcodeOf s.cmd) := rfl
@[simp] theorem raiseError_srcAddr : (raiseError e s).srcAddr = s.srcAddr := rfl
@[simp] theorem raiseError_srcLen : (raiseError e s).srcLen = s.srcLen := rfl
@[simp] theorem raiseError_argAddr : (raiseError e s).argAddr = s.argAddr := rfl
@[simp] theorem raiseError_argLen : (raiseError e s).argLen = s.argLen := rfl
@[simp] theorem raiseError_msgAddr : (raiseError e s).msgAddr = s.msgAddr := rfl
@[simp] theorem raiseError_msgLen : (raiseError e s).msgLen = s.msgLen := rfl
@[simp] theorem raiseError_dstAddr : (raiseError e s).dstAddr = s.dstAddr := rfl
@[simp] theorem raiseError_dstCap : (raiseError e s).dstCap = s.dstCap := rfl
@[simp] theorem raiseError_dstLen : (raiseError e s).dstLen = s.dstLen := rfl
@[simp] theorem raiseError_result : (raiseError e s).result = s.result := rfl
@[simp] theorem raiseError_typeReg : (raiseError e s).typeReg = s.typeReg := rfl
@[simp] theorem raiseError_crcAcc : (raiseError e s).crcAcc = s.crcAcc := rfl
@[simp] theorem raiseError_crcExp : (raiseError e s).crcExp = s.crcExp := rfl
@[simp] theorem raiseError_index : (raiseError e s).index = s.index := rfl
@[simp] theorem raiseError_stage : (raiseError e s).stage = s.stage := rfl
@[simp] theorem raiseError_png : (raiseError e s).png = s.png := rfl
@[simp] theorem raiseError_resetCount : (raiseError e s).resetCount = s.resetCount := rfl
@[simp] theorem raiseError_drawCount : (raiseError e s).drawCount = s.drawCount := rfl
@[simp] theorem raiseError_script : (raiseError e s).script = s.script := rfl
@[simp] theorem raiseError_turns : (raiseError e s).turns = s.turns := rfl
@[simp] theorem raiseError_reads : (raiseError e s).reads = s.reads := rfl

@[simp] theorem acceptCommand_cfg : (acceptCommand v s).cfg = s.cfg := rfl
@[simp] theorem acceptCommand_buf : (acceptCommand v s).buf = s.buf := rfl
@[simp] theorem acceptCommand_cmd : (acceptCommand v s).cmd = v := rfl
@[simp] theorem acceptCommand_status : (acceptCommand v s).status = Status.accepted (opcodeOf v) := rfl
@[simp] theorem acceptCommand_srcAddr : (acceptCommand v s).srcAddr = s.srcAddr := rfl
@[simp] theorem acceptCommand_srcLen : (acceptCommand v s).srcLen = s.srcLen := rfl
@[simp] theorem acceptCommand_argAddr : (acceptCommand v s).argAddr = s.argAddr := rfl
@[simp] theorem acceptCommand_argLen : (acceptCommand v s).argLen = s.argLen := rfl
@[simp] theorem acceptCommand_msgAddr : (acceptCommand v s).msgAddr = s.msgAddr := rfl
@[simp] theorem acceptCommand_msgLen : (acceptCommand v s).msgLen = s.msgLen := rfl
@[simp] theorem acceptCommand_dstAddr : (acceptCommand v s).dstAddr = s.dstAddr := rfl
@[simp] theorem acceptCommand_dstCap : (acceptCommand v s).dstCap = s.dstCap := rfl
@[simp] theorem acceptCommand_dstLen : (acceptCommand v s).dstLen = s.dstLen := rfl
@[simp] theorem acceptCommand_result : (acceptCommand v s).result = s.result := rfl
@[simp] theorem acceptCommand_typeReg : (acceptCommand v s).typeReg = s.typeReg := rfl
@[simp] theorem acceptCommand_crcAcc : (acceptCommand v s).crcAcc = s.crcAcc := rfl
@[simp] theorem acceptCommand_crcExp : (acceptCommand v s).crcExp = s.crcExp := rfl
@[simp] theorem acceptCommand_index : (acceptCommand v s).index = s.index := rfl
@[simp] theorem acceptCommand_stage : (acceptCommand v s).stage = s.stage := rfl
@[simp] theorem acceptCommand_png : (acceptCommand v s).png = s.png := rfl
@[simp] theorem acceptCommand_resetCount : (acceptCommand v s).resetCount = s.resetCount := rfl
@[simp] theorem acceptCommand_drawCount : (acceptCommand v s).drawCount = s.drawCount := rfl
@[simp] theorem acceptCommand_script : (acceptCommand v s).script = s.script := rfl
@[simp] theorem acceptCommand_turns : (acceptCommand v s).turns = s.turns := rfl
@[simp] theorem acceptCommand_reads : (acceptCommand v s).reads = s.reads := rfl

@[simp] theorem recordRead_cfg : (recordRead x s).cfg = s.cfg := rfl
@[simp] theorem recordRead_buf : (recordRead x s).buf = s.buf := rfl
@[simp] theorem recordRead_cmd : (recordRead x s).cmd = s.cmd := rfl
@[simp] theorem recordRead_status : (recordRead x s).status = s.status := rfl
@[simp] theorem recordRead_srcAddr : (recordRead x s).srcAddr = s.srcAddr := rfl
@[simp] theorem recordRead_srcLen : (recordRead x s).srcLen = s.srcLen := rfl
@[simp] theorem recordRead_argAddr : (recordRead x s).argAddr = s.argAddr := rfl
@[simp] theorem recordRead_argLen : (recordRead x s).argLen = s.argLen := rfl
@[simp] theorem recordRead_msgAddr : (recordRead x s).msgAddr = s.msgAddr := rfl
@[simp] theorem recordRead_msgLen : (recordRead x s).msgLen = s.msgLen := rfl
@[simp] theorem recordRead_dstAddr : (recordRead x s).dstAddr = s.dstAddr := rfl
@[simp] theorem recordRead_dstCap : (recordRead x s).dstCap = s.dstCap := rfl
@[simp] theorem recordRead_dstLen : (recordRead x s).dstLen = s.dstLen := rfl
@[simp] theorem recordRead_result : (recordRead x s).result = s.result := rfl
@[simp] theorem recordRead_typeReg : (recordRead x s).typeReg = s.typeReg := rfl
@[simp] theorem recordRead_crcAcc : (recordRead x s).crcAcc = s.crcAcc := rfl
@[simp] theorem recordRead_crcExp : (recordRead x s).crcExp = s.crcExp := rfl
@[simp] theorem recordRead_index : (recordRead x s).index = s.index := rfl
@[simp] theorem recordRead_stage : (recordRead x s).stage = s.stage := rfl
@[simp] theorem recordRead_png : (recordRead x s).png = s.png := rfl
@[simp] theorem recordRead_resetCount : (recordRead x s).resetCount = s.resetCount := rfl
@[simp] theorem recordRead_drawCount : (recordRead x s).drawCount = s.drawCount := rfl
@[simp] theorem recordRead_script : (recordRead x s).script = s.script := rfl
@[simp] theorem recordRead_turns : (recordRead x s).turns = s.turns := rfl
@[simp] theorem recordRead_reads : (recordRead x s).reads = x :: s.reads := rfl

@[simp] theorem withFetchWord_cfg : (s.withFetchWord k n).cfg = s.cfg := rfl
@[simp] theorem withFetchWord_buf : (s.withFetchWord k n).buf = s.buf := rfl
@[simp] theorem withFetchWord_cmd : (s.withFetchWord k n).cmd = BitVec.ofNat 32 (n % 2 ^ k) := rfl
@[simp] theorem withFetchWord_status : (s.withFetchWord k n).status = Status.accepted (opcodeOf (BitVec.ofNat 32 (n % 2 ^ k))) := rfl
@[simp] theorem withFetchWord_srcAddr : (s.withFetchWord k n).srcAddr = s.srcAddr := rfl
@[simp] theorem withFetchWord_srcLen : (s.withFetchWord k n).srcLen = s.srcLen := rfl
@[simp] theorem withFetchWord_argAddr : (s.withFetchWord k n).argAddr = s.argAddr := rfl
@[simp] theorem withFetchWord_argLen : (s.withFetchWord k n).argLen = s.argLen := rfl
@[simp] theorem withFetchWord_msgAddr : (s.withFetchWord k n).msgAddr = s.msgAddr := rfl
@[simp] theorem withFetchWord_msgLen : (s.withFetchWord k n).msgLen = s.msgLen := rfl
@[simp] theorem withFetchWord_dstAddr : (s.withFetchWord k n).dstAddr = s.dstAddr := rfl
@[simp] theorem withFetchWord_dstCap : (s.withFetchWord k n).dstCap = s.dstCap := rfl
@[simp] theorem withFetchWord_dstLen : (s.withFetchWord k n).dstLen = s.dstLen := rfl
@[simp] theorem withFetchWord_result : (s.withFetchWord k n).result = s.result := rfl
@[simp] theorem withFetchWord_typeReg : (s.withFetchWord k n).typeReg = s.typeReg := rfl
@[simp] theorem withFetchWord_crcAcc : (s.withFetchWord k n).crcAcc = s.crcAcc := rfl
@[simp] theorem withFetchWord_crcExp : (s.withFetchWord k n).crcExp = s.crcExp := rfl
@[simp] theorem withFetchWord_index : (s.withFetchWord k n).index = s.index := rfl
@[simp] theorem withFetchWord_stage : (s.withFetchWord k n).stage = s.stage := rfl
@[simp] theorem withFetchWord_png : (s.withFetchWord k n).png = s.png := rfl
@[simp] theorem withFetchWord_resetCount : (s.withFetchWord k n).resetCount = s.resetCount := rfl
@[simp] theorem withFetchWord_drawCount : (s.withFetchWord k n).drawCount = s.drawCount := rfl
@[simp] theorem withFetchWord_script : (s.withFetchWord k n).script = s.script := rfl
@[simp] theorem withFetchWord_turns : (s.withFetchWord k n).turns = [] := rfl
@[simp] theorem withFetchWord_reads : (s.withFetchWord k n).reads = s.reads := rfl

@[simp] theorem resetEvent_cfg : (resetEvent s).cfg = s.cfg := rfl
@[simp] theorem resetEvent_buf : (resetEvent s).buf = [] := rfl
@[simp] theorem resetEvent_cmd : (resetEvent s).cmd = 0 := rfl
@[simp] theorem resetEvent_status : (resetEvent s).status = Status.afterReset := rfl
@[simp] theorem resetEvent_srcAddr : (resetEvent s).srcAddr = 0 := rfl
@[simp] theorem resetEvent_srcLen : (resetEvent s).srcLen = 0 := rfl
@[simp] theorem resetEvent_argAddr : (resetEvent s).argAddr = 0 := rfl
@[simp] theorem resetEvent_argLen : (resetEvent s).argLen = 0 := rfl
@[simp] theorem resetEvent_msgAddr : (resetEvent s).msgAddr = 0 := rfl
@[simp] theorem resetEvent_msgLen : (resetEvent s).msgLen = 0 := rfl
@[simp] theorem resetEvent_dstAddr : (resetEvent s).dstAddr = 0 := rfl
@[simp] theorem resetEvent_dstCap : (resetEvent s).dstCap = 0 := rfl
@[simp] theorem resetEvent_dstLen : (resetEvent s).dstLen = 0 := rfl
@[simp] theorem resetEvent_result : (resetEvent s).result = 0 := rfl
@[simp] theorem resetEvent_typeReg : (resetEvent s).typeReg = 0 := rfl
@[simp] theorem resetEvent_crcAcc : (resetEvent s).crcAcc = 0xFFFFFFFF := rfl
@[simp] theorem resetEvent_crcExp : (resetEvent s).crcExp = 0 := rfl
@[simp] theorem resetEvent_index : (resetEvent s).index = 0 := rfl
@[simp] theorem resetEvent_stage : (resetEvent s).stage = none := rfl
@[simp] theorem resetEvent_png : (resetEvent s).png = none := rfl
@[simp] theorem resetEvent_resetCount : (resetEvent s).resetCount = s.resetCount + 1 := rfl
@[simp] theorem resetEvent_drawCount : (resetEvent s).drawCount = s.drawCount := rfl
@[simp] theorem resetEvent_script : (resetEvent s).script = s.script := rfl
@[simp] theorem resetEvent_turns : (resetEvent s).turns = s.turns := rfl
@[simp] theorem resetEvent_reads : (resetEvent s).reads = s.reads := rfl

end Updates

section Status
variable (e : CmdError) (op : BitVec 8)

@[simp] theorem Status.accepted_busy : (Status.accepted op).busy = true := rfl
@[simp] theorem Status.accepted_done : (Status.accepted op).done = false := rfl
@[simp] theorem Status.accepted_err : (Status.accepted op).err = false := rfl
@[simp] theorem Status.accepted_errSub : (Status.accepted op).errSub = 0 := rfl
@[simp] theorem Status.accepted_errCode : (Status.accepted op).errCode = 0 := rfl
@[simp] theorem Status.accepted_lastOp : (Status.accepted op).lastOp = op := rfl
@[simp] theorem Status.completed_busy : (Status.completed op).busy = false := rfl
@[simp] theorem Status.completed_done : (Status.completed op).done = true := rfl
@[simp] theorem Status.completed_err : (Status.completed op).err = false := rfl
@[simp] theorem Status.completed_errSub : (Status.completed op).errSub = 0 := rfl
@[simp] theorem Status.completed_errCode : (Status.completed op).errCode = 0 := rfl
@[simp] theorem Status.completed_lastOp : (Status.completed op).lastOp = op := rfl
@[simp] theorem Status.failed_busy : (Status.failed e op).busy = false := rfl
@[simp] theorem Status.failed_done : (Status.failed e op).done = true := rfl
@[simp] theorem Status.failed_err : (Status.failed e op).err = true := rfl
@[simp] theorem Status.failed_errSub : (Status.failed e op).errSub = e.sub := rfl
@[simp] theorem Status.failed_errCode : (Status.failed e op).errCode = e.code := rfl
@[simp] theorem Status.failed_lastOp : (Status.failed e op).lastOp = op := rfl
@[simp] theorem Status.afterReset_busy : Status.afterReset.busy = false := rfl
@[simp] theorem Status.afterReset_done : Status.afterReset.done = false := rfl
@[simp] theorem Status.afterReset_err : Status.afterReset.err = false := rfl
@[simp] theorem Status.afterReset_errSub : Status.afterReset.errSub = 0 := rfl
@[simp] theorem Status.afterReset_errCode : Status.afterReset.errCode = 0 := rfl
@[simp] theorem Status.afterReset_lastOp : Status.afterReset.lastOp = 0 := rfl

end Status

/-- Two states with the same BUF contents and reset count read the same bytes. -/
theorem byteAt_congr {s t : State} (hb : t.buf = s.buf) (hr : t.resetCount = s.resetCount) (a : Nat) :
    t.byteAt a = s.byteAt a := by
  simp [State.byteAt, hb, hr]

theorem readBytes_congr {s t : State} (h : ∀ a, t.byteAt a = s.byteAt a) (a n : Nat) :
    t.readBytes a n = s.readBytes a n := by
  induction n generalizing a with
  | zero => rfl
  | succ n ih => simp [State.readBytes, h, ih]

@[simp] theorem byteAt_completeCommand (w : State) (a : Nat) : (completeCommand w).byteAt a = w.byteAt a := rfl

@[simp] theorem byteAt_raiseError (e : CmdError) (s : State) (a : Nat) : (raiseError e s).byteAt a = s.byteAt a := rfl

@[simp] theorem byteAt_acceptCommand (v : Word) (s : State) (a : Nat) : (acceptCommand v s).byteAt a = s.byteAt a := rfl

@[simp] theorem byteAt_recordRead (x : Reading) (s : State) (a : Nat) : (recordRead x s).byteAt a = s.byteAt a := rfl

/-- After a reset every BUF byte is a new draw (70_reset_and_hazards.md R281). -/
@[simp] theorem byteAt_resetEvent (s : State) (a : Nat) :
    (resetEvent s).byteAt a = Config.bufDraw (s.resetCount + 1) a := rfl

/-- Using up a turn changes no other field. -/
theorem takeTurn_eq (s : State) : s.takeTurn = s ∨ s.takeTurn = { s with turns := s.turns.tail } := by
  unfold State.takeTurn
  split
  · exact .inr rfl
  · exact .inl rfl

end Sys2Proof.Machine
end

