-- ==== Sys2Proof/Laws/Outcome.lean ====
section
/-! SUPPORT. What the shared pieces of a rule can answer: sequencing, checks, operands, Output, and the end of a command. -/

namespace Sys2Proof.Machine

section Sequencing
variable {ε α β : Type} {x : Except ε α} {f : α → Except ε β}

@[simp] theorem ok_bind (a : α) (f : α → Except ε β) : (Except.ok a >>= f) = f a := rfl

@[simp] theorem error_bind (e : ε) (f : α → Except ε β) : (Except.error e >>= f) = Except.error e := rfl

/-- A sequence succeeds iff both parts do. -/
theorem bind_eq_ok {b : β} : (x >>= f) = .ok b ↔ ∃ a, x = .ok a ∧ f a = .ok b := by
  cases x <;> simp

/-- A sequence fails iff the first part does, or the second does after the first succeeded. -/
theorem bind_eq_error {e : ε} : (x >>= f) = .error e ↔ x = .error e ∨ ∃ a, x = .ok a ∧ f a = .error e := by
  cases x <;> simp

end Sequencing

section Checks
variable {p : Prop} [Decidable p] {e e' : CmdError}

@[simp] theorem require_eq_ok {u : Unit} : require p e = .ok u ↔ p := by
  by_cases h : p <;> simp [require, h]

@[simp] theorem require_eq_error : require p e = .error e' ↔ ¬ p ∧ e' = e := by
  by_cases h : p <;> simp [require, h, eq_comm]

theorem require_of (h : p) : require p e = .ok () := by simp [require, h]

theorem require_of_not (h : ¬ p) : require p e = .error e := by simp [require, h]

@[simp] theorem checkRange_eq_ok {s : State} {r : RangeName} {u : Unit} : checkRange s r = .ok u ↔ s.rangeLegal r := by
  simp only [checkRange, require_eq_ok]

@[simp] theorem checkRange_eq_error {s : State} {r : RangeName} :
    checkRange s r = .error e ↔ ¬ s.rangeLegal r ∧ e = .rangeError r := by
  simp only [checkRange, require_eq_error]

/-- A list of ranges passes iff every one is legal. -/
theorem checkRanges_eq_ok {s : State} {rs : List RangeName} {u : Unit} :
    checkRanges s rs = .ok u ↔ ∀ r ∈ rs, s.rangeLegal r := by
  induction rs with
  | nil => simp [checkRanges]
  | cons r rs ih => simp [checkRanges, bind_eq_ok, ih]

/-- The error of a list of ranges is that of its first illegal one (20_memory.md R84). -/
theorem checkRanges_eq_error {s : State} {rs : List RangeName} :
    checkRanges s rs = .error e ↔
      ∃ l r k, rs = l ++ r :: k ∧ (∀ q ∈ l, s.rangeLegal q) ∧ ¬ s.rangeLegal r ∧ e = .rangeError r := by
  induction rs with
  | nil => simp [checkRanges]
  | cons r rs ih =>
    constructor
    · intro h
      simp only [checkRanges, bind_eq_error, checkRange_eq_error, checkRange_eq_ok, ih] at h
      obtain ⟨h1, h2⟩ | ⟨_, h1, l, q, k, rfl, h2, h3, h4⟩ := h
      · exact ⟨[], r, rs, rfl, by simp, h1, h2⟩
      · exact ⟨r :: l, q, k, rfl, by simpa [h1] using h2, h3, h4⟩
    · rintro ⟨l, q, k, hl, h2, h3, h4⟩
      simp only [checkRanges, bind_eq_error, checkRange_eq_error, checkRange_eq_ok, ih]
      cases l with
      | nil =>
        obtain ⟨rfl, rfl⟩ : r = q ∧ rs = k := by simpa using hl
        exact .inl ⟨h3, h4⟩
      | cons a l =>
        obtain ⟨rfl, rfl⟩ : r = a ∧ rs = l ++ q :: k := by simpa using hl
        exact .inr ⟨(), h2 r (by simp), l, q, k, rfl, fun x hx => h2 x (by simp [hx]), h3, h4⟩

end Checks

section Operands
variable {s : State} {e : CmdError}

@[simp] theorem stageOperand_eq_ok {c : Chunk} : s.stageOperand = .ok c ↔ s.stage = some c := by
  unfold State.stageOperand; split <;> simp_all

@[simp] theorem stageOperand_eq_error : s.stageOperand = .error e ↔ s.stage = none ∧ e = .noChunk := by
  unfold State.stageOperand; split <;> simp_all [eq_comm]

@[simp] theorem pngOperand_eq_ok {cs : List Chunk} : s.pngOperand = .ok cs ↔ s.png = some cs := by
  unfold State.pngOperand; split <;> simp_all

@[simp] theorem pngOperand_eq_error : s.pngOperand = .error e ↔ s.png = none ∧ e = .noPng := by
  unfold State.pngOperand; split <;> simp_all [eq_comm]

@[simp] theorem findOrFail_eq_ok {cs : List Chunk} {t : ChunkType} {p : Nat × Chunk} :
    findOrFail cs t = .ok p ↔ firstOfType cs t = some p := by
  unfold findOrFail; split <;> simp_all

@[simp] theorem findOrFail_eq_error {cs : List Chunk} {t : ChunkType} :
    findOrFail cs t = .error e ↔ firstOfType cs t = none ∧ e = .chunkNotFound := by
  unfold findOrFail; cases firstOfType cs t <;> simp [eq_comm]

end Operands

section Output
variable {out : List Byte} {s w : State} {e : CmdError}

/-- Output succeeds iff the bytes fit; it then changes BUF and DST_LEN only (20_memory.md R85). -/
theorem output_eq_ok : output out s = .ok w ↔ out.length ≤ s.dstCap.toNat ∧ w = { s with
    buf := Memory.writeBytes s.buf s.dstAddr.toNat out, dstLen := wordOfNat out.length } := by
  unfold output; split <;> simp_all [eq_comm]

/-- Output fails iff the bytes do not fit. -/
theorem output_eq_error : output out s = .error e ↔ s.dstCap.toNat < out.length ∧ e = .outputOverflow := by
  unfold output; split <;> simp_all [eq_comm]

end Output

section Ends
variable {rule : State → Except CmdError State} {s t : State}

/-- A command always ends in a next state: with the rule's working copy, or in the error entry. -/
theorem runRule_cases (h : runRule rule s = .next t) :
    (∃ w, rule s = .ok w ∧ t = completeCommand w) ∨ ∃ e, rule s = .error e ∧ t = raiseError e s := by
  unfold runRule at h
  split at h
  · exact .inl ⟨_, ‹_›, by simpa using h.symm⟩
  · exact .inr ⟨_, ‹_›, by simpa using h.symm⟩

theorem runRule_of_ok {w : State} (h : rule s = .ok w) : runRule rule s = .next (completeCommand w) := by
  simp [runRule, h]

theorem runRule_of_error {e : CmdError} (h : rule s = .error e) : runRule rule s = .next (raiseError e s) := by
  simp [runRule, h]

end Ends

end Sys2Proof.Machine
end

