-- ==== Sys2Proof/Laws/Memory.lean ====
section
/-! SUPPORT. The laws of BUF: reading after writing, the canonical form, and equal contents being equal data. -/

namespace Sys2Proof.Machine

theorem lookup_write (m : Memory) (a : Nat) (b : Byte) (x : Nat) :
    Memory.lookup (Memory.write m a b) x = if x = a then some b else Memory.lookup m x := by
  induction m with
  | nil => simp [Memory.write, Memory.lookup]
  | cons c m ih =>
    obtain ⟨k, v⟩ := c
    simp only [Memory.write]
    split
    · simp [Memory.lookup]
    · split
      · subst_vars
        by_cases hx : x = k <;> simp [Memory.lookup, hx]
      · simp only [Memory.lookup, ih]
        by_cases hx : x = k <;> by_cases hxa : x = a <;> simp_all

@[simp] theorem lookup_write_same (m : Memory) (a : Nat) (b : Byte) : Memory.lookup (Memory.write m a b) a = some b := by
  simp [lookup_write]

theorem lookup_write_ne (m : Memory) {a x : Nat} (b : Byte) (h : x ≠ a) :
    Memory.lookup (Memory.write m a b) x = Memory.lookup m x := by
  simp [lookup_write, h]

/-- A byte sequence written at `a` changes exactly the bytes of `a .. a + length`. -/
theorem lookup_writeBytes (m : Memory) (a : Nat) (bs : List Byte) (x : Nat) :
    Memory.lookup (Memory.writeBytes m a bs) x =
      if a ≤ x ∧ x < a + bs.length then bs[x - a]? else Memory.lookup m x := by
  induction bs generalizing m a with
  | nil => simp [Memory.writeBytes]
  | cons b bs ih =>
    simp only [Memory.writeBytes, ih, lookup_write, List.length_cons]
    by_cases h : x = a
    · subst h; simp
    · by_cases h1 : a + 1 ≤ x ∧ x < a + 1 + bs.length
      · rw [if_pos h1, if_pos (by omega), show x - a = (x - (a + 1)) + 1 by omega, List.getElem?_cons_succ]
      · rw [if_neg h1, if_neg h, if_neg (by omega)]

theorem write_mem {m : Memory} {a : Nat} {b : Byte} {c : Host.Cell} (h : c ∈ Memory.write m a b) :
    c = (a, b) ∨ c ∈ m := by
  induction m with
  | nil => simpa [Memory.write] using h
  | cons d m ih =>
    obtain ⟨k, v⟩ := d
    simp only [Memory.write] at h
    split at h
    · simpa using h
    · split at h
      · simp only [List.mem_cons] at h ⊢
        tauto
      · simp only [List.mem_cons] at h ⊢
        obtain h | h := h
        · exact .inr (.inl h)
        · exact (ih h).imp_right .inr

/-- A write inside BUF keeps the canonical form. -/
theorem write_wf {n : Nat} {m : Memory} {a : Nat} (b : Byte) (hm : Memory.wf n m) (ha : a < n) :
    Memory.wf n (Memory.write m a b) := by
  obtain ⟨hs, hb⟩ := hm
  refine ⟨?_, fun c hc => (write_mem hc).elim (fun h => h ▸ ha) (hb c)⟩
  clear hb
  induction m with
  | nil => simp [Memory.write]
  | cons d m ih =>
    obtain ⟨k, v⟩ := d
    rw [List.pairwise_cons] at hs
    simp only [Memory.write]
    split
    · rename_i hk
      refine List.pairwise_cons.2 ⟨fun c hc => ?_, List.pairwise_cons.2 hs⟩
      rcases List.mem_cons.1 hc with rfl | hc
      · exact hk
      · exact Nat.lt_trans hk (hs.1 c hc)
    · split
      · subst_vars
        exact List.pairwise_cons.2 hs
      · refine List.pairwise_cons.2 ⟨fun c hc => ?_, ih hs.2⟩
        rcases write_mem hc with rfl | hc
        · show k < a
          omega
        · exact hs.1 c hc

/-- A sequence of writes inside BUF keeps the canonical form. -/
theorem writeBytes_wf {n : Nat} {m : Memory} {a : Nat} (bs : List Byte) (hm : Memory.wf n m)
    (ha : a + bs.length ≤ n) : Memory.wf n (Memory.writeBytes m a bs) := by
  induction bs generalizing m a with
  | nil => exact hm
  | cons b bs ih =>
    simp only [List.length_cons] at ha
    exact ih (write_wf b hm (by omega)) (by omega)

/-- The empty memory of a reset is in canonical form. -/
theorem empty_wf (n : Nat) : Memory.wf n [] := by simp [Memory.wf]

/-- The address of a listed byte is listed. -/
theorem lookup_mem {m : Memory} {a : Nat} {b : Byte} (h : Memory.lookup m a = some b) : (a, b) ∈ m := by
  induction m with
  | nil => simp [Memory.lookup] at h
  | cons d m ih =>
    obtain ⟨k, v⟩ := d
    simp only [Memory.lookup] at h
    split at h
    · simp_all
    · exact List.mem_cons_of_mem _ (ih h)

/-- Memories in canonical form with the same known bytes are the same data. -/
theorem memory_ext {n : Nat} {m m' : Memory} (hm : Memory.wf n m) (hm' : Memory.wf n m')
    (h : ∀ a, Memory.lookup m a = Memory.lookup m' a) : m = m' := by
  replace hm := hm.1
  replace hm' := hm'.1
  have lt_none : ∀ {m : Memory} {k : Nat}, (∀ c ∈ m, k < c.1) → Memory.lookup m k = none := by
    intro m k hk
    cases hl : Memory.lookup m k with
    | none => rfl
    | some b => exact absurd (hk _ (lookup_mem hl)) (by simp)
  induction m generalizing m' with
  | nil =>
    cases m' with
    | nil => rfl
    | cons d m' => have := h d.1; simp [Memory.lookup] at this
  | cons c m ih =>
    cases m' with
    | nil => have := h c.1; simp [Memory.lookup] at this
    | cons d m' =>
      obtain ⟨k, v⟩ := c
      obtain ⟨k', v'⟩ := d
      rw [List.pairwise_cons] at hm hm'
      have hk : k = k' := by
        have h1 := h k
        have h2 := h k'
        simp only [Memory.lookup, if_true] at h1 h2
        by_contra hne
        rw [if_neg hne] at h1
        rw [if_neg (Ne.symm hne)] at h2
        have := hm'.1 _ (lookup_mem h1.symm)
        have := hm.1 _ (lookup_mem h2)
        simp only at *
        omega
      subst hk
      have hv : v = v' := by simpa [Memory.lookup] using h k
      subst hv
      congr 1
      refine ih (fun a => ?_) hm.2 hm'.2
      by_cases ha : a = k
      · subst ha
        rw [lt_none hm.1, lt_none hm'.1]
      · simpa [Memory.lookup, ha] using h a

/-- `BUF[x]` after a byte sequence has been written at `a`. -/
theorem byteAt_writeBytes (s : State) (a : Nat) (bs : List Byte) (x : Nat) :
    State.byteAt { s with buf := Memory.writeBytes s.buf a bs } x =
      if a ≤ x ∧ x < a + bs.length then (bs[x - a]?).getD 0 else s.byteAt x := by
  by_cases h : a ≤ x ∧ x < a + bs.length
  · have hx : x - a < bs.length := by omega
    simp [State.byteAt, lookup_writeBytes, h, hx]
  · simp [State.byteAt, lookup_writeBytes, h]

@[simp] theorem readBytes_length (s : State) (a n : Nat) : (s.readBytes a n).length = n := by
  induction n generalizing a with
  | zero => rfl
  | succ n ih => simp [State.readBytes, ih]

@[simp] theorem rangeBytes_length (s : State) (r : RangeName) : (s.rangeBytes r).length = s.rangeLen r := by
  simp [State.rangeBytes]

theorem readBytes_append (s : State) (a m n : Nat) :
    s.readBytes a (m + n) = s.readBytes a m ++ s.readBytes (a + m) n := by
  induction m generalizing a with
  | zero => simp [State.readBytes]
  | succ m ih => simp [Nat.succ_add, State.readBytes, ih, Nat.add_assoc]

theorem readBytes_getElem (s : State) (a n i : Nat) (h : i < (s.readBytes a n).length) :
    (s.readBytes a n)[i] = s.byteAt (a + i) := by
  induction n generalizing a i with
  | zero => simp [State.readBytes] at h
  | succ n ih =>
    cases i with
    | zero => simp [State.readBytes]
    | succ i =>
      simp only [State.readBytes, List.getElem_cons_succ]
      rw [ih]
      congr 1
      omega

/-- What was written is read back. -/
theorem readBytes_writeBytes (s : State) (a : Nat) (bs : List Byte) :
    State.readBytes { s with buf := Memory.writeBytes s.buf a bs } a bs.length = bs := by
  apply List.ext_getElem (by simp)
  intro i h1 h2
  rw [readBytes_getElem, byteAt_writeBytes, if_pos (by simp at h1; omega)]
  simp [List.getElem?_eq_getElem h2]

end Sys2Proof.Machine
end

