-- ==== Sys2Proof/Laws/Bytes.lean ====
section
/-! SUPPORT. The word and byte conversions are inverse to each other (00_scope.md R9). -/

namespace Sys2Proof.Machine

/-- `be32` is the number R9 gives. -/
theorem be32_toNat (b0 b1 b2 b3 : Byte) :
    (be32 b0 b1 b2 b3).toNat = b0.toNat * 2 ^ 24 + b1.toNat * 2 ^ 16 + b2.toNat * 2 ^ 8 + b3.toNat := by
  have h (m n : Nat) (x : BitVec m) (y : BitVec n) : (x ++ y).toNat = x.toNat * 2 ^ n + y.toNat := by
    rw [BitVec.toNat_append, Nat.shiftLeft_eq, Nat.mul_comm, Nat.two_pow_add_eq_or_of_lt y.isLt]
  unfold be32
  simp only [h]
  omega

/-- `be32(u32be(v)) = v` (R9). -/
@[simp] theorem be32_u32be (v : Word) :
    be32 (v.extractLsb' 24 8) (v.extractLsb' 16 8) (v.extractLsb' 8 8) (v.extractLsb' 0 8) = v := by
  apply BitVec.eq_of_toNat_eq
  rw [be32_toNat]
  simp only [BitVec.extractLsb'_toNat, Nat.shiftRight_eq_div_pow]
  have := v.isLt
  omega

/-- `u32be(be32(s)) = s` (R9). -/
@[simp] theorem u32be_be32 (b0 b1 b2 b3 : Byte) : u32be (be32 b0 b1 b2 b3) = [b0, b1, b2, b3] := by
  have h0 := b0.isLt
  have h1 := b1.isLt
  have h2 := b2.isLt
  have h3 := b3.isLt
  simp only [u32be, List.cons.injEq, and_true]
  refine ⟨?_, ?_, ?_, ?_⟩ <;> apply BitVec.eq_of_toNat_eq <;>
    simp only [BitVec.extractLsb'_toNat, Nat.shiftRight_eq_div_pow, be32_toNat] <;> omega

@[simp] theorem u32be_length (v : Word) : (u32be v).length = 4 := rfl

@[simp] theorem bytes_length (t : ChunkType) : t.bytes.length = 4 := rfl

@[simp] theorem sig_length : sig.length = 8 := rfl

/-- SENTINEL written out (44_orchestration.md R234). -/
theorem sentinel_eq : sentinel =
    [0x4E, 0x6F, 0x20, 0x73, 0x65, 0x63, 0x72, 0x65, 0x74, 0x20, 0x6D, 0x65, 0x73, 0x73, 0x61, 0x67, 0x65,
      0x20, 0x66, 0x6F, 0x75, 0x6E, 0x64] := rfl

@[simp] theorem sentinel_length : sentinel.length = 23 := rfl

/-- The type of a type's word is the type. -/
@[simp] theorem typeOfWord_toWord (t : ChunkType) : typeOfWord t.toWord = t := by
  have h := u32be_be32 t.t0 t.t1 t.t2 t.t3
  simp only [u32be, List.cons.injEq, and_true] at h
  obtain ⟨h0, h1, h2, h3⟩ := h
  simp only [typeOfWord, ChunkType.toWord]
  rw [h0, h1, h2, h3]

/-- The word of a word's type is the word. -/
@[simp] theorem toWord_typeOfWord (v : Word) : (typeOfWord v).toWord = v := be32_u32be v

theorem wordOfNat_toNat {n : Nat} (h : n < 2 ^ 32) : (wordOfNat n).toNat = n := by
  simpa [wordOfNat] using h

@[simp] theorem wordOfNat_of_word (v : Word) : wordOfNat v.toNat = v := by
  simp [wordOfNat]

end Sys2Proof.Machine
end

