-- ==== Sys2Proof/Laws/Crc.lean ====
section
/-! SUPPORT. The algebra of the CRC register: folding a concatenation, linearity over xor, and that no step loses information. -/

namespace Sys2Proof.Machine

@[simp] theorem crcFold_nil (acc : Word) : crcFold acc [] = acc := rfl

@[simp] theorem crcFold_cons (acc : Word) (b : Byte) (s : List Byte) : crcFold acc (b :: s) = crcFold (crcStep acc b) s := rfl

/-- Folding a concatenation is folding its parts one after the other. -/
theorem crcFold_append (acc : Word) (s t : List Byte) : crcFold acc (s ++ t) = crcFold (crcFold acc s) t := by
  induction s generalizing acc with
  | nil => rfl
  | cons b s ih => simp [ih]

/-- One round by bits: the round moves every bit down by one and adds the polynomial if bit 0 is set. -/
theorem crcBit_getLsbD (a : Word) (i : Nat) :
    (crcBit a).getLsbD i = (a.getLsbD (i + 1) ^^ (a.getLsbD 0 && crcPoly.getLsbD i)) := by
  unfold crcBit
  cases h : a.getLsbD 0 <;> simp [Nat.add_comm]

/-- A round is linear over xor. -/
theorem crcBit_xor (a b : Word) : crcBit (a ^^^ b) = crcBit a ^^^ crcBit b := by
  apply BitVec.eq_of_getLsbD_eq
  intro i _
  simp only [crcBit_getLsbD, BitVec.getLsbD_xor]
  cases a.getLsbD 0 <;> cases b.getLsbD 0 <;> cases a.getLsbD (i + 1) <;> cases b.getLsbD (i + 1) <;>
    cases crcPoly.getLsbD i <;> rfl

/-- A round sends only 0 to 0: bit 31 of its result is bit 0 of its input. -/
theorem crcBit_eq_zero {a : Word} (h : crcBit a = 0) : a = 0 := by
  have h31 := crcBit_getLsbD a 31
  have h0 : a.getLsbD 0 = false := by simpa [h, crcPoly] using h31
  apply BitVec.eq_of_getLsbD_eq
  intro i hi
  cases i with
  | zero => rw [h0]; simp
  | succ i =>
    have := crcBit_getLsbD a i
    rw [h, h0] at this
    simpa using this.symm

theorem crcBits_xor (n : Nat) (a b : Word) : crcBits n (a ^^^ b) = crcBits n a ^^^ crcBits n b := by
  induction n generalizing a b with
  | zero => rfl
  | succ n ih => simp [crcBits, crcBit_xor, ih]

theorem crcBits_eq_zero {n : Nat} {a : Word} (h : crcBits n a = 0) : a = 0 := by
  induction n generalizing a with
  | zero => exact h
  | succ n ih => exact crcBit_eq_zero (ih h)

theorem crcBits_add (m n : Nat) (a : Word) : crcBits (m + n) a = crcBits n (crcBits m a) := by
  induction m generalizing a with
  | zero => simp [crcBits]
  | succ m ih => rw [Nat.succ_add]; exact ih _

/-- Rounds lose no information. -/
theorem crcBits_injective {n : Nat} {a b : Word} (h : crcBits n a = crcBits n b) : a = b := by
  have h1 : crcBits n (a ^^^ b) = 0 := by rw [crcBits_xor, h, BitVec.xor_self]; rfl
  have h2 := congrArg (· ^^^ b) (crcBits_eq_zero h1)
  simpa [BitVec.xor_assoc] using h2

/-- From one register, different bytes lead to different registers. -/
theorem crcStep_byte_injective {acc : Word} {b c : Byte} (h : crcStep acc b = crcStep acc c) : b = c := by
  have h1 := congrArg (acc ^^^ ·) (crcBits_injective h)
  have h2 : b.setWidth 32 = c.setWidth 32 := by simpa [← BitVec.xor_assoc] using h1
  have h3 := congrArg BitVec.toNat h2
  simp only [BitVec.toNat_setWidth] at h3
  apply BitVec.eq_of_toNat_eq
  have := b.isLt
  have := c.isLt
  omega

/-- One sequence folded from different registers leads to different registers. -/
theorem crcFold_injective {a b : Word} {s : List Byte} (h : crcFold a s = crcFold b s) : a = b := by
  induction s generalizing a b with
  | nil => exact h
  | cons c s ih =>
    have h1 := congrArg (· ^^^ c.setWidth 32) (crcBits_injective (ih h))
    simpa [BitVec.xor_assoc] using h1

end Sys2Proof.Machine
end

