-- ==== Sys2Proof/Laws/Frames.lean ====
section
/-! SUPPORT. What the parsers of frames and streams can answer (42_chunk.md R181, 43_png.md R200), and the sizes of what the serializers
write (R188, R208). -/

namespace Sys2Proof.Machine

@[simp] theorem chunkBytes_length (c : Chunk) : (chunkBytes c).length = 12 + c.data.length := by
  simp [chunkBytes]; omega

/-- A byte sequence of 4 or more begins with a word. -/
theorem exists_u32be {r : List Byte} (h : 4 ≤ r.length) : ∃ v rest, r = u32be v ++ rest := by
  match r, h with
  | a :: b :: c :: d :: rest, _ => exact ⟨be32 a b c d, rest, by simp⟩

/-- A byte sequence of 4 or more begins with a type. -/
theorem exists_type {r : List Byte} (h : 4 ≤ r.length) : ∃ (t : ChunkType) (rest : List Byte), r = t.bytes ++ rest := by
  match r, h with
  | a :: b :: c :: d :: rest, _ => exact ⟨{ t0 := a, t1 := b, t2 := c, t3 := d }, rest, rfl⟩

theorem parseChunk_short {r : List Byte} (h : r.length < 8) : parseChunk r = .error (.truncated .header) := by
  unfold parseChunk
  split
  · simp at h; omega
  · rfl

/-- ParseChunk of a length field, a type field and what follows. -/
theorem parseChunk_fields (l : Word) (t : ChunkType) (body : List Byte) :
    parseChunk (u32be l ++ (t.bytes ++ body)) =
      if body.length < l.toNat then .error (.truncated .data)
      else
        match body.drop l.toNat with
        | c0 :: c1 :: c2 :: c3 :: _ =>
          if be32 c0 c1 c2 c3 ≠ crc32 (t.bytes ++ body.take l.toNat) then .error .crcMismatch
          else .ok ({ ctype := t, data := body.take l.toNat, crc := be32 c0 c1 c2 c3 }, 12 + l.toNat)
        | _ => .error (.truncated .crc) := by
  rw [show u32be l ++ (t.bytes ++ body) = l.extractLsb' 24 8 :: l.extractLsb' 16 8 :: l.extractLsb' 8 8 ::
    l.extractLsb' 0 8 :: t.t0 :: t.t1 :: t.t2 :: t.t3 :: body from rfl]
  simp only [parseChunk, be32_u32be] <;> rfl

/-- ParseChunk of a whole frame with the crc `c`, and what follows. -/
theorem parseChunk_frame (t : ChunkType) (d rest : List Byte) (c : Word) (hd : d.length < 2 ^ 32) :
    parseChunk (u32be (wordOfNat d.length) ++ (t.bytes ++ (d ++ (u32be c ++ rest)))) =
      if c ≠ crc32 (t.bytes ++ d) then .error .crcMismatch
      else .ok ({ ctype := t, data := d, crc := c }, 12 + d.length) := by
  rw [parseChunk_fields, wordOfNat_toNat hd, if_neg (by simp)]
  simp [u32be]

/-- ParseChunk succeeds exactly on a sound chunk's frame, with anything after it. -/
theorem parseChunk_eq_ok {r : List Byte} {p : Chunk × Nat} :
    parseChunk r = .ok p ↔ ∃ rest, r = chunkBytes p.1 ++ rest ∧ p.1.Sound ∧ p.2 = 12 + p.1.data.length := by
  constructor
  · intro h
    by_cases h8 : r.length < 8
    · simp [parseChunk_short h8] at h
    obtain ⟨l, r1, rfl⟩ := exists_u32be (r := r) (by omega)
    obtain ⟨t, body, rfl⟩ := exists_type (r := r1) (by simp at h8; omega)
    rw [parseChunk_fields] at h
    split at h
    · simp at h
    split at h
    · split at h
      · simp at h
      · rename_i hl _ c0 c1 c2 c3 rest hdrop hc
        cases h
        have hlen : (body.take l.toNat).length = l.toNat := by simp; omega
        refine ⟨rest, ?_, ⟨by simpa using hc, ?_⟩, ?_⟩
        · simp only [chunkBytes, hlen, wordOfNat_of_word, u32be_be32, List.append_assoc]
          rw [show [c0, c1, c2, c3] ++ rest = body.drop l.toNat by rw [hdrop]; rfl, List.take_append_drop]
        · rw [hlen]; have := l.isLt; omega
        · simp only [hlen]
    · simp at h
  · rintro ⟨rest, rfl, ⟨hc, hl⟩, hk⟩
    obtain ⟨⟨t, d, c⟩, k⟩ := p
    simp only at hc hl hk
    simp only [chunkBytes, List.append_assoc]
    rw [parseChunk_frame _ _ _ _ (by omega), if_neg (by simpa using hc), hk]

/-- The errors of ParseChunk. -/
theorem parseChunk_error {r : List Byte} {e : CmdError} (h : parseChunk r = .error e) :
    (∃ p, e = .truncated p) ∨ e = .crcMismatch := by
  unfold parseChunk at h
  split at h
  · simp only at h
    split at h
    · cases h; exact .inl ⟨_, rfl⟩
    · split at h
      · split at h
        · cases h; exact .inr rfl
        · simp at h
      · cases h; exact .inl ⟨_, rfl⟩
  · cases h; exact .inl ⟨_, rfl⟩

@[simp] theorem checkRoom_eq_ok {cfg : Config} {count total n : Nat} {u : Unit} :
    checkRoom cfg count total n = .ok u ↔ count + 1 ≤ cfg.maxChunks ∧ total + n ≤ cfg.storeBytes := by
  simp [checkRoom, bind_eq_ok]

theorem checkRoom_eq_error {cfg : Config} {count total n : Nat} {e : CmdError} :
    checkRoom cfg count total n = .error e ↔
      (cfg.maxChunks < count + 1 ∧ e = .capacityExceeded .chunks) ∨
      (count + 1 ≤ cfg.maxChunks ∧ cfg.storeBytes < total + n ∧ e = .capacityExceeded .bytes) := by
  simp [checkRoom, bind_eq_error]

@[simp] theorem dataTotal_nil : dataTotal [] = 0 := rfl

@[simp] theorem dataTotal_cons (c : Chunk) (cs : List Chunk) : dataTotal (c :: cs) = c.data.length + dataTotal cs := by
  simp [dataTotal]

@[simp] theorem dataTotal_append (cs ds : List Chunk) : dataTotal (cs ++ ds) = dataTotal cs + dataTotal ds := by
  simp [dataTotal]

theorem dataTotal_mem {c : Chunk} {cs : List Chunk} (h : c ∈ cs) : c.data.length ≤ dataTotal cs := by
  obtain ⟨l, r, rfl⟩ := List.append_of_mem h
  simp only [dataTotal_append, dataTotal_cons]
  omega

theorem dataTotal_sublist {cs ds : List Chunk} (h : cs.Sublist ds) : dataTotal cs ≤ dataTotal ds := by
  induction h with
  | slnil => simp
  | cons _ _ ih => simp; omega
  | cons_cons _ _ ih => simp; omega

/-- The fuel of the frame loop does not matter once there is one unit for each byte (43_png.md R200: "k >= 12 at every
pass"). -/
theorem parseFrames_fuel (cfg : Config) {f g : Nat} {b : List Byte} (hf : b.length ≤ f) (hg : b.length ≤ g)
    (cs : List Chunk) (total : Nat) : parseFrames cfg f b cs total = parseFrames cfg g b cs total := by
  induction f generalizing g b cs total with
  | zero =>
    obtain rfl : b = [] := List.length_eq_zero_iff.1 (by omega)
    cases g <;> simp [parseFrames]
  | succ f ih =>
    cases g with
    | zero =>
      obtain rfl : b = [] := List.length_eq_zero_iff.1 (by omega)
      simp [parseFrames]
    | succ g =>
      simp only [parseFrames]
      split
      · rfl
      · cases hp : parseChunk b with
        | error e => rfl
        | ok p =>
          obtain ⟨rest, hb, -, hk⟩ := parseChunk_eq_ok.1 hp
          have hlen : b.length = 12 + p.1.data.length + rest.length := by rw [hb]; simp
          simp only [ok_bind]
          cases checkRoom cfg cs.length total p.1.data.length with
          | error e => rfl
          | ok u =>
            simp only [ok_bind]
            exact ih (by simp; omega) (by simp; omega) _ _

/-- The loop over no bytes. -/
@[simp] theorem parseFrames_nil (cfg : Config) (f : Nat) (cs : List Chunk) (total : Nat) :
    parseFrames cfg f [] cs total = .ok cs := by
  cases f <;> simp [parseFrames]

/-- One pass of the loop over a sound chunk's frame. -/
theorem parseFrames_frame (cfg : Config) {f : Nat} {c : Chunk} {rest : List Byte} (hc : c.Sound)
    (hf : (chunkBytes c ++ rest).length ≤ f) (cs : List Chunk) (total : Nat) :
    parseFrames cfg f (chunkBytes c ++ rest) cs total =
      (checkRoom cfg cs.length total c.data.length >>= fun _ =>
        parseFrames cfg f rest (cs ++ [c]) (total + c.data.length)) := by
  cases f with
  | zero => simp at hf
  | succ f =>
    have hp : parseChunk (chunkBytes c ++ rest) = .ok (c, 12 + c.data.length) :=
      parseChunk_eq_ok.2 ⟨rest, rfl, hc, rfl⟩
    have hne : (chunkBytes c ++ rest).isEmpty = false := by simp [chunkBytes, u32be]
    have hdrop : (chunkBytes c ++ rest).drop (12 + c.data.length) = rest := by
      rw [← chunkBytes_length, List.drop_left]
    rw [parseFrames, hne, hp]
    simp only [Bool.false_eq_true, if_false, ok_bind, hdrop]
    cases checkRoom cfg cs.length total c.data.length with
    | error e => rfl
    | ok u =>
      simp only [ok_bind]
      simp only [List.length_append, chunkBytes_length] at hf
      exact parseFrames_fuel cfg (by omega) (by omega) _ _

/-- The loop over the frames of sound chunks for which there is room. -/
theorem parseFrames_frames (cfg : Config) {f : Nat} (ds : List Chunk) {rest : List Byte} (hs : ∀ c ∈ ds, c.Sound)
    (hf : (ds.flatMap chunkBytes ++ rest).length ≤ f) (cs : List Chunk) (total : Nat)
    (hn : (cs ++ ds).length ≤ cfg.maxChunks) (ht : total + dataTotal ds ≤ cfg.storeBytes) :
    parseFrames cfg f (ds.flatMap chunkBytes ++ rest) cs total =
      parseFrames cfg f rest (cs ++ ds) (total + dataTotal ds) := by
  induction ds generalizing cs total with
  | nil => simp
  | cons c ds ih =>
    simp only [List.flatMap_cons, List.append_assoc] at hf ⊢
    simp only [List.length_append, List.length_cons, dataTotal_cons] at hn ht
    have hroom : checkRoom cfg cs.length total c.data.length = .ok () :=
      checkRoom_eq_ok.2 ⟨by omega, by omega⟩
    rw [parseFrames_frame cfg (hs c (by simp)) hf, hroom, ok_bind,
      ih (fun d hd => hs d (by simp [hd])) (by simp at hf ⊢; omega) _ _ (by simp; omega) (by omega)]
    simp [Nat.add_assoc]

/-- What the loop can answer: the frames of sound chunks within the capacities, or an error of a stream. -/
theorem parseFrames_ok {cfg : Config} {f : Nat} {b : List Byte} {cs ds : List Chunk} {total : Nat}
    (hf : b.length ≤ f) (h : parseFrames cfg f b cs total = .ok ds) :
    ∃ es, ds = cs ++ es ∧ b = es.flatMap chunkBytes ∧ (∀ c ∈ es, c.Sound) ∧
      (es ≠ [] → ds.length ≤ cfg.maxChunks ∧ total + dataTotal es ≤ cfg.storeBytes) := by
  induction f generalizing b cs total with
  | zero =>
    obtain rfl : b = [] := List.length_eq_zero_iff.1 (by omega)
    exact ⟨[], by simpa [parseFrames, eq_comm] using h⟩
  | succ f ih =>
    by_cases hb : b = []
    · subst hb
      exact ⟨[], by simpa [eq_comm] using h⟩
    · simp only [parseFrames, List.isEmpty_iff, hb, if_false, bind_eq_ok, checkRoom_eq_ok] at h
      obtain ⟨p, hp, -, ⟨h1, h2⟩, h3⟩ := h
      obtain ⟨rest, rfl, hs, hk⟩ := parseChunk_eq_ok.1 hp
      have hdrop : (chunkBytes p.1 ++ rest).drop p.2 = rest := by
        rw [hk, ← chunkBytes_length, List.drop_left]
      rw [hdrop] at h3
      simp only [List.length_append, chunkBytes_length] at hf
      obtain ⟨es, rfl, rfl, h4, h5⟩ := ih (by omega) h3
      refine ⟨p.1 :: es, by simp, by simp, by simpa using ⟨hs, h4⟩, fun _ => ?_⟩
      by_cases hes : es = []
      · subst hes; simp; omega
      · have := h5 hes
        simp at this ⊢
        omega

/-- What ParsePng can answer: the stream of sound chunks within the capacities. -/
theorem parsePng_ok {cfg : Config} {b : List Byte} {cs : List Chunk} (h : parsePng cfg b = .ok cs) :
    b = pngBytes cs ∧ (∀ c ∈ cs, c.Sound) ∧ cs.length ≤ cfg.maxChunks ∧ dataTotal cs ≤ cfg.storeBytes := by
  unfold parsePng at h
  split at h
  · simp at h
  split at h
  · simp at h
  rename_i h8 hsig
  obtain ⟨es, rfl, hb, hs, hroom⟩ := parseFrames_ok (by simp) h
  refine ⟨?_, by simpa using hs, ?_⟩
  · rw [pngBytes, ← hb, ← Decidable.not_not.1 hsig, List.take_append_drop]
  · by_cases hcs : cs = []
    · subst hcs; simp
    · simpa using hroom hcs

/-- ParsePng of SIG and what follows. -/
theorem parsePng_sig (cfg : Config) (rest : List Byte) :
    parsePng cfg (sig ++ rest) = parseFrames cfg (sig ++ rest).length rest [] 0 := by
  unfold parsePng
  rw [if_neg (by simp), if_neg]
  · rw [← sig_length, List.drop_left]
  · rw [← sig_length, List.take_left]; simp

/-- The errors of a stream. -/
theorem parsePng_error {cfg : Config} {b : List Byte} {e : CmdError} (h : parsePng cfg b = .error e) :
    (∃ r, e = .invalidSignature r) ∨ (∃ p, e = .truncated p) ∨ e = .crcMismatch ∨ ∃ c, e = .capacityExceeded c := by
  have loop : ∀ f (b : List Byte) cs total, parseFrames cfg f b cs total = .error e →
      (∃ p, e = .truncated p) ∨ e = .crcMismatch ∨ ∃ c, e = .capacityExceeded c := by
    intro f
    induction f with
    | zero => intro b cs total h; simp [parseFrames] at h
    | succ f ih =>
      intro b cs total h
      simp only [parseFrames] at h
      split at h
      · simp at h
      · simp only [bind_eq_error, checkRoom_eq_error] at h
        obtain h | ⟨p, -, (⟨-, rfl⟩ | ⟨-, -, rfl⟩) | ⟨-, -, h⟩⟩ := h
        · exact (parseChunk_error h).imp_right .inl
        · exact .inr (.inr ⟨_, rfl⟩)
        · exact .inr (.inr ⟨_, rfl⟩)
        · exact ih _ _ _ h
  unfold parsePng at h
  split at h
  · cases h; exact .inl ⟨_, rfl⟩
  split at h
  · cases h; exact .inl ⟨_, rfl⟩
  · exact .inr (loop _ _ _ _ h)

/-- The errors of TypeFromString. -/
theorem typeFromString_error {s : List Byte} {e : CmdError} (h : typeFromString s = .error e) :
    ∃ r, e = .invalidChunkType r := by
  unfold typeFromString at h
  split at h
  · split at h
    · simp at h
    · cases h; exact ⟨_, rfl⟩
  · cases h; exact ⟨_, rfl⟩

/-- TypeFromString answers its 4 bytes. -/
theorem typeFromString_ok {s : List Byte} {t : ChunkType} (h : typeFromString s = .ok t) :
    s = t.bytes ∧ ∀ b ∈ s, isLetter b = true := by
  unfold typeFromString at h
  split at h
  · split at h
    · rename_i hl
      cases h
      refine ⟨rfl, ?_⟩
      simpa [and_assoc] using hl
    · simp at h
  · simp at h

/-- A chunk that NewChunk makes from bytes with a Word32 length is sound (10_state.md R51). -/
theorem newChunk_sound (t : ChunkType) {d : List Byte} (h : d.length ≤ 2 ^ 32 - 1) : (newChunk t d).Sound := ⟨rfl, h⟩

theorem pngBytes_length (cs : List Chunk) : (pngBytes cs).length = 8 + 12 * cs.length + dataTotal cs := by
  induction cs with
  | nil => rfl
  | cons c cs ih =>
    simp only [pngBytes, List.length_append, List.flatMap_cons, chunkBytes_length, sig_length, List.length_cons,
      dataTotal_cons] at ih ⊢
    omega

theorem pngBytes_append (cs ds : List Chunk) : pngBytes (cs ++ ds) = pngBytes cs ++ ds.flatMap chunkBytes := by
  simp [pngBytes]

/-- The first chunk of a type, by the chunks before it and after it. -/
theorem firstOfType_eq_some {cs : List Chunk} {t : ChunkType} {p : Nat × Chunk} :
    firstOfType cs t = some p ↔
      ∃ l r, cs = l ++ p.2 :: r ∧ l.length = p.1 ∧ p.2.ctype = t ∧ ∀ d ∈ l, d.ctype ≠ t := by
  induction cs generalizing p with
  | nil => simp [firstOfType]
  | cons c cs ih =>
    simp only [firstOfType]
    split
    · rename_i hc
      constructor
      · intro h
        cases h
        exact ⟨[], cs, rfl, rfl, hc, by simp⟩
      · rintro ⟨l, r, h1, h2, h3, h4⟩
        cases l with
        | nil => simp at h1 h2; simp [h1.1, h2]
        | cons d l =>
          simp at h1
          exact absurd hc (by rw [h1.1]; exact h4 d (by simp))
    · rename_i hc
      constructor
      · intro h
        split at h
        · rename_i i d hd
          cases h
          obtain ⟨l, r, rfl, h2, h3, h4⟩ := ih.1 hd
          exact ⟨c :: l, r, rfl, by simpa using h2, h3, by simpa using ⟨hc, h4⟩⟩
        · simp at h
      · rintro ⟨l, r, h1, h2, h3, h4⟩
        cases l with
        | nil => simp at h1; exact absurd h3 (by rw [← h1.1]; exact hc)
        | cons d l =>
          simp only [List.cons_append, List.cons.injEq] at h1
          simp only [List.length_cons] at h2
          have := ih (p := (l.length, p.2)).2 ⟨l, r, h1.2, rfl, h3, fun x hx => h4 x (by simp [hx])⟩
          rw [this]
          simp [h2]

theorem firstOfType_eq_none {cs : List Chunk} {t : ChunkType} :
    firstOfType cs t = none ↔ ∀ c ∈ cs, c.ctype ≠ t := by
  induction cs with
  | nil => simp [firstOfType]
  | cons c cs ih =>
    simp only [firstOfType]
    split
    · simp_all
    · split <;> simp_all

/-- Removing the element after `l`. -/
@[simp] theorem removeAt_append (l : List Chunk) (c : Chunk) (r : List Chunk) :
    removeAt (l ++ c :: r) l.length = l ++ r := by
  simp [removeAt, List.drop_append]

theorem removeAt_sublist (cs : List Chunk) (i : Nat) : (removeAt cs i).Sublist cs := by
  conv => rhs; rw [← List.take_append_drop i cs]
  exact (List.Sublist.refl _).append (by rw [← List.drop_drop]; exact List.drop_sublist 1 _)

end Sys2Proof.Machine
end

