-- ==== Sys2Proof/Laws/Output.lean ====
section
/-! SUPPORT. What `Output` has done, in the words of the claims (20_memory.md R85). -/

namespace Sys2Proof.Machine

/-- A state whose BUF and DST_LEN are what `Output(out)` leaves satisfies `State.Outputs`. -/
theorem outputs_of {s t : State} {out : List Byte} (h : out.length ≤ s.dstCap.toNat)
    (hb : t.buf = Memory.writeBytes s.buf s.dstAddr.toNat out) (hr : t.resetCount = s.resetCount)
    (hl : t.dstLen = wordOfNat out.length) : s.Outputs t out := by
  have hlen : t.dstLen.toNat = out.length := by
    rw [hl, wordOfNat_toNat (by have := s.dstCap.isLt; omega)]
  have hbyte : ∀ a, t.byteAt a = State.byteAt { s with buf := Memory.writeBytes s.buf s.dstAddr.toNat out } a :=
    fun a => byteAt_congr (s := { s with buf := Memory.writeBytes s.buf s.dstAddr.toNat out }) hb hr a
  refine ⟨hlen, ?_, fun a ha => ?_⟩
  · rw [State.bytesAt, hlen, readBytes_congr hbyte, readBytes_writeBytes]
  · rw [hbyte, byteAt_writeBytes, if_neg (by omega)]

/-- The bytes of a range that `Output` did not touch. -/
theorem bytesAt_of_outputs {s t : State} {out : List Byte} (h : s.Outputs t out) {a n : Word}
    (hd : a.toNat + n.toNat ≤ s.dstAddr.toNat ∨ s.dstAddr.toNat + out.length ≤ a.toNat) :
    t.bytesAt a n = s.bytesAt a n := by
  apply List.ext_getElem (by simp [State.bytesAt])
  intro i h1 h2
  simp only [State.bytesAt, readBytes_length] at h1
  simp only [State.bytesAt, readBytes_getElem]
  exact h.2.2 _ (by omega)

@[simp] theorem bytesAt_length (s : State) (a n : Word) : (s.bytesAt a n).length = n.toNat := by simp [State.bytesAt]

end Sys2Proof.Machine
end

