-- ==== Sys2Proof/Laws/Engine.lean ====
section
/-! SUPPORT. What a step can be (10_state.md R30), what the outside's step can be, and the slots of the register window. -/

namespace Sys2Proof.Machine

/-- The cases of a step: the engine's on a pending command, the outside's, or nothing. -/
theorem step_cases {s t : State} (h : step s = .next t) :
    (s.status.busy = true ∧ engineStep s.takeTurn = .next t) ∨
    (s.script ≠ [] ∧ hostStep s.takeTurn = .next t) ∨ t = s := by
  unfold step at h
  split at h
  · rename_i hm
    refine .inl ⟨?_, h⟩
    unfold State.mover at hm
    split at hm <;> simp_all
  · rename_i hm
    refine .inr (.inl ⟨?_, h⟩)
    unfold State.mover at hm
    split at hm <;> simp_all
  · cases h; exact .inr (.inr rfl)

/-- The cases of the engine's step: the command's meaning, or ILLEGAL_COMMAND. -/
theorem engineStep_cases {s t : State} (h : engineStep s = .next t) :
    (∃ i, decode s.cmd = .ok i ∧ exec i s = .next t) ∨
    ∃ r, decode s.cmd = .error r ∧ t = raiseError (.illegalCommand r) s := by
  unfold engineStep pendingCommand at h
  split at h
  · exact .inl ⟨_, ‹_›, h⟩
  · cases h; exact .inr ⟨_, ‹_›, rfl⟩

@[simp] theorem takeTurn_status (s : State) : s.takeTurn.status = s.status := by
  rcases takeTurn_eq s with h | h <;> rw [h]

@[simp] theorem takeTurn_script (s : State) : s.takeTurn.script = s.script := by
  rcases takeTurn_eq s with h | h <;> rw [h]

@[simp] theorem takeTurn_cmd (s : State) : s.takeTurn.cmd = s.cmd := by
  rcases takeTurn_eq s with h | h <;> rw [h]

/-- A register write changes nothing, or the register alone, or starts a command. -/
theorem writeReg_cfg (s : State) (r : RegName) (v : Word) : (s.writeReg r v).cfg = s.cfg := by cases r <;> rfl

/-- The slot at the offset of a register is that register. -/
@[simp] theorem slotAt_offset (r : RegName) : slotAt r.offset = .reg r := by cases r <;> rfl

/-- The reserved offsets (10_state.md R53). -/
theorem slotAt_reserved {off : Nat} (h1 : 0x68 ≤ off) (h2 : off ≤ 0xFC) (h3 : off % 4 = 0) :
    slotAt off = .reserved := by
  have hne : RegName.all.find? (fun r => decide (r.offset = off)) = none := by
    rw [List.find?_eq_none]
    intro r _ hr
    have : r.offset = off := by simpa using hr
    subst this
    revert h1
    cases r <;> decide
  unfold slotAt
  rw [if_neg (by omega), if_neg (by omega), hne]

end Sys2Proof.Machine
end

