-- ==== Sys2Proof/Laws/Rules.lean ====
section
/-! SUPPORT. The rule of each command, and for each rule when it succeeds and what its working copy is then. The provers cite these
instead of unfolding a rule. -/

namespace Sys2Proof.Machine

/-- The rule of each command. -/
def ruleOf (i : Instr) : State → Except CmdError State :=
  match i with
  | .nop => nopRule
  | .crcInit => crcInitRule
  | .crcUpdate => crcUpdateRule
  | .crcFinal => crcFinalRule
  | .crc32 => crc32Rule
  | .crcCheck => crcCheckRule
  | .typeLoad => typeLoadRule
  | .typeFromString => typeFromStringRule
  | .typeIsValid => predicateRule ChunkType.isValid
  | .typeIsCritical => predicateRule ChunkType.isCritical
  | .typeIsPublic => predicateRule ChunkType.isPublic
  | .typeIsPrivate => predicateRule ChunkType.isPrivate
  | .typeIsReservedBitValid => predicateRule ChunkType.isReservedBitValid
  | .typeIsSafeToCopy => predicateRule ChunkType.isSafeToCopy
  | .chunkNew => chunkNewRule
  | .chunkParse => chunkParseRule
  | .chunkSerialize => chunkSerializeRule
  | .chunkData => chunkDataRule
  | .chunkToString => chunkToStringRule
  | .pngParse => pngParseRule
  | .pngSerialize => pngSerializeRule
  | .pngAppend => pngAppendRule
  | .pngRemove => pngRemoveRule
  | .pngFind => pngFindRule
  | .pngGet => pngGetRule
  | .pngHeader => pngHeaderRule
  | .opEncode => opEncodeRule
  | .opDecode => opDecodeRule
  | .opRemove => opRemoveRule

/-- The meaning of every command is its rule, run as one `EngineStep`. -/
theorem exec_eq_runRule (i : Instr) (s : State) : exec i s = runRule (ruleOf i) s := by cases i <;> rfl

/-- What a command can do: complete with its rule's working copy, or enter its rule's error. -/
theorem exec_cases {i : Instr} {s t : State} (h : exec i s = .next t) :
    (∃ w, ruleOf i s = .ok w ∧ t = completeCommand w) ∨ ∃ e, ruleOf i s = .error e ∧ t = raiseError e s :=
  runRule_cases (exec_eq_runRule i s ▸ h)

section Rules
variable {s w : State}

theorem nopRule_eq_ok : nopRule s = .ok w ↔ w = s := by simp [nopRule, eq_comm (a := w)]

theorem crcInitRule_eq_ok : crcInitRule s = .ok w ↔ w = { s with crcAcc := crcOnes } := by simp [crcInitRule, eq_comm (a := w)]

theorem crcUpdateRule_eq_ok : crcUpdateRule s = .ok w ↔
    s.rangeLegal .src ∧ w = { s with crcAcc := crcFold s.crcAcc (s.rangeBytes .src) } := by
  simp [crcUpdateRule, bind_eq_ok, eq_comm (a := w)]

theorem crcFinalRule_eq_ok : crcFinalRule s = .ok w ↔ w = { s with result := s.crcAcc ^^^ crcOnes } := by
  simp [crcFinalRule, eq_comm (a := w)]

theorem crc32Rule_eq_ok : crc32Rule s = .ok w ↔
    s.rangeLegal .src ∧ w = { s with result := crc32 (s.rangeBytes .src) } := by
  simp [crc32Rule, bind_eq_ok, eq_comm (a := w)]

theorem crcCheckRule_eq_ok : crcCheckRule s = .ok w ↔
    s.rangeLegal .src ∧ crc32 (s.rangeBytes .src) = s.crcExp ∧ w = { s with result := crc32 (s.rangeBytes .src) } := by
  simp [crcCheckRule, bind_eq_ok, eq_comm (a := w)]

theorem typeLoadRule_eq_ok : typeLoadRule s = .ok w ↔
    s.rangeLegal .typeWord ∧ w = { s with
      typeReg := be32 (s.byteAt s.srcAddr.toNat) (s.byteAt (s.srcAddr.toNat + 1)) (s.byteAt (s.srcAddr.toNat + 2))
        (s.byteAt (s.srcAddr.toNat + 3)) } := by
  simp [typeLoadRule, bind_eq_ok, State.rangeAddr, eq_comm (a := w)]

theorem typeFromStringRule_eq_ok : typeFromStringRule s = .ok w ↔
    s.rangeLegal .src ∧ ∃ t, typeFromString (s.rangeBytes .src) = .ok t ∧ w = { s with typeReg := t.toWord } := by
  simp [typeFromStringRule, bind_eq_ok, eq_comm (a := w)]

theorem predicateRule_eq_ok {p : ChunkType → Bool} : predicateRule p s = .ok w ↔
    w = { s with result := boolWord (p s.typeOperand) } := by
  simp [predicateRule, eq_comm (a := w)]

theorem chunkNewRule_eq_ok : chunkNewRule s = .ok w ↔
    s.rangeLegal .src ∧ s.rangeLen .src ≤ s.cfg.storeBytes ∧
      w = { s with stage := some (newChunk s.typeOperand (s.rangeBytes .src)) } := by
  simp [chunkNewRule, bind_eq_ok, eq_comm (a := w)]

theorem chunkParseRule_eq_ok : chunkParseRule s = .ok w ↔
    s.rangeLegal .src ∧ ∃ p, parseChunk (s.rangeBytes .src) = .ok p ∧ p.1.data.length ≤ s.cfg.storeBytes ∧
      w = { s with stage := some p.1, result := wordOfNat p.2 } := by
  simp [chunkParseRule, bind_eq_ok, eq_comm (a := w)]

theorem chunkSerializeRule_eq_ok : chunkSerializeRule s = .ok w ↔
    ∃ c, s.stage = some c ∧ s.rangeLegal .dst ∧ output (chunkBytes c) s = .ok w := by
  simp [chunkSerializeRule, bind_eq_ok]

theorem chunkDataRule_eq_ok : chunkDataRule s = .ok w ↔
    ∃ c, s.stage = some c ∧ s.rangeLegal .dst ∧ output c.data s = .ok w := by
  simp [chunkDataRule, bind_eq_ok]

theorem chunkToStringRule_eq_ok : chunkToStringRule s = .ok w ↔
    ∃ c, s.stage = some c ∧ s.rangeLegal .dst ∧ utf8Valid c.data = true ∧ output c.data s = .ok w := by
  simp [chunkToStringRule, bind_eq_ok]

theorem pngParseRule_eq_ok : pngParseRule s = .ok w ↔
    s.rangeLegal .src ∧ ∃ cs, parsePng s.cfg (s.rangeBytes .src) = .ok cs ∧ w = { s with png := some cs } := by
  simp [pngParseRule, bind_eq_ok, eq_comm (a := w)]

theorem pngSerializeRule_eq_ok : pngSerializeRule s = .ok w ↔
    ∃ cs, s.png = some cs ∧ s.rangeLegal .dst ∧ output (pngBytes cs) s = .ok w := by
  simp [pngSerializeRule, bind_eq_ok]

theorem pngAppendRule_eq_ok : pngAppendRule s = .ok w ↔
    ∃ cs, s.png = some cs ∧ ∃ c, s.stage = some c ∧
      (cs.length + 1 ≤ s.cfg.maxChunks ∧ dataTotal cs + c.data.length ≤ s.cfg.storeBytes) ∧
      w = { s with png := some (cs ++ [c]), stage := none } := by
  simp [pngAppendRule, bind_eq_ok, checkRoom, and_assoc, eq_comm (a := w)]

theorem pngRemoveRule_eq_ok : pngRemoveRule s = .ok w ↔
    ∃ cs, s.png = some cs ∧ ∃ p, firstOfType cs s.typeOperand = some p ∧
      w = { s with stage := some p.2, png := some (removeAt cs p.1) } := by
  simp [pngRemoveRule, bind_eq_ok, eq_comm (a := w)]

theorem pngFindRule_eq_ok : pngFindRule s = .ok w ↔
    ∃ cs, s.png = some cs ∧
      ((firstOfType cs s.typeOperand = none ∧ w = { s with result := 0 }) ∨
        ∃ p, firstOfType cs s.typeOperand = some p ∧
          w = { s with result := 1, index := wordOfNat p.1, stage := some p.2 }) := by
  simp only [pngFindRule, bind_eq_ok, pngOperand_eq_ok]
  constructor
  · rintro ⟨cs, h, h2⟩
    refine ⟨cs, h, ?_⟩
    split at h2 <;> cases h2
    · exact .inl ⟨by assumption, rfl⟩
    · exact .inr ⟨_, by assumption, rfl⟩
  · rintro ⟨cs, h, ⟨h2, rfl⟩ | ⟨p, h2, rfl⟩⟩ <;> exact ⟨cs, h, by rw [h2]⟩

theorem pngGetRule_eq_ok : pngGetRule s = .ok w ↔
    ∃ cs, s.png = some cs ∧ ∃ c, cs[s.index.toNat]? = some c ∧ w = { s with stage := some c } := by
  simp only [pngGetRule, bind_eq_ok, pngOperand_eq_ok]
  constructor
  · rintro ⟨cs, h, h2⟩
    refine ⟨cs, h, ?_⟩
    split at h2
    · cases h2
    · cases h2; exact ⟨_, by assumption, rfl⟩
  · rintro ⟨cs, h, c, h2, rfl⟩
    exact ⟨cs, h, by rw [h2]⟩

theorem pngHeaderRule_eq_ok : pngHeaderRule s = .ok w ↔ s.rangeLegal .dst ∧ output sig s = .ok w := by
  simp [pngHeaderRule, bind_eq_ok]

theorem opEncodeRule_eq_ok : opEncodeRule s = .ok w ↔
    (s.rangeLegal .src ∧ s.rangeLegal .arg ∧ s.rangeLegal .msg ∧ s.rangeLegal .dst) ∧
    ∃ cs, parsePng s.cfg (s.rangeBytes .src) = .ok cs ∧ ∃ t, typeFromString (s.rangeBytes .arg) = .ok t ∧
      (s.rangeLen .msg ≤ s.cfg.storeBytes ∧ cs.length + 1 ≤ s.cfg.maxChunks ∧
        dataTotal cs + s.rangeLen .msg ≤ s.cfg.storeBytes) ∧
      ∃ w2, output (pngBytes (cs ++ [newChunk t (s.rangeBytes .msg)])) s = .ok w2 ∧
        w = { w2 with png := some (cs ++ [newChunk t (s.rangeBytes .msg)]), typeReg := t.toWord, stage := none } := by
  simp [opEncodeRule, bind_eq_ok, checkRanges_eq_ok, and_assoc, eq_comm (a := w)]

theorem opDecodeRule_eq_ok : opDecodeRule s = .ok w ↔
    (s.rangeLegal .src ∧ s.rangeLegal .arg ∧ s.rangeLegal .dst) ∧
    ∃ cs, parsePng s.cfg (s.rangeBytes .src) = .ok cs ∧ ∃ t, typeFromString (s.rangeBytes .arg) = .ok t ∧
      ((firstOfType cs t = none ∧ ∃ w2, output sentinel s = .ok w2 ∧
          w = { w2 with result := 0, png := some cs, typeReg := t.toWord }) ∨
        ∃ p, firstOfType cs t = some p ∧ utf8Valid p.2.data = true ∧ ∃ w2, output p.2.data s = .ok w2 ∧
          w = { w2 with
            result := 1, index := wordOfNat p.1, stage := some p.2, png := some cs, typeReg := t.toWord }) := by
  simp only [opDecodeRule, bind_eq_ok, checkRanges_eq_ok]
  constructor
  · rintro ⟨-, h1, cs, h2, t, h3, h4⟩
    refine ⟨by simpa using h1, cs, h2, t, h3, ?_⟩
    split at h4
    · simp only [bind_eq_ok] at h4
      obtain ⟨w2, h5, h6⟩ := h4
      cases h6
      exact .inl ⟨by assumption, w2, h5, rfl⟩
    · simp only [bind_eq_ok, require_eq_ok] at h4
      obtain ⟨-, h7, w2, h5, h6⟩ := h4
      cases h6
      exact .inr ⟨_, by assumption, h7, w2, h5, rfl⟩
  · rintro ⟨h1, cs, h2, t, h3, ⟨h4, w2, h5, rfl⟩ | ⟨p, h4, h7, w2, h5, rfl⟩⟩
    · refine ⟨(), by simpa using h1, cs, h2, t, h3, ?_⟩
      rw [h4]
      simp [h5]
    · refine ⟨(), by simpa using h1, cs, h2, t, h3, ?_⟩
      rw [h4]
      simp [bind_eq_ok, h5, h7]

theorem opRemoveRule_eq_ok : opRemoveRule s = .ok w ↔
    (s.rangeLegal .src ∧ s.rangeLegal .arg ∧ s.rangeLegal .dst) ∧
    ∃ cs, parsePng s.cfg (s.rangeBytes .src) = .ok cs ∧ ∃ t, typeFromString (s.rangeBytes .arg) = .ok t ∧
      ∃ p, firstOfType cs t = some p ∧ ∃ w2, output (pngBytes (removeAt cs p.1)) s = .ok w2 ∧
        w = { w2 with png := some (removeAt cs p.1), typeReg := t.toWord, stage := some p.2 } := by
  simp [opRemoveRule, bind_eq_ok, checkRanges_eq_ok, and_assoc, eq_comm (a := w)]

end Rules

end Sys2Proof.Machine
end

