-- ==== Sys2Proof/Laws/Commands.lean ====
section
/-! SUPPORT. What a command can do, said once for all commands: its end with and without an error, what its rule changes, what it
stores. -/

namespace Sys2Proof.Machine

/-- A command whose rule succeeds completes with the rule's working copy. -/
theorem exec_of_ok {i : Instr} {s w : State} (h : ruleOf i s = .ok w) : exec i s = .next w.finished := by
  rw [exec_eq_runRule, runRule_of_ok h]; rfl

/-- A command whose rule fails enters its error. -/
theorem exec_of_error {i : Instr} {s : State} {e : CmdError} (h : ruleOf i s = .error e) :
    exec i s = .next (s.failedWith e.code e.sub) := by
  rw [exec_eq_runRule, runRule_of_error h]; rfl

/-- A command that ended without an error ran its rule to the end. -/
theorem exec_rule_of_no_error {i : Instr} {s t : State} (h : exec i s = .next t) (he : t.status.err = false) :
    ∃ w, ruleOf i s = .ok w ∧ t = w.finished := by
  rcases exec_cases h with ⟨w, hw, rfl⟩ | ⟨e, -, rfl⟩
  · exact ⟨w, hw, rfl⟩
  · simp at he

/-- States with the same BUF and reset count have the same bytes. -/
theorem bytesAt_congr {s t : State} (hb : t.buf = s.buf) (hr : t.resetCount = s.resetCount) (a n : Word) :
    t.bytesAt a n = s.bytesAt a n :=
  readBytes_congr (byteAt_congr hb hr) _ _

/-- A successful rule changes at most BUF, DST_LEN, RESULT, TYPE, CRC_ACC, INDEX, STAGE and PNG. -/
theorem rule_ok_frame {i : Instr} {s w : State} (h : ruleOf i s = .ok w) :
    w = { s with buf := w.buf, dstLen := w.dstLen, result := w.result, typeReg := w.typeReg, crcAcc := w.crcAcc,
                 index := w.index, stage := w.stage, png := w.png } := by
  cases i <;> simp only [ruleOf] at h
  case nop => rw [nopRule_eq_ok] at h; subst h; rfl
  case crcInit => rw [crcInitRule_eq_ok] at h; subst h; rfl
  case crcUpdate => rw [crcUpdateRule_eq_ok] at h; rw [h.2]
  case crcFinal => rw [crcFinalRule_eq_ok] at h; subst h; rfl
  case crc32 => rw [crc32Rule_eq_ok] at h; rw [h.2]
  case crcCheck => rw [crcCheckRule_eq_ok] at h; rw [h.2.2]
  case typeLoad => rw [typeLoadRule_eq_ok] at h; rw [h.2]
  case typeFromString => rw [typeFromStringRule_eq_ok] at h; obtain ⟨-, t, -, rfl⟩ := h; rfl
  case chunkNew => rw [chunkNewRule_eq_ok] at h; rw [h.2.2]
  case chunkParse => rw [chunkParseRule_eq_ok] at h; obtain ⟨-, t, -, -, rfl⟩ := h; rfl
  case chunkSerialize => rw [chunkSerializeRule_eq_ok] at h; obtain ⟨c, -, -, h⟩ := h; rw [(output_eq_ok.1 h).2]
  case chunkData => rw [chunkDataRule_eq_ok] at h; obtain ⟨c, -, -, h⟩ := h; rw [(output_eq_ok.1 h).2]
  case chunkToString => rw [chunkToStringRule_eq_ok] at h; obtain ⟨c, -, -, -, h⟩ := h; rw [(output_eq_ok.1 h).2]
  case pngParse => rw [pngParseRule_eq_ok] at h; obtain ⟨-, t, -, rfl⟩ := h; rfl
  case pngSerialize => rw [pngSerializeRule_eq_ok] at h; obtain ⟨c, -, -, h⟩ := h; rw [(output_eq_ok.1 h).2]
  case pngAppend => rw [pngAppendRule_eq_ok] at h; obtain ⟨cs, -, c, -, -, rfl⟩ := h; rfl
  case pngRemove => rw [pngRemoveRule_eq_ok] at h; obtain ⟨cs, -, c, -, rfl⟩ := h; rfl
  case pngFind => rw [pngFindRule_eq_ok] at h; obtain ⟨cs, -, ⟨-, rfl⟩ | ⟨p, -, rfl⟩⟩ := h <;> rfl
  case pngGet => rw [pngGetRule_eq_ok] at h; obtain ⟨cs, -, c, -, rfl⟩ := h; rfl
  case pngHeader => rw [pngHeaderRule_eq_ok] at h; obtain ⟨-, h⟩ := h; rw [(output_eq_ok.1 h).2]
  case opEncode =>
    rw [opEncodeRule_eq_ok] at h; obtain ⟨-, cs, -, t, -, -, w2, h, rfl⟩ := h; rw [(output_eq_ok.1 h).2]
  case opDecode =>
    rw [opDecodeRule_eq_ok] at h; obtain ⟨-, cs, -, t, -, ⟨-, w2, h, rfl⟩ | ⟨p, -, -, w2, h, rfl⟩⟩ := h <;> rw [(output_eq_ok.1 h).2]
  case opRemove =>
    rw [opRemoveRule_eq_ok] at h; obtain ⟨-, cs, -, t, -, p, -, w2, h, rfl⟩ := h; rw [(output_eq_ok.1 h).2]
  all_goals rw [predicateRule_eq_ok] at h; subst h; rfl

/-- A successful rule leaves BUF and DST_LEN, or has done one `Output`. -/
theorem rule_ok_store {i : Instr} {s w : State} (h : ruleOf i s = .ok w) :
    (w.buf = s.buf ∧ w.dstLen = s.dstLen) ∨
    (i ∈ [Instr.chunkSerialize, .chunkData, .chunkToString, .pngSerialize, .pngHeader, .opEncode, .opDecode, .opRemove] ∧
      ∃ out : List Byte, s.rangeLegal .dst ∧ out.length ≤ s.dstCap.toNat ∧
        w.buf = Memory.writeBytes s.buf s.dstAddr.toNat out ∧ w.dstLen = wordOfNat out.length) := by
  cases i <;> simp only [ruleOf] at h
  case nop => rw [nopRule_eq_ok] at h; subst h; exact .inl ⟨rfl, rfl⟩
  case crcInit => rw [crcInitRule_eq_ok] at h; subst h; exact .inl ⟨rfl, rfl⟩
  case crcUpdate => rw [crcUpdateRule_eq_ok] at h; rw [h.2]; exact .inl ⟨rfl, rfl⟩
  case crcFinal => rw [crcFinalRule_eq_ok] at h; subst h; exact .inl ⟨rfl, rfl⟩
  case crc32 => rw [crc32Rule_eq_ok] at h; rw [h.2]; exact .inl ⟨rfl, rfl⟩
  case crcCheck => rw [crcCheckRule_eq_ok] at h; rw [h.2.2]; exact .inl ⟨rfl, rfl⟩
  case typeLoad => rw [typeLoadRule_eq_ok] at h; rw [h.2]; exact .inl ⟨rfl, rfl⟩
  case typeFromString => rw [typeFromStringRule_eq_ok] at h; obtain ⟨-, t, -, rfl⟩ := h; exact .inl ⟨rfl, rfl⟩
  case chunkNew => rw [chunkNewRule_eq_ok] at h; rw [h.2.2]; exact .inl ⟨rfl, rfl⟩
  case chunkParse => rw [chunkParseRule_eq_ok] at h; obtain ⟨-, t, -, -, rfl⟩ := h; exact .inl ⟨rfl, rfl⟩
  case chunkSerialize => rw [chunkSerializeRule_eq_ok] at h; obtain ⟨c, -, hl, h⟩ := h; obtain ⟨h1, rfl⟩ := output_eq_ok.1 h; exact .inr ⟨by simp, _, hl, h1, rfl, rfl⟩
  case chunkData => rw [chunkDataRule_eq_ok] at h; obtain ⟨c, -, hl, h⟩ := h; obtain ⟨h1, rfl⟩ := output_eq_ok.1 h; exact .inr ⟨by simp, _, hl, h1, rfl, rfl⟩
  case chunkToString => rw [chunkToStringRule_eq_ok] at h; obtain ⟨c, -, hl, -, h⟩ := h; obtain ⟨h1, rfl⟩ := output_eq_ok.1 h; exact .inr ⟨by simp, _, hl, h1, rfl, rfl⟩
  case pngParse => rw [pngParseRule_eq_ok] at h; obtain ⟨-, t, -, rfl⟩ := h; exact .inl ⟨rfl, rfl⟩
  case pngSerialize => rw [pngSerializeRule_eq_ok] at h; obtain ⟨c, -, hl, h⟩ := h; obtain ⟨h1, rfl⟩ := output_eq_ok.1 h; exact .inr ⟨by simp, _, hl, h1, rfl, rfl⟩
  case pngAppend => rw [pngAppendRule_eq_ok] at h; obtain ⟨cs, -, c, -, -, rfl⟩ := h; exact .inl ⟨rfl, rfl⟩
  case pngRemove => rw [pngRemoveRule_eq_ok] at h; obtain ⟨cs, -, c, -, rfl⟩ := h; exact .inl ⟨rfl, rfl⟩
  case pngFind => rw [pngFindRule_eq_ok] at h; obtain ⟨cs, -, ⟨-, rfl⟩ | ⟨p, -, rfl⟩⟩ := h <;> exact .inl ⟨rfl, rfl⟩
  case pngGet => rw [pngGetRule_eq_ok] at h; obtain ⟨cs, -, c, -, rfl⟩ := h; exact .inl ⟨rfl, rfl⟩
  case pngHeader => rw [pngHeaderRule_eq_ok] at h; obtain ⟨hl, h⟩ := h; obtain ⟨h1, rfl⟩ := output_eq_ok.1 h; exact .inr ⟨by simp, _, hl, h1, rfl, rfl⟩
  case opEncode =>
    rw [opEncodeRule_eq_ok] at h; obtain ⟨hl, cs, -, t, -, -, w2, h, rfl⟩ := h; obtain ⟨h1, rfl⟩ := output_eq_ok.1 h; exact .inr ⟨by simp, _, hl.2.2.2, h1, rfl, rfl⟩
  case opDecode =>
    rw [opDecodeRule_eq_ok] at h; obtain ⟨hl, cs, -, t, -, ⟨-, w2, h, rfl⟩ | ⟨p, -, -, w2, h, rfl⟩⟩ := h
    · obtain ⟨h1, rfl⟩ := output_eq_ok.1 h
      refine .inr ⟨by simp, sentinel, hl.2.2, h1, ?_, ?_⟩ <;> with_reducible rfl
    · obtain ⟨h1, rfl⟩ := output_eq_ok.1 h
      exact .inr ⟨by simp, p.2.data, hl.2.2, h1, rfl, rfl⟩
  case opRemove =>
    rw [opRemoveRule_eq_ok] at h; obtain ⟨hl, cs, -, t, -, p, -, w2, h, rfl⟩ := h; obtain ⟨h1, rfl⟩ := output_eq_ok.1 h; exact .inr ⟨by simp, _, hl.2.2, h1, rfl, rfl⟩
  all_goals rw [predicateRule_eq_ok] at h; subst h; exact .inl ⟨rfl, rfl⟩

/-- A command whose rule outputs `out` and then sets registers by `f`, when `out` fits. -/
theorem exec_of_output {i : Instr} {s : State} {out : List Byte} {f : State → State}
    (hr : ruleOf i s = (output out s >>= fun w => .ok (f w))) (hc : out.length ≤ s.dstCap.toNat)
    (hb : ∀ w, (f w).buf = w.buf) (hl : ∀ w, (f w).dstLen = w.dstLen) (hn : ∀ w, (f w).resetCount = w.resetCount) :
    ∃ t, exec i s = .next t ∧ t = (f { s with buf := t.buf, dstLen := t.dstLen }).finished ∧ s.Outputs t out := by
  have ho := output_eq_ok.2 ⟨hc, rfl⟩
  generalize hw : ({ s with buf := Memory.writeBytes s.buf s.dstAddr.toNat out, dstLen := wordOfNat out.length } : State) = w at ho
  have h1 : w.buf = Memory.writeBytes s.buf s.dstAddr.toNat out := by rw [← hw]
  have h2 : w.dstLen = wordOfNat out.length := by rw [← hw]
  have h3 : w.resetCount = s.resetCount := by rw [← hw]
  have h4 : w = { s with buf := w.buf, dstLen := w.dstLen } := by rw [← hw]
  refine ⟨(f w).finished, exec_of_ok (by rw [hr, ho, ok_bind]), ?_, outputs_of hc ((hb w).trans h1) ((hn w).trans h3) ((hl w).trans h2)⟩
  show _ = State.finished (f { s with buf := (f w).buf, dstLen := (f w).dstLen })
  rw [hb, hl, ← h4]

/-- The same command when `out` does not fit. -/
theorem exec_of_output_overflow {i : Instr} {s : State} {out : List Byte} {f : State → Except CmdError State}
    (hr : ruleOf i s = (output out s >>= f)) (hc : s.dstCap.toNat < out.length) : exec i s = .next (s.failedWith 0x0A 0) :=
  exec_of_error (e := .outputOverflow) (by rw [hr, output_eq_error.2 ⟨hc, rfl⟩]; rfl)

end Sys2Proof.Machine
end

