-- ==== Sys2Proof/Laws/PerInstr.lean ====
section
/-! SUPPORT. Statements made for each instruction. RoundTrip: the encoding of the instruction decodes to it, and no other
instruction has the same OPCODE. -/

namespace Sys2Proof.Laws.RoundTrip

/-- The word of `i` has its reserved bits clear and decodes to `i`; its OPCODE selects no other command. -/
def Statement (i : Instr) : Prop :=
  i.wf = true ∧ reservedOf (encode i) = 0 ∧ decode (encode i) = .ok i ∧ ∀ j : Instr, opcode j = opcode i → j = i

theorem nop : Statement .nop := ⟨rfl, rfl, rfl, fun j h => by cases j <;> first | rfl | exact absurd h (by decide)⟩

theorem crcInit : Statement .crcInit := ⟨rfl, rfl, rfl, fun j h => by cases j <;> first | rfl | exact absurd h (by decide)⟩

theorem crcUpdate : Statement .crcUpdate := ⟨rfl, rfl, rfl, fun j h => by cases j <;> first | rfl | exact absurd h (by decide)⟩

theorem crcFinal : Statement .crcFinal := ⟨rfl, rfl, rfl, fun j h => by cases j <;> first | rfl | exact absurd h (by decide)⟩

theorem crc32 : Statement .crc32 := ⟨rfl, rfl, rfl, fun j h => by cases j <;> first | rfl | exact absurd h (by decide)⟩

theorem crcCheck : Statement .crcCheck := ⟨rfl, rfl, rfl, fun j h => by cases j <;> first | rfl | exact absurd h (by decide)⟩

theorem typeLoad : Statement .typeLoad := ⟨rfl, rfl, rfl, fun j h => by cases j <;> first | rfl | exact absurd h (by decide)⟩

theorem typeFromString : Statement .typeFromString := ⟨rfl, rfl, rfl, fun j h => by cases j <;> first | rfl | exact absurd h (by decide)⟩

theorem typeIsValid : Statement .typeIsValid := ⟨rfl, rfl, rfl, fun j h => by cases j <;> first | rfl | exact absurd h (by decide)⟩

theorem typeIsCritical : Statement .typeIsCritical := ⟨rfl, rfl, rfl, fun j h => by cases j <;> first | rfl | exact absurd h (by decide)⟩

theorem typeIsPublic : Statement .typeIsPublic := ⟨rfl, rfl, rfl, fun j h => by cases j <;> first | rfl | exact absurd h (by decide)⟩

theorem typeIsPrivate : Statement .typeIsPrivate := ⟨rfl, rfl, rfl, fun j h => by cases j <;> first | rfl | exact absurd h (by decide)⟩

theorem typeIsReservedBitValid : Statement .typeIsReservedBitValid := ⟨rfl, rfl, rfl, fun j h => by cases j <;> first | rfl | exact absurd h (by decide)⟩

theorem typeIsSafeToCopy : Statement .typeIsSafeToCopy := ⟨rfl, rfl, rfl, fun j h => by cases j <;> first | rfl | exact absurd h (by decide)⟩

theorem chunkNew : Statement .chunkNew := ⟨rfl, rfl, rfl, fun j h => by cases j <;> first | rfl | exact absurd h (by decide)⟩

theorem chunkParse : Statement .chunkParse := ⟨rfl, rfl, rfl, fun j h => by cases j <;> first | rfl | exact absurd h (by decide)⟩

theorem chunkSerialize : Statement .chunkSerialize := ⟨rfl, rfl, rfl, fun j h => by cases j <;> first | rfl | exact absurd h (by decide)⟩

theorem chunkData : Statement .chunkData := ⟨rfl, rfl, rfl, fun j h => by cases j <;> first | rfl | exact absurd h (by decide)⟩

theorem chunkToString : Statement .chunkToString := ⟨rfl, rfl, rfl, fun j h => by cases j <;> first | rfl | exact absurd h (by decide)⟩

theorem pngParse : Statement .pngParse := ⟨rfl, rfl, rfl, fun j h => by cases j <;> first | rfl | exact absurd h (by decide)⟩

theorem pngSerialize : Statement .pngSerialize := ⟨rfl, rfl, rfl, fun j h => by cases j <;> first | rfl | exact absurd h (by decide)⟩

theorem pngAppend : Statement .pngAppend := ⟨rfl, rfl, rfl, fun j h => by cases j <;> first | rfl | exact absurd h (by decide)⟩

theorem pngRemove : Statement .pngRemove := ⟨rfl, rfl, rfl, fun j h => by cases j <;> first | rfl | exact absurd h (by decide)⟩

theorem pngFind : Statement .pngFind := ⟨rfl, rfl, rfl, fun j h => by cases j <;> first | rfl | exact absurd h (by decide)⟩

theorem pngGet : Statement .pngGet := ⟨rfl, rfl, rfl, fun j h => by cases j <;> first | rfl | exact absurd h (by decide)⟩

theorem pngHeader : Statement .pngHeader := ⟨rfl, rfl, rfl, fun j h => by cases j <;> first | rfl | exact absurd h (by decide)⟩

theorem opEncode : Statement .opEncode := ⟨rfl, rfl, rfl, fun j h => by cases j <;> first | rfl | exact absurd h (by decide)⟩

theorem opDecode : Statement .opDecode := ⟨rfl, rfl, rfl, fun j h => by cases j <;> first | rfl | exact absurd h (by decide)⟩

theorem opRemove : Statement .opRemove := ⟨rfl, rfl, rfl, fun j h => by cases j <;> first | rfl | exact absurd h (by decide)⟩

end Sys2Proof.Laws.RoundTrip
end

