-- ==== Sys2Proof/Laws/Utf8.lean ====
section
/-! SUPPORT. The table walk of UTF-8 (42_chunk.md R187): what one pass does, and that valid texts concatenate. -/

namespace Sys2Proof.Machine

@[simp] theorem utf8From_nil (pending : List ByteSpan) : utf8From pending [] = pending.isEmpty := rfl

@[simp] theorem utf8From_pending (r : ByteSpan) (rs : List ByteSpan) (b : Byte) (bs : List Byte) :
    utf8From (r :: rs) (b :: bs) = (r.has b && utf8From rs bs) := rfl

/-- A first byte is looked up in the table. -/
theorem utf8From_first (b : Byte) (bs : List Byte) :
    utf8From [] (b :: bs) = true ↔ ∃ row, utf8RowOf b = some row ∧ utf8From row.rest bs = true := by
  rw [utf8From]
  split <;> simp_all

/-- Text after complete text is text. -/
theorem utf8From_append {pending : List ByteSpan} {s t : List Byte} (hs : utf8From pending s = true)
    (ht : utf8From [] t = true) : utf8From pending (s ++ t) = true := by
  induction s generalizing pending with
  | nil =>
    obtain rfl : pending = [] := by simpa using hs
    exact ht
  | cons b s ih =>
    cases pending with
    | nil =>
      obtain ⟨row, hrow, h⟩ := (utf8From_first b s).1 hs
      exact (utf8From_first b (s ++ t)).2 ⟨row, hrow, ih h⟩
    | cons r rs =>
      simp only [utf8From_pending, Bool.and_eq_true] at hs
      simp only [List.cons_append, utf8From_pending, Bool.and_eq_true]
      exact ⟨hs.1, ih hs.2⟩

end Sys2Proof.Machine
end

