-- ==== Sys2Proof/Tests/Slice0.lean ====
section
/-! SUPPORT. Small tests: the WellFormed smoke, the words of 30_encoding.md R113, one command each on vectors of 95_test_vectors.md (named in
each comment), and a witness for the hypotheses of each statement that has any. Expected values are the spec's. -/

namespace Sys2Proof.Tests

open Sys2Proof.Machine

set_option Elab.async false

/-! ### WellFormed: 00_scope.md R6 -/

theorem test_cfgA_well_formed : Config.cfgA.wf = true := by decide

theorem test_no_memory_refused : ({ Config.cfgA with memSize := 0 }).wf = false := by decide

theorem test_too_much_memory_refused : ({ Config.cfgA with memSize := 2 ^ 32 + 1 }).wf = false := by decide

theorem test_most_memory_accepted : ({ Config.cfgA with memSize := 2 ^ 32 }).wf = true := by decide

theorem test_no_chunks_refused : ({ Config.cfgA with maxChunks := 0 }).wf = false := by decide

theorem test_too_many_chunks_refused : ({ Config.cfgA with maxChunks := 2 ^ 32 }).wf = false := by decide

theorem test_too_many_store_bytes_refused : ({ Config.cfgA with storeBytes := 2 ^ 32 }).wf = false := by decide

theorem test_no_store_bytes_accepted : ({ Config.cfgA with storeBytes := 0 }).wf = true := by decide

/-! ### Words of 30_encoding.md R110, R113, bit by bit: RSVD 24 bits, then OPCODE -/

theorem test_word_nop : decode 0b000000000000000000000000_0000_0000 = .ok .nop := by decide

theorem test_word_crcInit : decode 0b000000000000000000000000_0000_0001 = .ok .crcInit := by decide

theorem test_word_crcUpdate : decode 0b000000000000000000000000_0000_0010 = .ok .crcUpdate := by decide

theorem test_word_crcFinal : decode 0b000000000000000000000000_0000_0011 = .ok .crcFinal := by decide

theorem test_word_crc32 : decode 0b000000000000000000000000_0000_0100 = .ok .crc32 := by decide

theorem test_word_crcCheck : decode 0b000000000000000000000000_0000_0101 = .ok .crcCheck := by decide

theorem test_word_typeLoad : decode 0b000000000000000000000000_0001_0000 = .ok .typeLoad := by decide

theorem test_word_typeFromString : decode 0b000000000000000000000000_0001_0001 = .ok .typeFromString := by decide

theorem test_word_typeIsValid : decode 0b000000000000000000000000_0001_0010 = .ok .typeIsValid := by decide

theorem test_word_typeIsCritical : decode 0b000000000000000000000000_0001_0011 = .ok .typeIsCritical := by decide

theorem test_word_typeIsPublic : decode 0b000000000000000000000000_0001_0100 = .ok .typeIsPublic := by decide

theorem test_word_typeIsPrivate : decode 0b000000000000000000000000_0001_0101 = .ok .typeIsPrivate := by decide

theorem test_word_typeIsReservedBitValid : decode 0b000000000000000000000000_0001_0110 = .ok .typeIsReservedBitValid := by decide

theorem test_word_typeIsSafeToCopy : decode 0b000000000000000000000000_0001_0111 = .ok .typeIsSafeToCopy := by decide

theorem test_word_chunkNew : decode 0b000000000000000000000000_0010_0000 = .ok .chunkNew := by decide

theorem test_word_chunkParse : decode 0b000000000000000000000000_0010_0001 = .ok .chunkParse := by decide

theorem test_word_chunkSerialize : decode 0b000000000000000000000000_0010_0010 = .ok .chunkSerialize := by decide

theorem test_word_chunkData : decode 0b000000000000000000000000_0010_0011 = .ok .chunkData := by decide

theorem test_word_chunkToString : decode 0b000000000000000000000000_0010_0100 = .ok .chunkToString := by decide

theorem test_word_pngParse : decode 0b000000000000000000000000_0011_0000 = .ok .pngParse := by decide

theorem test_word_pngSerialize : decode 0b000000000000000000000000_0011_0001 = .ok .pngSerialize := by decide

theorem test_word_pngAppend : decode 0b000000000000000000000000_0011_0010 = .ok .pngAppend := by decide

theorem test_word_pngRemove : decode 0b000000000000000000000000_0011_0011 = .ok .pngRemove := by decide

theorem test_word_pngFind : decode 0b000000000000000000000000_0011_0100 = .ok .pngFind := by decide

theorem test_word_pngGet : decode 0b000000000000000000000000_0011_0101 = .ok .pngGet := by decide

theorem test_word_pngHeader : decode 0b000000000000000000000000_0011_0110 = .ok .pngHeader := by decide

theorem test_word_opEncode : decode 0b000000000000000000000000_0100_0000 = .ok .opEncode := by decide

theorem test_word_opDecode : decode 0b000000000000000000000000_0100_0001 = .ok .opDecode := by decide

theorem test_word_opRemove : decode 0b000000000000000000000000_0100_0010 = .ok .opRemove := by decide

/-- V-ERR-1, V-ERR-2, V-ERR-3, V-ERR-6, and the ends of the reserved ranges of R114. -/
theorem test_words_reserved :
    decode 0x00000006 = .error .unknownOpcode ∧ decode 0x0000000F = .error .unknownOpcode ∧
    decode 0x00000018 = .error .unknownOpcode ∧ decode 0x0000001F = .error .unknownOpcode ∧
    decode 0x00000025 = .error .unknownOpcode ∧ decode 0x0000002F = .error .unknownOpcode ∧
    decode 0x00000037 = .error .unknownOpcode ∧ decode 0x0000003F = .error .unknownOpcode ∧
    decode 0x00000043 = .error .unknownOpcode ∧ decode 0x000000FF = .error .unknownOpcode ∧
    decode 0x00000100 = .error .reservedBits ∧ decode 0x80000030 = .error .reservedBits := by decide

/-! ### Helpers: a small state, and what is seen of a command on it -/

/-- The reset state with bytes at BUF 0 and SRC on them. -/
def withSource (bs : List Byte) : State :=
  { State.reset with buf := Memory.writeBytes [] 0 bs, srcLen := BitVec.ofNat 32 bs.length }

/-- The state after a command, CMD as it stands. -/
def nextState (i : Instr) (s : State) : Option State :=
  match exec i s with
  | .next t => some t
  | _ => none

/-- The state after a command whose word is in CMD. -/
def after (i : Instr) (s : State) : Option State := nextState i { s with cmd := encode i }

/-- What STATUS and one register are after a command. -/
def seen (i : Instr) (f : State → Word) (s : State) : Option (Word × Word) :=
  (after i s).map (fun t => (t.status.toWord, f t))

/-- STATUS, DST_LEN and the output bytes after a command. -/
def seenOutput (i : Instr) (s : State) : Option (Word × Nat × List Byte) :=
  (after i s).map (fun t => (t.status.toWord, t.dstLen.toNat, t.bytesAt t.dstAddr t.dstLen))

/-- STATUS after one step on a pending word. -/
def statusAfterWord (w : Nat) : Option Word :=
  match step (State.reset.withFetchWord 32 w) with
  | .next t => some t.status.toWord
  | _ => none

/-- The state with DST. -/
def toDst (a n : Word) (s : State) : State := s.withDst a n

def typeRuSt : ChunkType := { t0 := 0x72, t1 := 0x75, t2 := 0x53, t3 := 0x74 }
def typeIhdr : ChunkType := { t0 := 0x49, t1 := 0x48, t2 := 0x44, t3 := 0x52 }
def typeIend : ChunkType := { t0 := 0x49, t1 := 0x45, t2 := 0x4E, t3 := 0x44 }

/-- "some message". -/
def someMessage : List Byte := [0x73, 0x6F, 0x6D, 0x65, 0x20, 0x6D, 0x65, 0x73, 0x73, 0x61, 0x67, 0x65]

/-- F-RUST, F-IEND and F-IHDR of 95_test_vectors.md. -/
def frameRust : List Byte :=
  [0x00, 0x00, 0x00, 0x0C, 0x72, 0x75, 0x53, 0x74] ++ someMessage ++ [0xD0, 0x33, 0xB6, 0xDA]
def frameIend : List Byte := [0x00, 0x00, 0x00, 0x00, 0x49, 0x45, 0x4E, 0x44, 0xAE, 0x42, 0x60, 0x82]
def frameIhdr : List Byte :=
  [0x00, 0x00, 0x00, 0x0D, 0x49, 0x48, 0x44, 0x52, 0x00, 0x00, 0x00, 0x01, 0x00] ++
  [0x00, 0x00, 0x01, 0x08, 0x00, 0x00, 0x00, 0x00, 0x3A, 0x7E, 0x9B, 0x55]

/-- The chunks of those frames. -/
def chunkRust : Chunk := { ctype := typeRuSt, data := someMessage, crc := 0xD033B6DA }
def chunkIend : Chunk := { ctype := typeIend, data := [], crc := 0xAE426082 }
def chunkIhdr : Chunk :=
  { ctype := typeIhdr, data := [0, 0, 0, 1, 0, 0, 0, 1, 8, 0, 0, 0, 0], crc := 0x3A7E9B55 }

/-- V-PNG-1 and V-ORCH-1. -/
def streamPng : List Byte := [0x89, 0x50, 0x4E, 0x47, 0x0D, 0x0A, 0x1A, 0x0A] ++ frameIhdr ++ frameIend
def streamOrch : List Byte := streamPng ++ frameRust

/-- A stream at 0, a type string at 0x400, "some message" at 0x500, DST at 0x800 with 0x400 bytes (95_test_vectors.md, Orchestration). -/
def orchState (b ty : List Byte) : State :=
  { State.reset with
    buf := Memory.writeBytes (Memory.writeBytes (Memory.writeBytes [] 0 b) 0x400 ty) 0x500 someMessage
    srcLen := BitVec.ofNat 32 b.length
    argAddr := 0x400
    argLen := BitVec.ofNat 32 ty.length
    msgAddr := 0x500
    msgLen := 12
    dstAddr := 0x800
    dstCap := 0x400 }

/-- "ruSt". -/
def ruSt : List Byte := [0x72, 0x75, 0x53, 0x74]

/-- A container of V-ORCH-1, with TYPE "ruSt". -/
def loadedState : State := { State.reset with png := some [chunkIhdr, chunkIend, chunkRust], typeReg := 0x72755374 }

/-- The staged "ruSt" chunk, with DST at 0x200. -/
def stagedState : State := { State.reset with stage := some chunkRust, dstAddr := 0x200, dstCap := 24 }

/-! ### One command each -/

/-- V-ERR-7: NOP clears an earlier error. -/
theorem test_nop :
    seen .nop (·.result) (State.reset.failedWith 0x08 0) = some (0x00000002, 0) := by decide +kernel

/-- V-CRC-9. -/
theorem test_crcInit :
    seen .crcInit (·.crcAcc) { State.reset with crcAcc := 0x12345678 } = some (0x00010002, 0xFFFFFFFF) := by decide +kernel

/-- V-CRC-6. -/
theorem test_crcUpdate :
    seen .crcUpdate (·.crcAcc) (withSource [0x49, 0x45]) = some (0x00020002, 0x992BAC53) := by decide +kernel

/-- V-CRC-20: the range passes the end of BUF. -/
theorem test_crcUpdate_range :
    seen .crcUpdate (·.crcAcc) (State.reset.withSrc 4095 2) = some (0x00020906, 0xFFFFFFFF) := by decide +kernel

/-- V-CRC-8. -/
theorem test_crcFinal :
    seen .crcFinal (·.result) { State.reset with crcAcc := 0x51BD9F7D } = some (0x00030002, 0xAE426082) := by decide +kernel

/-- V-CRC-3, the check value. -/
theorem test_crc32 :
    seen .crc32 (·.result) (withSource [0x31, 0x32, 0x33, 0x34, 0x35, 0x36, 0x37, 0x38, 0x39]) = some (0x00040002, 0xCBF43926) := by decide +kernel

/-- V-CRC-21, V-CRC-22, V-CRC-23: an empty range at the end of BUF is legal, and the sum does not wrap. -/
theorem test_crc32_range :
    (after .crc32 (State.reset.withSrc 4096 0)).map (·.status.toWord) = some 0x00040002 ∧
    (after .crc32 (State.reset.withSrc 4097 0)).map (·.status.toWord) = some 0x00040906 ∧
    (after .crc32 (State.reset.withSrc 0xFFFFFFFF 2)).map (·.status.toWord) = some 0x00040906 := by decide +kernel

/-- V-CRC-17. -/
theorem test_crcCheck :
    seen .crcCheck (·.result) { withSource [0x49, 0x45, 0x4E, 0x44] with crcExp := 0xAE426082 } = some (0x00050002, 0xAE426082) := by decide +kernel

/-- V-CRC-18. -/
theorem test_crcCheck_mismatch :
    seen .crcCheck (·.result) { withSource [0x49, 0x45, 0x4E, 0x44] with crcExp := 0xAE426083 } = some (0x00050306, 0) := by decide +kernel

/-- V-TYPE-32. -/
theorem test_typeLoad :
    seen .typeLoad (·.typeReg) (withSource [0x49, 0x45, 0x4E, 0x44]) = some (0x00100002, 0x49454E44) := by decide +kernel

/-- V-TYPE-33. -/
theorem test_typeLoad_range :
    seen .typeLoad (·.typeReg) (State.reset.withSrc 4093 0) = some (0x00100946, 0) := by decide +kernel

/-- V-TYPE-20. -/
theorem test_typeFromString :
    seen .typeFromString (·.typeReg) (withSource ruSt) = some (0x00110002, 0x72755374) := by decide +kernel

/-- V-TYPE-25, V-TYPE-27, V-TYPE-28: the length comes first; 5B and 20 are no letters. -/
theorem test_typeFromString_refused :
    seen .typeFromString (·.typeReg) (withSource [0x61, 0x62, 0x31]) = some (0x00110406, 0) ∧
    seen .typeFromString (·.typeReg) (withSource [0x72, 0x75, 0x5B, 0x74]) = some (0x00110416, 0) ∧
    seen .typeFromString (·.typeReg) (withSource [0x72, 0x75, 0x20, 0x74]) = some (0x00110416, 0) := by decide +kernel

/-- V-TYPE-1, V-TYPE-9, V-TYPE-11, V-TYPE-7. -/
theorem test_typeIsValid :
    seen .typeIsValid (·.result) { State.reset with typeReg := 0x52755374 } = some (0x00120002, 1) ∧
    seen .typeIsValid (·.result) { State.reset with typeReg := 0x72757374 } = some (0x00120002, 0) ∧
    seen .typeIsValid (·.result) { State.reset with typeReg := 0x40404040 } = some (0x00120002, 0) ∧
    seen .typeIsValid (·.result) { State.reset with typeReg := 0x49484452 } = some (0x00120002, 1) := by decide +kernel

/-- V-TYPE-1, V-TYPE-9, V-TYPE-11, V-TYPE-7. -/
theorem test_typeIsCritical :
    seen .typeIsCritical (·.result) { State.reset with typeReg := 0x52755374 } = some (0x00130002, 1) ∧
    seen .typeIsCritical (·.result) { State.reset with typeReg := 0x72757374 } = some (0x00130002, 0) ∧
    seen .typeIsCritical (·.result) { State.reset with typeReg := 0x40404040 } = some (0x00130002, 1) ∧
    seen .typeIsCritical (·.result) { State.reset with typeReg := 0x49484452 } = some (0x00130002, 1) := by decide +kernel

/-- V-TYPE-1, V-TYPE-9, V-TYPE-11, V-TYPE-7. -/
theorem test_typeIsPublic :
    seen .typeIsPublic (·.result) { State.reset with typeReg := 0x52755374 } = some (0x00140002, 0) ∧
    seen .typeIsPublic (·.result) { State.reset with typeReg := 0x72757374 } = some (0x00140002, 0) ∧
    seen .typeIsPublic (·.result) { State.reset with typeReg := 0x40404040 } = some (0x00140002, 1) ∧
    seen .typeIsPublic (·.result) { State.reset with typeReg := 0x49484452 } = some (0x00140002, 1) := by decide +kernel

/-- V-TYPE-1, V-TYPE-9, V-TYPE-11, V-TYPE-7. -/
theorem test_typeIsPrivate :
    seen .typeIsPrivate (·.result) { State.reset with typeReg := 0x52755374 } = some (0x00150002, 1) ∧
    seen .typeIsPrivate (·.result) { State.reset with typeReg := 0x72757374 } = some (0x00150002, 1) ∧
    seen .typeIsPrivate (·.result) { State.reset with typeReg := 0x40404040 } = some (0x00150002, 0) ∧
    seen .typeIsPrivate (·.result) { State.reset with typeReg := 0x49484452 } = some (0x00150002, 0) := by decide +kernel

/-- V-TYPE-1, V-TYPE-9, V-TYPE-11, V-TYPE-7. -/
theorem test_typeIsReservedBitValid :
    seen .typeIsReservedBitValid (·.result) { State.reset with typeReg := 0x52755374 } = some (0x00160002, 1) ∧
    seen .typeIsReservedBitValid (·.result) { State.reset with typeReg := 0x72757374 } = some (0x00160002, 0) ∧
    seen .typeIsReservedBitValid (·.result) { State.reset with typeReg := 0x40404040 } = some (0x00160002, 1) ∧
    seen .typeIsReservedBitValid (·.result) { State.reset with typeReg := 0x49484452 } = some (0x00160002, 1) := by decide +kernel

/-- V-TYPE-1, V-TYPE-9, V-TYPE-11, V-TYPE-7. -/
theorem test_typeIsSafeToCopy :
    seen .typeIsSafeToCopy (·.result) { State.reset with typeReg := 0x52755374 } = some (0x00170002, 1) ∧
    seen .typeIsSafeToCopy (·.result) { State.reset with typeReg := 0x72757374 } = some (0x00170002, 1) ∧
    seen .typeIsSafeToCopy (·.result) { State.reset with typeReg := 0x40404040 } = some (0x00170002, 0) ∧
    seen .typeIsSafeToCopy (·.result) { State.reset with typeReg := 0x49484452 } = some (0x00170002, 0) := by decide +kernel

/-- V-CHUNK-1. -/
theorem test_chunkNew :
    (after .chunkNew { withSource someMessage with typeReg := 0x72755374 }).map (fun t => (t.status.toWord, t.stage, t.stageLen, t.stageType, t.flags)) =
      some (0x00200002, some chunkRust, 12, 0x72755374, 2) := by decide +kernel

/-- R182: more data than STORE_BYTES. -/
theorem test_chunkNew_capacity :
    (after .chunkNew { withSource [1, 2] with cfg := { Config.cfgA with storeBytes := 1 } }).map (·.status.toWord) = some 0x00200D16 := by decide +kernel

/-- V-CHUNK-6: the bytes after the frame are ignored. -/
theorem test_chunkParse :
    (after .chunkParse (withSource (frameIend ++ [1, 2, 3]))).map (fun t => (t.status.toWord, t.stage, t.result)) =
      some (0x00210002, some chunkIend, 12) := by decide +kernel

/-- V-CHUNK-11, V-CHUNK-12, V-CHUNK-13, V-CHUNK-14, V-CHUNK-19. -/
theorem test_chunkParse_errors :
    (after .chunkParse (withSource (frameIend.take 7))).map (·.status.toWord) = some 0x00210206 ∧
    (after .chunkParse (withSource [0, 0, 0, 1, 0x49, 0x45, 0x4E, 0x44])).map (·.status.toWord) = some 0x00210216 ∧
    (after .chunkParse (withSource (frameIend.take 11))).map (·.status.toWord) = some 0x00210226 ∧
    (after .chunkParse (withSource (frameIend.take 11 ++ [0x83]))).map (·.status.toWord) = some 0x00210306 ∧
    (after .chunkParse { withSource frameRust with cfg := { Config.cfgA with storeBytes := 11 } }).map (·.status.toWord) = some 0x00210D16 := by decide +kernel

/-- V-CHUNK-2. -/
theorem test_chunkSerialize :
    seenOutput .chunkSerialize stagedState = some (0x00220002, 24, frameRust) := by decide +kernel

/-- V-CHUNK-3, V-CHUNK-24: NO_CHUNK comes before the range. -/
theorem test_chunkSerialize_errors :
    seen .chunkSerialize (·.dstLen) { stagedState with dstCap := 23 } = some (0x00220A06, 0) ∧
    seen .chunkSerialize (·.dstLen) (State.reset.withDst 4096 1) = some (0x00220C06, 0) := by decide +kernel

/-- V-CHUNK-20. -/
theorem test_chunkData :
    seenOutput .chunkData (stagedState.withDst 0x200 12) = some (0x00230002, 12, someMessage) := by decide +kernel

/-- V-CHUNK-23. -/
theorem test_chunkData_none :
    seen .chunkData (·.dstLen) (State.reset.withDst 0x200 12) = some (0x00230C06, 0) := by decide +kernel

/-- V-CHUNK-21, V-CHUNK-22. -/
theorem test_chunkToString :
    seenOutput .chunkToString (stagedState.withDst 0x200 12) = some (0x00240002, 12, someMessage) ∧
    seen .chunkToString (·.dstLen) (stagedState.withDst 0x200 11) = some (0x00240A06, 0) := by decide +kernel

/-- V-UTF-1 to V-UTF-15. -/
theorem test_utf8 :
    utf8Valid [] = true ∧ utf8Valid [0x00] = true ∧ utf8Valid [0xC2, 0xA9] = true ∧ utf8Valid [0xE2, 0x82, 0xAC] = true ∧
    utf8Valid [0xEF, 0xBF, 0xBF] = true ∧ utf8Valid [0xF0, 0x9F, 0x98, 0x80] = true ∧ utf8Valid [0xF4, 0x8F, 0xBF, 0xBF] = true ∧
    utf8Valid [0xFF] = false ∧ utf8Valid [0x80] = false ∧ utf8Valid [0xC0, 0xAF] = false ∧ utf8Valid [0xE0, 0x80, 0x80] = false ∧
    utf8Valid [0xED, 0xA0, 0x80] = false ∧ utf8Valid [0xF4, 0x90, 0x80, 0x80] = false ∧ utf8Valid [0xF5, 0x80, 0x80, 0x80] = false ∧
    utf8Valid [0xE2, 0x82] = false := by decide +kernel

/-- V-PNG-1. -/
theorem test_pngParse :
    (after .pngParse (withSource streamPng)).map (fun t => (t.status.toWord, t.png, t.chunkCount, t.flags)) =
      some (0x00300002, some [chunkIhdr, chunkIend], 2, 1) := by decide +kernel

/-- V-PNG-6, V-PNG-8, V-PNG-10, V-PNG-12, V-PNG-15, V-PNG-16. -/
theorem test_pngParse_errors :
    (after .pngParse (withSource [0, 0, 0, 0, 0, 0, 0])).map (·.status.toWord) = some 0x00300116 ∧
    (after .pngParse (withSource [0x89, 0x50, 0x4E, 0x47, 0x0D, 0x0A, 0x1A, 0x0B])).map (·.status.toWord) = some 0x00300106 ∧
    (after .pngParse (withSource (streamPng.take 44))).map (·.status.toWord) = some 0x00300226 ∧
    (after .pngParse (withSource (streamPng ++ [0, 0, 0, 0, 0, 0, 0, 0, 0, 0, 0, 0]))).map (·.status.toWord) = some 0x00300306 ∧
    (after .pngParse { withSource streamPng with cfg := { Config.cfgA with maxChunks := 1 } }).map (·.status.toWord) = some 0x00300D06 ∧
    (after .pngParse { withSource streamPng with cfg := { Config.cfgA with storeBytes := 12 } }).map (·.status.toWord) = some 0x00300D16 := by decide +kernel

/-- V-PNG-18: the container of V-ORCH-1. -/
theorem test_pngSerialize :
    seenOutput .pngSerialize (loadedState.withDst 0x200 69) = some (0x00310002, 69, streamOrch) := by decide +kernel

/-- V-PNG-32, V-PNG-33, V-PNG-3 for 69 bytes. -/
theorem test_pngSerialize_errors :
    seen .pngSerialize (·.dstLen) (State.reset.withDst 5000 0) = some (0x00310B06, 0) ∧
    seen .pngSerialize (·.dstLen) (loadedState.withDst 5000 0) = some (0x00310936, 0) ∧
    seen .pngSerialize (·.dstLen) (loadedState.withDst 0x200 68) = some (0x00310A06, 0) := by decide +kernel

/-- V-PNG-18. -/
theorem test_pngAppend :
    (after .pngAppend { State.reset with png := some [chunkIhdr, chunkIend], stage := some chunkRust }).map
        (fun t => (t.status.toWord, t.png, t.stage)) = some (0x00320002, some [chunkIhdr, chunkIend, chunkRust], none) := by decide +kernel

/-- V-PNG-31, V-PNG-19, V-PNG-34. -/
theorem test_pngAppend_errors :
    (after .pngAppend State.reset).map (·.status.toWord) = some 0x00320B06 ∧
    (after .pngAppend loadedState).map (·.status.toWord) = some 0x00320C06 ∧
    (after .pngAppend { loadedState with stage := some chunkRust, cfg := { Config.cfgA with maxChunks := 3 } }).map (·.status.toWord) =
      some 0x00320D06 := by decide +kernel

/-- V-PNG-28. -/
theorem test_pngRemove :
    (after .pngRemove loadedState).map (fun t => (t.status.toWord, t.png, t.stage)) =
      some (0x00330002, some [chunkIhdr, chunkIend], some chunkRust) := by decide +kernel

/-- V-PNG-29. -/
theorem test_pngRemove_absent :
    (after .pngRemove { loadedState with png := some [chunkIhdr, chunkIend] }).map (·.status.toWord) = some 0x00330606 := by decide +kernel

/-- V-PNG-22. -/
theorem test_pngFind :
    (after .pngFind loadedState).map (fun t => (t.status.toWord, t.result, t.index, t.stage)) =
      some (0x00340002, 1, 2, some chunkRust) := by decide +kernel

/-- V-PNG-24: RuSt is not ruSt. -/
theorem test_pngFind_absent :
    (after .pngFind { loadedState with typeReg := 0x52755374, index := 7, result := 5 }).map
        (fun t => (t.status.toWord, t.result, t.index, t.stage)) = some (0x00340002, 0, 7, none) := by decide +kernel

/-- V-PNG-26. -/
theorem test_pngGet :
    (after .pngGet { loadedState with index := 1 }).map (fun t => (t.status.toWord, t.stage)) = some (0x00350002, some chunkIend) := by decide +kernel

/-- V-PNG-27. -/
theorem test_pngGet_past_end :
    (after .pngGet { loadedState with index := 3 }).map (fun t => (t.status.toWord, t.stage)) = some (0x00350E06, none) := by decide +kernel

/-- V-PNG-20. -/
theorem test_pngHeader :
    seenOutput .pngHeader (State.reset.withDst 0x300 8) = some (0x00360002, 8, [0x89, 0x50, 0x4E, 0x47, 0x0D, 0x0A, 0x1A, 0x0A]) := by decide +kernel

/-- V-PNG-21. -/
theorem test_pngHeader_overflow :
    seen .pngHeader (·.dstLen) (State.reset.withDst 0x300 7) = some (0x00360A06, 0) := by decide +kernel

/-- V-ORCH-1. -/
theorem test_opEncode :
    seenOutput .opEncode (orchState streamPng ruSt) = some (0x00400002, 69, streamOrch) := by decide +kernel

/-- V-ORCH-5, V-ORCH-7, V-ORCH-17, V-ORCH-18, V-ORCH-19, V-ORCH-20. -/
theorem test_opEncode_errors :
    (after .opEncode (orchState streamPng [0x62, 0x61, 0x64])).map (·.status.toWord) = some 0x00400406 ∧
    (after .opEncode (orchState (streamPng.take 7) [0x62, 0x61, 0x64])).map (·.status.toWord) = some 0x00400116 ∧
    (after .opEncode { orchState streamPng ruSt with cfg := { Config.cfgA with maxChunks := 2 } }).map (·.status.toWord) = some 0x00400D06 ∧
    (after .opEncode { orchState streamPng ruSt with cfg := { Config.cfgA with storeBytes := 24 } }).map (·.status.toWord) = some 0x00400D16 ∧
    (after .opEncode ((orchState streamPng ruSt).withDst 0x800 68)).map (·.status.toWord) = some 0x00400A06 ∧
    (after .opEncode ((orchState streamPng ruSt).withDst 4000 200)).map (·.status.toWord) = some 0x00400936 := by decide +kernel

/-- V-ORCH-2. -/
theorem test_opDecode :
    seenOutput .opDecode (orchState streamOrch ruSt) = some (0x00410002, 12, someMessage) := by decide +kernel

/-- V-ORCH-4, V-ORCH-8. -/
theorem test_opDecode_absent :
    seenOutput .opDecode (orchState streamPng ruSt) = some (0x00410002, 23,
      [0x4E, 0x6F, 0x20, 0x73, 0x65, 0x63, 0x72, 0x65, 0x74, 0x20, 0x6D, 0x65, 0x73, 0x73, 0x61, 0x67, 0x65, 0x20, 0x66, 0x6F, 0x75, 0x6E, 0x64]) ∧
    (after .opDecode ((orchState streamPng ruSt).withDst 0x800 22)).map (·.status.toWord) = some 0x00410A06 := by decide +kernel

/-- V-ORCH-3. -/
theorem test_opRemove :
    seenOutput .opRemove (orchState streamOrch ruSt) = some (0x00420002, 45, streamPng) := by decide +kernel

/-- V-ORCH-12. -/
theorem test_opRemove_absent :
    seen .opRemove (·.dstLen) (orchState streamPng ruSt) = some (0x00420606, 0) := by decide +kernel

/-- 60_exceptions.md R250: the numbers of the errors of a frame and of a stream. -/
theorem test_error_numbers :
    [CmdError.invalidSignature .mismatch, .invalidSignature .tooShort, .truncated .header, .truncated .data, .truncated .crc, .crcMismatch,
      .invalidChunkType .wrongLength, .invalidChunkType .nonAlphabetic, .capacityExceeded .chunks, .capacityExceeded .bytes].map
        (fun e => (e.code, e.sub)) =
      [(0x01, 0), (0x01, 1), (0x02, 0), (0x02, 1), (0x02, 2), (0x03, 0), (0x04, 0), (0x04, 1), (0x0D, 0), (0x0D, 1)] := by decide

/-! ### Steps and the host -/

/-- V-ERR-1, V-ERR-2, V-ERR-3, V-ERR-6, as one step on the pending word. -/
theorem test_step_illegal_words :
    statusAfterWord 0x06 = some 0x00060806 ∧ statusAfterWord 0x100 = some 0x00000816 ∧ statusAfterWord 0xFF = some 0x00FF0806 ∧
    statusAfterWord 0x80000030 = some 0x00300816 ∧ statusAfterWord 0x00 = some 0x00000002 := by decide +kernel

/-- V-ERR-12: SIG_HI, SIG_LO, CAP_MEM, CAP_CHUNKS, CAP_STORE. -/
theorem test_host_reads :
    State.reset.regValue .sigHi = 0x89504E47 ∧ State.reset.regValue .sigLo = 0x0D0A1A0A ∧ State.reset.regValue .capMem = 0x00000FFF ∧
    State.reset.regValue .capChunks = 0x00000010 ∧ State.reset.regValue .capStore = 0x00000400 := by decide +kernel

/-- V-ERR-9: a misaligned read is a host fault. -/
theorem test_misaligned_read_faults : hostAction (.regRead 0x02) State.reset = .fault .misalignedOffset := rfl

/-- V-ERR-10, V-ERR-11: a reserved offset reads 0; a write to RESULT changes nothing. -/
theorem test_reserved_and_read_only :
    hostAction (.regRead 0x68) State.reset = .next { State.reset with reads := [.reg 0x68 0] } ∧
    hostAction (.regWrite 0x68 1) State.reset = .next State.reset ∧
    hostAction (.regWrite 0x2C 5) State.reset = .next State.reset := ⟨rfl, rfl, rfl⟩

/-- R82, R289: with MEM_SIZE = 2^32 a BUFW that starts at the last byte writes it and then faults, and so does a BUFR. -/
theorem test_last_byte_does_not_wrap :
    HostLine.inputs (.bufw 0xFFFFFFFF [1, 2]) = [.act (.bufWrite 0xFFFFFFFF 1), .act (.bufWrite 0x100000000 2)] ∧
    HostLine.inputs (.bufr 0xFFFFFFFF 2) = [.act (.bufRead 0xFFFFFFFF), .act (.bufRead 0x100000000)] ∧
    hostAction (.bufWrite 0x100000000 2) (State.resetWith { Config.cfgA with memSize := 2 ^ 32 }) = .fault .bufAddressOutOfRange ∧
    hostAction (.bufRead 0x100000000) (State.resetWith { Config.cfgA with memSize := 2 ^ 32 }) = .fault .bufAddressOutOfRange :=
  ⟨by decide, by decide, rfl, rfl⟩

/-- The lines of program P1 (95_test_vectors.md, Part 3), as host actions. -/
theorem test_program_lines :
    HostLine.inputs (.bufw 0 [0x49, 0x45]) = [.act (.bufWrite 0 0x49), .act (.bufWrite 1 0x45)] ∧
    HostLine.inputs (.bufs 0x100 [0x72, 0x75]) = [.act (.bufWrite 0x100 0x72), .act (.bufWrite 0x101 0x75)] ∧
    HostLine.inputs (.run .crcUpdate) = [.act (.regWrite 0x00 0x00000002), .wait] ∧
    HostLine.inputs (.rd .crcAcc) = [.act (.regRead 0x34)] := by decide

/-! ### A witness for the hypotheses of each statement, clause by clause -/

/-- CRC32 pending, with nothing outside. -/
def pendingCrc32 : State := State.reset.withFetchWord 32 0x04

/-- The outside is about to poll. -/
def poll : List Input := [.act (.regRead 0x04)]

theorem witness_DecodeIsTheInverseOfEncode :
    (0x100 : Word) >>> 8 ≠ 0 ∧ (0x06 : Word) >>> 8 = 0 ∧ ∀ i, (0x06 : Word) ≠ encode i :=
  ⟨by decide, by decide, fun i => by cases i <;> decide⟩

theorem witness_StepRunsThePendingCommand :
    pendingCrc32.status.busy = true ∧ decode pendingCrc32.cmd = .ok .crc32 ∧ pendingCrc32.script = [] ∧
    ({ pendingCrc32 with script := poll }.script ≠ [] ∧ { pendingCrc32 with script := poll }.turns = []) ∧
    { pendingCrc32 with script := poll, turns := [.engine, .host] }.turns = .engine :: [.host] := by decide

theorem witness_ReservedWordsCompleteAsIllegal :
    (State.reset.withFetchWord 32 0x100).cmd >>> 8 ≠ 0 ∧ (State.reset.withFetchWord 32 0x06).cmd.toNat = 0x06 ∧
    (State.reset.withFetchWord 32 0x1F).cmd.toNat = 0x1F ∧ (State.reset.withFetchWord 32 0x25).cmd.toNat = 0x25 ∧
    (State.reset.withFetchWord 32 0x3F).cmd.toNat = 0x3F ∧ (State.reset.withFetchWord 32 0x43).cmd.toNat = 0x43 ∧
    (State.reset.withFetchWord 32 0xFF).cmd.toNat = 0xFF := by decide

theorem witness_CommandAcceptanceStartsACommand : State.reset.status.busy = false := rfl

theorem witness_ErrorChangesNothingButStatus :
    ∃ t, exec .pngGet State.reset = .next t ∧ t.status.err = true ∧ t.status.toWord = 0x00000B06 := ⟨_, rfl, rfl, by decide⟩

theorem witness_EveryErrorIsOneOfTheCommands :
    (∃ t, exec .crcInit State.reset = .next t ∧ t.status.err = false) ∧ ∃ t, exec .pngFind State.reset = .next t ∧ t.status.err = true :=
  ⟨⟨_, rfl, rfl⟩, _, rfl, rfl⟩

theorem witness_CommandsWriteOnlyWhatTheTableLists :
    ∃ t, exec .crcFinal State.reset = .next t ∧ { State.reset with result := 5 }.result ≠ t.result := ⟨_, rfl, by decide⟩

theorem witness_StoresStayInsideTheOutput :
    (∃ t, exec .pngHeader (State.reset.withDst 0x300 8) = .next t ∧ t.dstLen = 8 ∧ t.byteAt 0x307 = 0x0A) ∧
    (∃ t, exec .pngHeader (State.reset.withDst 0x300 7) = .next t ∧ t.status.err = true) ∧
    Instr.crc32 ∉ [Instr.chunkSerialize, .chunkData, .chunkToString, .pngSerialize, .pngHeader, .opEncode, .opDecode, .opRemove] :=
  ⟨⟨_, rfl, rfl, rfl⟩, ⟨_, rfl, rfl⟩, by decide⟩

theorem witness_StepRunsTheOutside :
    { State.reset with script := poll }.script = .act (.regRead 0x04) :: [] ∧ State.reset.status.busy = false ∧
    { pendingCrc32 with script := poll, turns := [.host] }.script = .act (.regRead 0x04) :: [] ∧
    { pendingCrc32 with script := poll, turns := [.host] }.turns = .host :: [] ∧ pendingCrc32.status.busy = true ∧
    { State.reset with script := [.wait] }.script = .wait :: [] ∧
    { pendingCrc32 with script := [.wait], turns := [.host] }.script = .wait :: [] ∧ State.reset.script = [] ∧
    { loadedState with script := [.reset] }.script = .reset :: [] ∧
    { pendingCrc32 with script := [.reset], turns := [.host] }.script = .reset :: [] := by decide

theorem witness_RegisterMapAsReadWhenIdle :
    State.reset.status.busy = false ∧ ((0x64 : Nat), BitVec.ofNat 32 State.reset.cfg.storeBytes) ∈
      [((0x00 : Nat), State.reset.cmd), (0x64, BitVec.ofNat 32 State.reset.cfg.storeBytes)] := by decide

theorem witness_ViewsOfStageAndContainer :
    State.reset.stage = none ∧ stagedState.stage = some chunkRust ∧ State.reset.png = none ∧
    loadedState.png = some [chunkIhdr, chunkIend, chunkRust] ∧ { State.reset with png := some [] }.png = some [] := by decide

theorem witness_RegisterWritesWhenIdle :
    State.reset.status.busy = false ∧ (0x68 ≤ 0xFC ∧ 0xFC ≤ 0xFC ∧ 0xFC % 4 = 0) ∧ (0x68 ≤ 0x68 ∧ 0x68 ≤ 0xFC ∧ 0x68 % 4 = 0) := by decide

theorem witness_BufAccessesWhenIdle : State.reset.status.busy = false ∧ 0 < State.reset.cfg.memSize ∧ 4095 < State.reset.cfg.memSize := by
  decide

theorem witness_HostProtocolViolationsFault :
    0x100 ≤ 0x100 ∧ 0xFF % 4 ≠ 0 ∧ State.reset.cfg.memSize ≤ 4096 ∧ pendingCrc32.status.busy = true := by decide

theorem witness_ReadWhileBusy :
    pendingCrc32.status.busy = true ∧ 4095 < pendingCrc32.cfg.memSize ∧ 0x50 ∈ [0x00, 0x50] ∧
    (0x68 ≤ 0x68 ∧ 0x68 ≤ 0xFC ∧ 0x68 % 4 = 0) ∧ (0x68 ≤ 0xFC ∧ 0xFC ≤ 0xFC ∧ 0xFC % 4 = 0) := by decide

theorem witness_RegistersAfterReset :
    0 < 0x68 ∧ 0 % 4 = 0 ∧ 0 ∉ [0x34, 0x54, 0x58, 0x5C, 0x60, 0x64] ∧ 0x50 < 0x68 ∧ 0x50 % 4 = 0 ∧ 0x50 ∉ [0x34, 0x54, 0x58, 0x5C, 0x60, 0x64] := by
  decide

theorem witness_InvariantHoldsAtReset : Config.cfgA.wf = true ∧ ({ Config.cfgA with memSize := 2 ^ 32 }).wf = true := by decide

theorem witness_EveryStepKeepsTheInvariant :
    { loadedState with stage := some chunkRust }.Inv ∧
    ∃ t, step ({ loadedState with stage := some chunkRust }.withFetchWord 32 0x32) = .next t ∧ t.stage = none :=
  ⟨by decide +kernel, _, rfl, rfl⟩

theorem witness_PendingCommandCompletes :
    { pendingCrc32 with script := [.wait, .act (.regRead 0xFC), .act (.bufRead 4095)], turns := [.host, .engine] }.status.busy = true ∧
    0xFC < 0x100 ∧ 0xFC % 4 = 0 ∧ 4095 < pendingCrc32.cfg.memSize := by decide

theorem witness_MeaningsIgnoreWhatIsOutsideTheBlock : ∃ t, exec .crcInit State.reset = .next t := ⟨_, rfl⟩

theorem witness_ranges_of_SRC :
    (State.reset.withSrc 4095 1).Legal 4095 1 ∧ (State.reset.withSrc 4096 0).Legal 4096 0 ∧ ¬ (State.reset.withSrc 4095 2).Legal 4095 2 ∧
    ¬ (State.reset.withSrc 0xFFFFFFFF 2).Legal 0xFFFFFFFF 2 := by decide

/-- For CrcUpdateFoldsTheSource, Crc32OfTheSource and CrcCheckComparesAllBits. -/
theorem witness_CrcCheckComparesAllBits :
    (withSource [0x49, 0x45, 0x4E, 0x44]).Legal 0 4 ∧ crc32 ((withSource [0x49, 0x45, 0x4E, 0x44]).bytesAt 0 4) = 0xAE426082 ∧
    crc32 ((withSource [0x49, 0x45, 0x4E, 0x44]).bytesAt 0 4) ≠ 0xAE426083 := by decide +kernel

theorem witness_StreamedCrcIsTheCrcOfTheWhole :
    (∀ r ∈ [((0 : Word), (2 : Word)), (2, 2), (4096, 0)], State.reset.Legal r.1 r.2) ∧
    (withSource ruSt).bytesAt 0 4 = [((0 : Word), (2 : Word)), (2, 2)].flatMap (fun r => (withSource ruSt).bytesAt r.1 r.2) := by
  refine ⟨?_, by decide +kernel⟩
  intro r hr
  simp only [List.mem_cons, List.not_mem_nil, or_false] at hr
  obtain rfl | rfl | rfl := hr <;> decide

theorem witness_CrcDetectsEverySingleBitFlip : 0 < [(0x61 : Byte)].length ∧ 7 < 8 := by decide

theorem witness_TypeLoadTakesAnyFourBytes :
    (State.reset.withSrc 4092 0).srcAddr.toNat + 4 ≤ State.reset.cfg.memSize ∧
    State.reset.cfg.memSize < (State.reset.withSrc 4093 0).srcAddr.toNat + 4 := by decide

theorem witness_TypeFromStringChecksLengthThenLetters :
    (∀ b ∈ (withSource ruSt).bytesAt 0 4, Letter b) ∧ (withSource [0x62, 0x61, 0x64]).srcLen ≠ 4 ∧
    (∃ b ∈ (withSource [0x41, 0x5A, 0x61, 0x5B]).bytesAt 0 4, ¬ Letter b) := by decide +kernel

theorem witness_TypePredicatesReadTheirBits :
    ((∀ b ∈ u32be 0x72755374, Letter b) ∧ (0x72755374 : Word).getLsbD 13 = false) ∧
    ¬ ((∀ b ∈ u32be 0x52757374, Letter b) ∧ (0x52757374 : Word).getLsbD 13 = false) := by decide +kernel

theorem witness_ParseChunkIsStrict :
    (frameIend.take 7).length < 8 ∧ ([] : List Byte).length < (1 : Word).toNat ∧
    ([] : List Byte).length = (0 : Word).toNat ∧ [(0x21 : Byte), 0x44, 0xDF].length < 4 ∧
    (0xAE426082 : Word) = crc32 (typeIend.bytes ++ []) ∧ (0xAE426083 : Word) ≠ crc32 (typeIend.bytes ++ []) := by decide +kernel

theorem witness_ChunkNewStagesAChunk :
    { withSource [1, 2] with cfg := { Config.cfgA with storeBytes := 1 } }.cfg.storeBytes < (2 : Word).toNat ∧
    (2 : Word).toNat ≤ { withSource [1, 2] with cfg := { Config.cfgA with storeBytes := 2 } }.cfg.storeBytes := by decide

theorem witness_ChunkParseStagesTheFirstFrame :
    (∃ c, parseChunk ((withSource frameRust).bytesAt 0 24) = .ok (c, 24) ∧ 11 < c.data.length ∧ c.data.length ≤ 12) ∧
    ∃ e, parseChunk ((withSource (frameIend.take 11)).bytesAt 0 11) = .error e := by
  refine ⟨⟨chunkRust, ?_, by decide⟩, ⟨.truncated .crc, ?_⟩⟩ <;> decide +kernel

theorem witness_ChunkSerializeOutputsTheFrame :
    State.reset.stage = none ∧ stagedState.stage = some chunkRust ∧ ¬ stagedState.Legal 4096 1 ∧ stagedState.Legal 0x200 24 ∧
    (23 : Word).toNat < 12 + chunkRust.data.length ∧ 12 + chunkRust.data.length ≤ (24 : Word).toNat := by decide

theorem witness_ChunkDataAndTextOutputTheData :
    utf8Valid [0xFF] = false ∧ utf8Valid chunkRust.data = true ∧ (11 : Word).toNat < chunkRust.data.length ∧
    chunkRust.data.length ≤ (12 : Word).toNat := by decide +kernel

/-- For ChunkRoundTrip and FrameBitFlipIsDetected: a chunk, and one with no data. -/
theorem witness_ChunkRoundTrip :
    chunkRust.Sound ∧ chunkIend.Sound ∧ (4 ≤ 4 ∧ 4 < 12 + chunkIend.data.length) ∧ (4 ≤ 11 ∧ 11 < 12 + chunkIend.data.length) ∧
    parseChunk frameRust = .ok (chunkRust, 24) := by decide +kernel

theorem witness_ParsePngReportsTheFirstFailure :
    (streamPng.take 7).length < 8 ∧ (8 ≤ (streamPng.drop 1).length ∧ (streamPng.drop 1).take 8 ≠ sig) ∧
    ((∀ c ∈ [chunkIhdr, chunkIend], c.Sound) ∧ [chunkIhdr, chunkIend].length ≤ Config.cfgA.maxChunks ∧
      dataTotal [chunkIhdr, chunkIend] ≤ Config.cfgA.storeBytes) ∧
    parseChunk [0] = .error (.truncated .header) ∧ parseChunk frameRust = .ok (chunkRust, 24) ∧
    dataTotal [chunkIhdr, chunkIend] = 13 := by decide +kernel

theorem witness_StreamRoundTrip : parsePng Config.cfgA streamOrch = .ok [chunkIhdr, chunkIend, chunkRust] := by decide +kernel

theorem witness_FirstIndexIsTheLeast :
    firstOfType [chunkIhdr, chunkIend, chunkRust] typeRuSt = some (2, chunkRust) ∧ firstOfType [chunkIhdr, chunkIend] typeRuSt = none ∧
    [chunkIhdr, chunkIend, chunkRust][1]? = some chunkIend ∧ 1 < 2 := by decide

theorem witness_PngParseLoadsTheContainer :
    (withSource streamPng).Legal 0 45 ∧ parsePng Config.cfgA ((withSource streamPng).bytesAt 0 45) = .ok [chunkIhdr, chunkIend] ∧
    parsePng Config.cfgA ((withSource [0x89]).bytesAt 0 1) = .error (.invalidSignature .tooShort) := by decide +kernel

theorem witness_PngSerializeOutputsTheStream :
    State.reset.png = none ∧ loadedState.png = some [chunkIhdr, chunkIend, chunkRust] ∧ ¬ loadedState.Legal 5000 0 ∧ loadedState.Legal 0x200 69 ∧
    8 + 12 * [chunkIhdr, chunkIend, chunkRust].length + dataTotal [chunkIhdr, chunkIend, chunkRust] = 69 := by decide

theorem witness_PngAppendMovesTheStagedChunkToTheEnd :
    { loadedState with stage := some chunkRust }.stage = some chunkRust ∧ loadedState.stage = none ∧
    3 < [chunkIhdr, chunkIend, chunkRust].length + 1 ∧ [chunkIhdr, chunkIend, chunkRust].length + 1 ≤ 4 ∧
    36 < dataTotal [chunkIhdr, chunkIend, chunkRust] + chunkRust.data.length ∧
    dataTotal [chunkIhdr, chunkIend, chunkRust] + chunkRust.data.length ≤ 37 := by decide

/-- For PngRemoveMovesTheFirstMatchToTheStage and PngFindLooksUpTheFirstMatch: found, and absent. -/
theorem witness_PngFindLooksUpTheFirstMatch :
    loadedState.png = some ([chunkIhdr, chunkIend] ++ chunkRust :: []) ∧ chunkRust.ctype.bytes = u32be loadedState.typeReg ∧
    (∀ d ∈ [chunkIhdr, chunkIend], d.ctype.bytes ≠ u32be loadedState.typeReg) := by decide

theorem witness_PngGetAndHeader :
    [chunkIhdr, chunkIend, chunkRust].length ≤ (3 : Word).toNat ∧ (2 : Word).toNat = [chunkIhdr, chunkIend].length ∧
    (7 : Word).toNat < 8 ∧ 8 ≤ (8 : Word).toNat ∧ ¬ State.reset.Legal 4096 1 := by decide

theorem witness_PrimitivesKeepChunkOrder :
    (∃ t, exec .pngAppend { loadedState with stage := some chunkIend } = .next t ∧ t.status.err = false) ∧
    (∃ t, exec .pngRemove loadedState = .next t ∧ t.status.err = false) ∧
    ∃ t, exec .pngFind loadedState = .next t ∧ t.status.err = false := ⟨⟨_, rfl, rfl⟩, ⟨_, rfl, rfl⟩, ⟨_, rfl, rfl⟩⟩

/-- For OpEncodeAppendsTheMessage and EncodeThenDecodeGivesTheMessage, and the outer premises of EncodeThenRemoveGivesTheStreamBack: V-ORCH-1. -/
theorem witness_OpEncodeAppendsTheMessage :
    (orchState streamPng ruSt).Legal 0 45 ∧ (orchState streamPng ruSt).Legal 0x400 4 ∧ (orchState streamPng ruSt).Legal 0x500 12 ∧
    (orchState streamPng ruSt).Legal 0x800 0x400 ∧
    parsePng Config.cfgA ((orchState streamPng ruSt).bytesAt 0 45) = .ok [chunkIhdr, chunkIend] ∧
    typeFromString ((orchState streamPng ruSt).bytesAt 0x400 4) = .ok typeRuSt ∧ (∀ c ∈ [chunkIhdr, chunkIend], c.ctype ≠ typeRuSt) ∧
    utf8Valid ((orchState streamPng ruSt).bytesAt 0x500 12) = true ∧
    (after .opEncode (orchState streamPng ruSt)).map (fun t => (t.status.err, t.bytesAt 0x400 4)) = some (false, ruSt) ∧
    ((orchState streamPng ruSt).Legal 0xC00 0x100 ∧ 45 ≤ (0x100 : Word).toNat ∧ (orchState streamPng ruSt).Legal 0xD00 23) := by
  decide +kernel

/-- The state after OP_ENCODE of V-ORCH-1, after OP_REMOVE of its output, and after OP_DECODE of that, each with the ranges the host writes
in between: the type string stands at ARG throughout. -/
def encodedState : Option State := nextState .opEncode (orchState streamPng ruSt)
def removedState : Option State :=
  encodedState.bind (fun t => nextState .opRemove ((t.withSrc t.dstAddr t.dstLen).withDst 0xC00 0x100))
def decodedState : Option State :=
  removedState.bind (fun u => nextState .opDecode ((u.withSrc 0xC00 u.dstLen).withDst 0xD00 23))

theorem witness_EncodeThenRemoveGivesTheStreamBack :
    encodedState.map (fun t => (t.status.err, t.bytesAt t.argAddr t.argLen)) = some (false, ruSt) ∧
    removedState.map (fun u => (u.status.err, u.bytesAt u.argAddr u.argLen, u.bytesAt 0xC00 u.dstLen)) = some (false, ruSt, streamPng) ∧
    decodedState.map (fun v => (v.status.err, v.result)) = some (false, 0) := by decide +kernel

/-- For OpDecodeRecoversTheTextOrTheSentinel, OpRemoveTakesOutTheFirstMatch and AbsenceIsIdempotent: found (V-ORCH-2), absent (V-ORCH-4),
and not text (V-ORCH-10's data). -/
theorem witness_OpDecodeRecoversTheTextOrTheSentinel :
    parsePng Config.cfgA ((orchState streamOrch ruSt).bytesAt 0 69) = .ok ([chunkIhdr, chunkIend] ++ chunkRust :: []) ∧
    parsePng Config.cfgA ((orchState streamPng ruSt).bytesAt 0 45) = .ok [chunkIhdr, chunkIend] ∧
    chunkRust.ctype = typeRuSt ∧ (∀ c ∈ [chunkIhdr, chunkIend], c.ctype ≠ typeRuSt) ∧ utf8Valid [0xFF, 0xFE] = false ∧
    (0 + 45 ≤ (orchState streamPng ruSt).dstAddr.toNat ∧ 0x400 + 4 ≤ (orchState streamPng ruSt).dstAddr.toNat) ∧
    23 ≤ (orchState streamPng ruSt).dstCap.toNat := by decide +kernel

/-- For OrchestrationEqualsItsPrimitives: each command completes, found and absent. -/
theorem witness_OrchestrationEqualsItsPrimitives :
    (after .opEncode (orchState streamPng ruSt)).map (·.status.err) = some false ∧
    (after .opDecode (orchState streamOrch ruSt)).map (fun t => (t.status.err, t.result)) = some (false, 1) ∧
    (after .opDecode (orchState streamPng ruSt)).map (fun t => (t.status.err, t.result)) = some (false, 0) ∧
    (after .opRemove (orchState streamOrch ruSt)).map (·.status.err) = some false := by decide +kernel

end Sys2Proof.Tests
end

section
/-! PROOFS. The invariant of every reachable state holds right after reset (00_scope.md R6, 70_reset_and_hazards.md R280). -/

namespace Sys2Proof.Machine

/-- No flag of STATUS is set after reset, and ERRCODE and ERRSUB are 0. -/
theorem afterReset_legal : Status.afterReset.Legal := by
  simp [Status.Legal]

/-- A STATUS that reports no error has none outside the table of R250. -/
theorem errorListed_of_err_eq_false {st : Status} (h : st.err = false) : st.ErrorListed := by
  simp [Status.ErrorListed, h]

theorem chunks_of_png_eq_none {s : State} (h : s.png = none) : s.chunks = [] := by
  simp [State.chunks, h]

/-- Without a staged chunk and without a container there is no chunk for R51 to speak of. -/
theorem chunksSound_of_no_chunks {s : State} (hstage : s.stage = none) (hpng : s.png = none) : s.ChunksSound := by
  simp [State.ChunksSound, hstage, chunks_of_png_eq_none hpng]

/-- Without a staged chunk and without a container no capacity of R52 is used. -/
theorem withinCapacity_of_no_chunks {s : State} (hstage : s.stage = none) (hpng : s.png = none) : s.WithinCapacity := by
  simp [State.WithinCapacity, hstage, chunks_of_png_eq_none hpng, dataTotal]

/-- Part by part: only the ranges of the parameters are asked of the configuration. -/
theorem resetWith_inv {c : Config} (hc : c.wf = true) : (State.resetWith c).Inv :=
  have hlastOp : (State.resetWith c).status.lastOp = opcodeOf (State.resetWith c).cmd := rfl
  ⟨hc, empty_wf c.memSize, afterReset_legal, errorListed_of_err_eq_false rfl, hlastOp,
    chunksSound_of_no_chunks rfl rfl, withinCapacity_of_no_chunks rfl rfl⟩

/-- Settles O21: `State.reset` is the reset under CFG-A, whose parameters are within the ranges of R6. -/
theorem invariantHoldsAtReset : Obligations.InvariantHoldsAtReset := by
  have hcfgA : Config.cfgA.wf = true := by decide
  exact ⟨resetWith_inv hcfgA, fun _ hc => resetWith_inv hc⟩

end Sys2Proof.Machine
end

section
/-! PROOFS. Every step keeps the invariant (10_state.md R34, R51, R52, 60_exceptions.md R250): the chunks the block holds, the canonical
form of BUF and STATUS, each through the engine's step and the outside's. -/

namespace Sys2Proof.Machine

/-! ### The chunks the block holds, each one by itself -/

/-- A chunk that may stand in STAGE: sound (R51), and within STORE_BYTES (R52). -/
def Chunk.Fits (cfg : Config) (c : Chunk) : Prop := c.Sound ∧ c.data.length ≤ cfg.storeBytes

/-- The chunks a container may hold: every one sound (R51), and the capacities kept (R52). -/
def ContainerFits (cfg : Config) (cs : List Chunk) : Prop :=
  (∀ c ∈ cs, c.Sound) ∧ cs.length ≤ cfg.maxChunks ∧ dataTotal cs ≤ cfg.storeBytes

/-- R51 and R52 of a state, cell by cell. -/
def State.ChunksFit (s : State) : Prop := (∀ c ∈ s.stage, c.Fits s.cfg) ∧ ContainerFits s.cfg s.chunks

theorem chunksFit_iff {s : State} : s.ChunksFit ↔ s.ChunksSound ∧ s.WithinCapacity := by
  simp only [State.ChunksFit, Chunk.Fits, ContainerFits, State.ChunksSound, State.WithinCapacity]
  grind

section Containers
variable {cfg : Config} {cs ds : List Chunk} {c : Chunk}

/-- A chunk of the container may be staged. -/
theorem ContainerFits.mem (h : ContainerFits cfg cs) (hc : c ∈ cs) : c.Fits cfg := by
  obtain ⟨hsound, -, hbytes⟩ := h
  exact ⟨hsound c hc, (dataTotal_mem hc).trans hbytes⟩

/-- Taking chunks out leaves a container that fits. -/
theorem ContainerFits.sublist (h : ContainerFits cfg cs) (hd : ds.Sublist cs) : ContainerFits cfg ds := by
  obtain ⟨hsound, hcount, hbytes⟩ := h
  exact ⟨fun c hc => hsound c (hd.subset hc), hd.length_le.trans hcount, (dataTotal_sublist hd).trans hbytes⟩

/-- A sound chunk for which there is room may be added at the end. -/
theorem ContainerFits.append_chunk (h : ContainerFits cfg cs) (hc : c.Sound) (hcount : cs.length + 1 ≤ cfg.maxChunks)
    (hbytes : dataTotal cs + c.data.length ≤ cfg.storeBytes) : ContainerFits cfg (cs ++ [c]) := by
  obtain ⟨hsound, -, -⟩ := h
  refine ⟨fun d hd => ?_, by simpa using hcount, by simpa using hbytes⟩
  rcases List.mem_append.1 hd with hd | hd
  · exact hsound d hd
  · rwa [List.mem_singleton.1 hd]

theorem containerFits_of_parsePng {b : List Byte} (h : parsePng cfg b = .ok cs) : ContainerFits cfg cs :=
  (parsePng_ok h).2

theorem firstOfType_mem {t : ChunkType} {p : Nat × Chunk} (h : firstOfType cs t = some p) : p.2 ∈ cs := by
  obtain ⟨l, r, rfl, -⟩ := firstOfType_eq_some.1 h
  simp

theorem newChunk_fits (hcfg : cfg.wf = true) (t : ChunkType) {d : List Byte} (hd : d.length ≤ cfg.storeBytes) :
    (newChunk t d).Fits cfg := by
  have hstore : cfg.storeBytes ≤ 2 ^ 32 - 1 := by
    simp only [Config.wf, Bool.and_eq_true, decide_eq_true_eq] at hcfg
    exact hcfg.2
  exact ⟨newChunk_sound t (hd.trans hstore), hd⟩

theorem parseChunk_fits {b : List Byte} {p : Chunk × Nat} (h : parseChunk b = .ok p)
    (hd : p.1.data.length ≤ cfg.storeBytes) : p.1.Fits cfg := by
  obtain ⟨-, -, hsound, -⟩ := parseChunk_eq_ok.1 h
  exact ⟨hsound, hd⟩

end Containers

section Cells
variable {s w : State} {c : Chunk} {cs : List Chunk}

theorem State.ChunksFit.container (h : s.ChunksFit) (hpng : s.png = some cs) : ContainerFits s.cfg cs := by
  simpa [State.chunks, hpng] using h.2

theorem State.ChunksFit.staged (h : s.ChunksFit) (hstage : s.stage = some c) : c.Fits s.cfg :=
  h.1 c (by simp [hstage])

theorem chunksFit_of_stage_some (hstage : w.stage = some c) (hc : c.Fits w.cfg) (hpng : ContainerFits w.cfg w.chunks) :
    w.ChunksFit :=
  ⟨by simpa [hstage] using hc, hpng⟩

theorem chunksFit_of_stage_none (hstage : w.stage = none) (hpng : ContainerFits w.cfg w.chunks) : w.ChunksFit :=
  ⟨by simp [hstage], hpng⟩

theorem output_keeps_chunksFit {out : List Byte} (h : output out s = .ok w) (hs : s.ChunksFit) : w.ChunksFit := by
  obtain ⟨-, rfl⟩ := output_eq_ok.1 h
  exact hs

theorem output_cfg {out : List Byte} (h : output out s = .ok w) : w.cfg = s.cfg := by
  obtain ⟨-, rfl⟩ := output_eq_ok.1 h
  rfl

/-- Every chunk a command stages or puts into the container is new, checked by a parse, or already in the block. -/
theorem rule_keeps_chunksFit {i : Instr} (hcfg : s.cfg.wf = true) (hs : s.ChunksFit) (h : ruleOf i s = .ok w) :
    w.ChunksFit := by
  cases i <;> simp only [ruleOf] at h
  case nop => rw [nopRule_eq_ok] at h; subst h; exact hs
  case crcInit => rw [crcInitRule_eq_ok] at h; subst h; exact hs
  case crcUpdate => obtain ⟨-, rfl⟩ := crcUpdateRule_eq_ok.1 h; exact hs
  case crcFinal => rw [crcFinalRule_eq_ok] at h; subst h; exact hs
  case crc32 => obtain ⟨-, rfl⟩ := crc32Rule_eq_ok.1 h; exact hs
  case crcCheck => obtain ⟨-, -, rfl⟩ := crcCheckRule_eq_ok.1 h; exact hs
  case typeLoad => obtain ⟨-, rfl⟩ := typeLoadRule_eq_ok.1 h; exact hs
  case typeFromString => obtain ⟨-, t, -, rfl⟩ := typeFromStringRule_eq_ok.1 h; exact hs
  case chunkNew =>
    obtain ⟨-, hlen, rfl⟩ := chunkNewRule_eq_ok.1 h
    exact chunksFit_of_stage_some rfl (newChunk_fits hcfg _ (by simpa using hlen)) hs.2
  case chunkParse =>
    obtain ⟨-, p, hp, hlen, rfl⟩ := chunkParseRule_eq_ok.1 h
    exact chunksFit_of_stage_some rfl (parseChunk_fits hp hlen) hs.2
  case chunkSerialize => obtain ⟨c, -, -, h⟩ := chunkSerializeRule_eq_ok.1 h; exact output_keeps_chunksFit h hs
  case chunkData => obtain ⟨c, -, -, h⟩ := chunkDataRule_eq_ok.1 h; exact output_keeps_chunksFit h hs
  case chunkToString => obtain ⟨c, -, -, -, h⟩ := chunkToStringRule_eq_ok.1 h; exact output_keeps_chunksFit h hs
  case pngParse =>
    obtain ⟨-, cs, hcs, rfl⟩ := pngParseRule_eq_ok.1 h
    exact ⟨hs.1, containerFits_of_parsePng hcs⟩
  case pngSerialize => obtain ⟨cs, -, -, h⟩ := pngSerializeRule_eq_ok.1 h; exact output_keeps_chunksFit h hs
  case pngAppend =>
    obtain ⟨cs, hcs, c, hc, ⟨hcount, hbytes⟩, rfl⟩ := pngAppendRule_eq_ok.1 h
    exact chunksFit_of_stage_none rfl ((hs.container hcs).append_chunk (hs.staged hc).1 hcount hbytes)
  case pngRemove =>
    obtain ⟨cs, hcs, p, hp, rfl⟩ := pngRemoveRule_eq_ok.1 h
    have hfit := hs.container hcs
    exact chunksFit_of_stage_some rfl (hfit.mem (firstOfType_mem hp)) (hfit.sublist (removeAt_sublist cs p.1))
  case pngFind =>
    obtain ⟨cs, hcs, ⟨-, rfl⟩ | ⟨p, hp, rfl⟩⟩ := pngFindRule_eq_ok.1 h
    · exact hs
    · exact chunksFit_of_stage_some rfl ((hs.container hcs).mem (firstOfType_mem hp)) hs.2
  case pngGet =>
    obtain ⟨cs, hcs, c, hc, rfl⟩ := pngGetRule_eq_ok.1 h
    exact chunksFit_of_stage_some rfl ((hs.container hcs).mem (List.mem_of_getElem? hc)) hs.2
  case pngHeader => obtain ⟨-, h⟩ := pngHeaderRule_eq_ok.1 h; exact output_keeps_chunksFit h hs
  case opEncode =>
    obtain ⟨-, cs, hcs, t, -, ⟨hmsg, hcount, hbytes⟩, w2, hout, rfl⟩ := opEncodeRule_eq_ok.1 h
    have hnew : (newChunk t (s.rangeBytes .msg)).Fits s.cfg := newChunk_fits hcfg t (by simpa using hmsg)
    have happend := (containerFits_of_parsePng hcs).append_chunk hnew.1 hcount (by simpa [newChunk] using hbytes)
    exact chunksFit_of_stage_none rfl (output_cfg hout ▸ happend)
  case opDecode =>
    obtain ⟨-, cs, hcs, t, -, ⟨-, w2, hout, rfl⟩ | ⟨p, hp, -, w2, hout, rfl⟩⟩ := opDecodeRule_eq_ok.1 h
    all_goals
      have hfit : ContainerFits w2.cfg cs := output_cfg hout ▸ containerFits_of_parsePng hcs
    · exact ⟨(output_keeps_chunksFit hout hs).1, hfit⟩
    · exact chunksFit_of_stage_some rfl (hfit.mem (firstOfType_mem hp)) hfit
  case opRemove =>
    obtain ⟨-, cs, hcs, t, -, p, hp, w2, hout, rfl⟩ := opRemoveRule_eq_ok.1 h
    have hfit : ContainerFits w2.cfg cs := output_cfg hout ▸ containerFits_of_parsePng hcs
    exact chunksFit_of_stage_some rfl (hfit.mem (firstOfType_mem hp)) (hfit.sublist (removeAt_sublist cs p.1))
  all_goals rw [predicateRule_eq_ok] at h; subst h; exact hs

end Cells

/-! ### STATUS -/

theorem accepted_legal (op : BitVec 8) : (Status.accepted op).Legal := by simp [Status.Legal]

theorem completed_legal (op : BitVec 8) : (Status.completed op).Legal := by simp [Status.Legal]

theorem failed_legal (e : CmdError) (op : BitVec 8) : (Status.failed e op).Legal := by simp [Status.Legal]

/-- Every error a rule can raise is one of the table of R250. -/
theorem code_sub_mem_errorPairs (e : CmdError) : (e.code.toNat, e.sub.toNat) ∈ errorPairs := by
  cases e with
  | invalidSignature r => cases r <;> decide
  | truncated p => cases p <;> decide
  | invalidChunkType r => cases r <;> decide
  | illegalCommand r => cases r <;> decide
  | rangeError r => cases r <;> decide
  | capacityExceeded c => cases c <;> decide
  | _ => decide

theorem failed_errorListed (e : CmdError) (op : BitVec 8) : (Status.failed e op).ErrorListed :=
  fun _ => code_sub_mem_errorPairs e

/-! ### The engine's step -/

section Engine
variable {s t : State}

theorem raiseError_inv (e : CmdError) (hs : s.Inv) : (raiseError e s).Inv := by
  obtain ⟨hcfg, hbuf, -, -, -, hsound, hcap⟩ := hs
  exact ⟨hcfg, hbuf, failed_legal e _, failed_errorListed e _, rfl, hsound, hcap⟩

/-- A rule writes BUF inside a legal DST range only, so inside BUF. -/
theorem rule_keeps_buf_wf {i : Instr} {w : State} (hbuf : Memory.wf s.cfg.memSize s.buf) (h : ruleOf i s = .ok w) :
    Memory.wf s.cfg.memSize w.buf := by
  rcases rule_ok_store h with ⟨hb, -⟩ | ⟨-, out, hlegal, hcap, hb, -⟩
  · rwa [hb]
  · rw [hb]
    exact writeBytes_wf out hbuf ((Nat.add_le_add_left hcap _).trans hlegal)

theorem completeCommand_inv {i : Instr} {w : State} (hs : s.Inv) (h : ruleOf i s = .ok w) : (completeCommand w).Inv := by
  obtain ⟨hcfg, hbuf, -, -, -, hchunks⟩ := hs
  have hwcfg : w.cfg = s.cfg := by rw [rule_ok_frame h]
  obtain ⟨hsound, hcap⟩ := chunksFit_iff.1 (rule_keeps_chunksFit hcfg (chunksFit_iff.2 hchunks) h)
  have hwbuf : Memory.wf w.cfg.memSize w.buf := hwcfg ▸ rule_keeps_buf_wf hbuf h
  exact ⟨hwcfg ▸ hcfg, hwbuf, completed_legal _, errorListed_of_err_eq_false rfl, rfl,
    hsound, hcap⟩

theorem engineStep_inv (hs : s.Inv) (h : engineStep s = .next t) : t.Inv := by
  rcases engineStep_cases h with ⟨i, -, hexec⟩ | ⟨r, -, rfl⟩
  · rcases exec_cases hexec with ⟨w, hw, rfl⟩ | ⟨e, -, rfl⟩
    · exact completeCommand_inv hs hw
    · exact raiseError_inv e hs
  · exact raiseError_inv _ hs

end Engine

/-! ### The outside's step -/

section Outside
variable {s t : State}

/-- What a host action that is not refused can do: record a reading, which may draw a free value; write a register or
a BUF byte; or nothing, for a write to a reserved offset. -/
theorem hostAction_cases {a : HostAction} (h : hostAction a s = .next t) :
    (∃ x n, t = recordRead x { s with drawCount := n }) ∨
    (s.status.busy = false ∧ ∃ r v, t = s.writeReg r v) ∨
    (s.status.busy = false ∧ ∃ addr b, addr < s.cfg.memSize ∧ t = { s with buf := Memory.write s.buf addr b }) ∨
    (s.status.busy = false ∧ t = s) := by
  cases a with
  | regRead off =>
    simp only [hostAction, regRead] at h
    split at h
    · cases h
    · cases h
    · split at h <;> cases h
      · exact .inl ⟨_, s.drawCount + 1, rfl⟩
      · exact .inl ⟨_, s.drawCount, rfl⟩
  | regWrite off v =>
    simp only [hostAction, regWrite] at h
    split at h
    · cases h
    · cases h
    · split at h <;> cases h
      exact .inr (.inr (.inr ⟨by simpa using ‹¬ s.status.busy = true›, rfl⟩))
    · split at h <;> cases h
      exact .inr (.inl ⟨by simpa using ‹¬ s.status.busy = true›, _, v, rfl⟩)
  | bufRead addr =>
    simp only [hostAction, bufRead] at h
    split at h
    · cases h
    · split at h <;> cases h
      · exact .inl ⟨_, s.drawCount + 1, rfl⟩
      · exact .inl ⟨_, s.drawCount, rfl⟩
  | bufWrite addr b =>
    simp only [hostAction, bufWrite] at h
    split at h
    · cases h
    · split at h <;> cases h
      exact .inr (.inr (.inl ⟨by simpa using ‹¬ s.status.busy = true›, addr, b, by omega, rfl⟩))

/-- What the outside can do: nothing, a host action, a poll of STATUS, the reset event; each with its entry of the script
used up or, for a WAIT that goes on, not. -/
theorem hostStep_cases (h : hostStep s = .next t) :
    t = s ∨ (∃ a rest, hostAction a { s with script := rest } = .next t) ∨
    (∃ sc, t = pollStatus { s with script := sc }) ∨ ∃ rest, t = resetEvent { s with script := rest } := by
  unfold hostStep at h
  split at h
  · cases h; exact .inl rfl
  · exact .inr (.inl ⟨_, _, h⟩)
  · split at h <;> cases h
    · exact .inr (.inr (.inl ⟨s.script, rfl⟩))
    · exact .inr (.inr (.inl ⟨_, rfl⟩))
  · cases h; exact .inr (.inr (.inr ⟨_, rfl⟩))

/-- A register write reaches the invariant through CMD alone, whose acceptance sets LAST_OP with it. -/
theorem writeReg_inv (r : RegName) (v : Word) (hs : s.Inv) : (s.writeReg r v).Inv := by
  cases r
  case cmd =>
    obtain ⟨hcfg, hbuf, -, -, -, hsound, hcap⟩ := hs
    exact ⟨hcfg, hbuf, accepted_legal _, errorListed_of_err_eq_false rfl, rfl, hsound, hcap⟩
  all_goals exact hs

theorem hostAction_inv {a : HostAction} (hs : s.Inv) (h : hostAction a s = .next t) : t.Inv := by
  rcases hostAction_cases h with ⟨x, n, rfl⟩ | ⟨-, r, v, rfl⟩ | ⟨-, addr, b, haddr, rfl⟩ | ⟨-, rfl⟩
  · exact hs
  · exact writeReg_inv r v hs
  · obtain ⟨hcfg, hbuf, hrest⟩ := hs
    exact ⟨hcfg, write_wf b hbuf haddr, hrest⟩
  · exact hs

/-- A reset leaves what holds right after reset, under the parameters of the state. -/
theorem resetEvent_inv (hs : s.Inv) : (resetEvent s).Inv := resetWith_inv hs.1

theorem hostStep_inv (hs : s.Inv) (h : hostStep s = .next t) : t.Inv := by
  rcases hostStep_cases h with rfl | ⟨a, rest, hact⟩ | ⟨sc, rfl⟩ | ⟨rest, rfl⟩
  · exact hs
  · have hrest : State.Inv { s with script := rest } := hs
    exact hostAction_inv hrest hact
  · exact hs
  · have hrest : State.Inv { s with script := rest } := hs
    exact resetEvent_inv hrest

theorem takeTurn_inv (hs : s.Inv) : s.takeTurn.Inv := by
  rcases takeTurn_eq s with h | h <;> rw [h] <;> exact hs

end Outside

/-- Settles O22, agent by agent. -/
theorem everyStepKeepsTheInvariant : Obligations.EveryStepKeepsTheInvariant := by
  intro s t hs h
  rcases step_cases h with ⟨-, hengine⟩ | ⟨-, houtside⟩ | rfl
  · exact engineStep_inv (takeTurn_inv hs) hengine
  · exact hostStep_inv (takeTurn_inv hs) houtside
  · exact hs

end Sys2Proof.Machine
end

section
/-! PROOFS. What a command stores, and what it does not depend on (10_state.md R38, R55, 20_memory.md R85, R86). -/

namespace Sys2Proof.Machine

/-! ### A store stays inside the output -/

section Stores
variable {i : Instr} {s t : State}

/-- A command leaves every BUF byte, or outputs some bytes that fit DST_CAP and has done what R85 says. -/
theorem exec_store_cases (h : exec i s = .next t) :
    (∀ a, t.byteAt a = s.byteAt a) ∨
    (t.status.err = false ∧
      i ∈ [Instr.chunkSerialize, .chunkData, .chunkToString, .pngSerialize, .pngHeader, .opEncode, .opDecode, .opRemove] ∧
      ∃ out : List Byte, out.length ≤ s.dstCap.toNat ∧ s.Outputs t out) := by
  rcases exec_cases h with ⟨w, hw, rfl⟩ | ⟨e, -, rfl⟩
  · have hreset : w.resetCount = s.resetCount := by rw [rule_ok_frame hw]
    rcases rule_ok_store hw with ⟨hbuf, -⟩ | ⟨hi, out, -, hcap, hbuf, hlen⟩
    · exact .inl (byteAt_congr hbuf hreset)
    · exact .inr ⟨rfl, hi, out, hcap, outputs_of hcap hbuf hreset hlen⟩
  · exact .inl fun a => rfl

end Stores

/-- Settles O10: a byte outside the output is outside what `Output` has written. -/
theorem storesStayInsideTheOutput : Obligations.StoresStayInsideTheOutput := by
  intro i s t a h
  rcases exec_store_cases h with hsame | ⟨herr, hi, out, hcap, hlen, -, houtside⟩
  · exact ⟨fun _ => hsame a, fun _ => hsame a, fun _ => hsame a, fun _ => hsame a⟩
  · refine ⟨fun ha => houtside a (by omega), fun ha => houtside a (by omega), fun he => ?_, fun hni => absurd hi hni⟩
    simp [herr] at he

/-! ### A command depends on the block's state alone -/

/-- The state with the model's fields for the outside (log entries 3 to 6) replaced. -/
def State.withOutside (s : State) (n : Nat) (sc : List Input) (ts : List Agent) (rd : List Reading) : State :=
  { s with drawCount := n, script := sc, turns := ts, reads := rd }

section Sequencing
variable {α β γ : Type}

/-- A change of the result of a sequence is one of its second part's. -/
theorem map_bind_except (f : β → γ) (x : Except CmdError α) (r : α → Except CmdError β) :
    (x >>= r).map f = (x >>= fun a => (r a).map f) := by
  cases x <;> rfl

theorem bind_map_except (f : α → β) (x : Except CmdError α) (r : β → Except CmdError γ) :
    (x.map f >>= r) = (x >>= fun a => r (f a)) := by
  cases x <;> rfl

end Sequencing

section Outside
variable (s : State) (n : Nat) (sc : List Input) (ts : List Agent) (rd : List Reading)

@[simp] theorem index_withOutside : (s.withOutside n sc ts rd).index = s.index := rfl

@[simp] theorem typeOperand_withOutside : (s.withOutside n sc ts rd).typeOperand = s.typeOperand := rfl

@[simp] theorem pngOperand_withOutside : (s.withOutside n sc ts rd).pngOperand = s.pngOperand := rfl

@[simp] theorem readBytes_withOutside (a k : Nat) : (s.withOutside n sc ts rd).readBytes a k = s.readBytes a k :=
  readBytes_congr (s := s) (t := s.withOutside n sc ts rd) (fun _ => rfl) a k

@[simp] theorem rangeBytes_withOutside (r : RangeName) : (s.withOutside n sc ts rd).rangeBytes r = s.rangeBytes r := by
  cases r <;> exact readBytes_withOutside s n sc ts rd _ _

@[simp] theorem checkRange_withOutside (r : RangeName) : checkRange (s.withOutside n sc ts rd) r = checkRange s r := by
  cases r <;> rfl

@[simp] theorem checkRanges_withOutside (rs : List RangeName) :
    checkRanges (s.withOutside n sc ts rd) rs = checkRanges s rs := by
  induction rs with
  | nil => rfl
  | cons r rs ih => simp [checkRanges, ih]

@[simp] theorem output_withOutside (out : List Byte) :
    output out (s.withOutside n sc ts rd) = (output out s).map (·.withOutside n sc ts rd) := by
  unfold output State.withOutside
  split <;> rfl

/-- The rule of a command reads and writes none of these fields. -/
theorem ruleOf_withOutside (i : Instr) :
    ruleOf i (s.withOutside n sc ts rd) = (ruleOf i s).map (·.withOutside n sc ts rd) := by
  cases i
  case pngFind =>
    simp only [ruleOf, pngFindRule, map_bind_except, pngOperand_withOutside, typeOperand_withOutside]
    refine bind_congr fun cs => ?_
    cases firstOfType cs s.typeOperand <;> rfl
  case pngGet =>
    simp only [ruleOf, pngGetRule, map_bind_except, pngOperand_withOutside, index_withOutside]
    refine bind_congr fun cs => ?_
    cases cs[s.index.toNat]? <;> rfl
  case opDecode =>
    simp only [ruleOf, opDecodeRule, map_bind_except, checkRanges_withOutside, rangeBytes_withOutside]
    refine bind_congr fun _ => bind_congr fun cs => bind_congr fun t => ?_
    cases firstOfType cs t <;>
      (simp only [map_bind_except, bind_map_except, output_withOutside]; rfl)
  case opEncode | opRemove =>
    simp only [ruleOf, opEncodeRule, opRemoveRule, map_bind_except, bind_map_except, checkRanges_withOutside,
      rangeBytes_withOutside, output_withOutside]
    rfl
  case chunkSerialize | chunkData | chunkToString | pngSerialize | pngHeader =>
    simp only [ruleOf, chunkSerializeRule, chunkDataRule, chunkToStringRule, pngSerializeRule, pngHeaderRule, map_bind_except,
      checkRange_withOutside, output_withOutside] <;> rfl
  case crcUpdate | crc32 | crcCheck | typeLoad | typeFromString | chunkNew | chunkParse | pngParse =>
    simp only [ruleOf, crcUpdateRule, crc32Rule, crcCheckRule, typeLoadRule, typeFromStringRule, chunkNewRule, chunkParseRule,
      pngParseRule, map_bind_except, checkRange_withOutside, rangeBytes_withOutside]
    rfl
  case pngAppend | pngRemove =>
    simp only [ruleOf, pngAppendRule, pngRemoveRule, map_bind_except]
    rfl
  all_goals rfl

/-- Nor does the end of a command, whichever it is. -/
theorem runRule_withOutside {rule : State → Except CmdError State} {t : State}
    (hrule : rule (s.withOutside n sc ts rd) = (rule s).map (·.withOutside n sc ts rd)) (h : runRule rule s = .next t) :
    runRule rule (s.withOutside n sc ts rd) = .next (t.withOutside n sc ts rd) := by
  rcases runRule_cases h with ⟨w, hw, rfl⟩ | ⟨e, he, rfl⟩
  · have hw' : rule (s.withOutside n sc ts rd) = .ok (w.withOutside n sc ts rd) := by rw [hrule, hw]; rfl
    exact runRule_of_ok hw'
  · have he' : rule (s.withOutside n sc ts rd) = .error e := by rw [hrule, he]; rfl
    exact runRule_of_error he'

end Outside

/-- Settles O24, through the rule of the command and its end. -/
theorem meaningsIgnoreWhatIsOutsideTheBlock : Obligations.MeaningsIgnoreWhatIsOutsideTheBlock := by
  intro i s t n sc ts rd h
  rw [exec_eq_runRule] at h ⊢
  exact runRule_withOutside s n sc ts rd (ruleOf_withOutside s n sc ts rd i) h

end Sys2Proof.Machine
end

section
/-! PROOFS. The register window (10_state.md R32 to R53): what the words and views hold, what a host reads and writes at each offset, and
the registers right after reset. -/

namespace Sys2Proof.Machine

/-! ### STATUS and the views of STAGE and PNG -/

/-- A bit of the STATUS word belongs to the field the concatenation of R34 puts there. -/
theorem statusWord_bits (st : Status) :
    st.toWord.getLsbD 0 = st.busy ∧ st.toWord.getLsbD 1 = st.done ∧ st.toWord.getLsbD 2 = st.err ∧
      st.toWord.getLsbD 3 = false := by
  simp only [Status.toWord, BitVec.getLsbD_append]
  simp

theorem statusWord_fields (st : Status) :
    st.toWord.extractLsb' 4 4 = st.errSub ∧ st.toWord.extractLsb' 8 8 = st.errCode ∧
      st.toWord.extractLsb' 16 8 = st.lastOp ∧ st.toWord.extractLsb' 24 8 = 0 := by
  unfold Status.toWord
  simp (disch := omega) only [BitVec.extractLsb'_append_eq_of_le, BitVec.extractLsb'_append_eq_of_add_le]
  simp

/-- Settles O12: the single bits, then the fields. -/
theorem statusWordHasItsFields : Obligations.StatusWordHasItsFields := by
  intro st
  obtain ⟨hbusy, hdone, herr, hbit3⟩ := statusWord_bits st
  exact ⟨hbusy, hdone, herr, hbit3, statusWord_fields st⟩

theorem toWord_bytes (t : ChunkType) : u32be t.toWord = t.bytes := u32be_be32 _ _ _ _

theorem flags_bits (s : State) :
    s.flags.getLsbD 0 = s.png.isSome ∧ s.flags.getLsbD 1 = s.stage.isSome ∧ s.flags >>> 2 = 0 := by
  unfold State.flags
  cases s.stage.isSome <;> cases s.png.isSome <;> decide

section Views
variable {s : State}

theorem stage_views_of_none (h : s.stage = none) : s.stageLen = 0 ∧ s.stageType = 0 ∧ s.stageCrc = 0 := by
  simp [State.stageLen, State.stageType, State.stageCrc, h]

theorem stage_views_of_some {c : Chunk} (h : s.stage = some c) :
    s.stageLen = wordOfNat c.data.length ∧ s.stageType = c.ctype.toWord ∧ s.stageCrc = c.crc := by
  simp [State.stageLen, State.stageType, State.stageCrc, h]

theorem chunkCount_of_none (h : s.png = none) : s.chunkCount = 0 := by simp [State.chunkCount, h]

theorem chunkCount_of_some {cs : List Chunk} (h : s.png = some cs) : s.chunkCount = wordOfNat cs.length := by
  simp [State.chunkCount, h]

theorem flags_of_none (hstage : s.stage = none) (hpng : s.png = none) : s.flags = 0 := by
  rw [State.flags, hstage, hpng]
  decide

end Views

/-- Settles O14, view by view. -/
theorem viewsOfStageAndContainer : Obligations.ViewsOfStageAndContainer := by
  intro s
  obtain ⟨hpng, hstage, hreserved⟩ := flags_bits s
  refine ⟨fun h => ?_, fun c h => ?_, fun h => ?_, fun cs h => ?_, hreserved⟩
  · obtain ⟨hlen, htype, hcrc⟩ := stage_views_of_none h
    exact ⟨hlen, htype, hcrc, by rw [hstage, h]; rfl⟩
  · obtain ⟨hlen, htype, hcrc⟩ := stage_views_of_some h
    exact ⟨hlen, by rw [htype, toWord_bytes], hcrc, by rw [hstage, h]; rfl⟩
  · exact ⟨chunkCount_of_none h, by rw [hpng, h]; rfl⟩
  · exact ⟨chunkCount_of_some h, by rw [hpng, h]; rfl⟩

/-! ### The offsets while BUSY = 0 -/

section Idle
variable {s : State}

/-- A read of a register records its value and does nothing else (20_memory.md R96). -/
theorem regRead_offset_idle (hidle : s.status.busy = false) (r : RegName) :
    hostAction (.regRead r.offset) s = .next (recordRead (.reg r.offset (s.regValue r)) s) := by
  simp [hostAction, regRead, State.slotValue, hidle]

theorem regWrite_offset_idle (hidle : s.status.busy = false) (r : RegName) (v : Word) :
    hostAction (.regWrite r.offset v) s = .next (s.writeReg r v) := by
  simp [hostAction, regWrite, hidle]

theorem regRead_reserved_idle (hidle : s.status.busy = false) {off : Nat} (h : slotAt off = .reserved) :
    hostAction (.regRead off) s = .next (recordRead (.reg off 0) s) := by
  simp [hostAction, regRead, State.slotValue, hidle, h]

theorem regWrite_reserved_idle (hidle : s.status.busy = false) {off : Nat} (h : slotAt off = .reserved) (v : Word) :
    hostAction (.regWrite off v) s = .next s := by
  simp [hostAction, regWrite, hidle, h]

end Idle

/-- Settles O13: the list of the statement is every register's offset with its value. -/
theorem registerMapAsReadWhenIdle : Obligations.RegisterMapAsReadWhenIdle := by
  intro s p hidle hp
  have hmap : p ∈ RegName.all.map (fun r => (r.offset, s.regValue r)) := hp
  obtain ⟨r, -, rfl⟩ := List.mem_map.1 hmap
  exact regRead_offset_idle hidle r

/-- The registers of access RW but CMD (R32). -/
def RegName.writable : List RegName :=
  [.srcAddr, .srcLen, .argAddr, .argLen, .msgAddr, .msgLen, .dstAddr, .dstCap, .type, .crcExp, .index]

/-- The registers of access R and C (R32). -/
def RegName.readOnly : List RegName :=
  [.status, .dstLen, .result, .crcAcc, .chunkCount, .stageLen, .stageType, .stageCrc, .flags, .sigHi, .sigLo, .capMem,
    .capChunks, .capStore]

theorem writeReg_readOnly {r : RegName} (h : r ∈ RegName.readOnly) (s : State) (v : Word) : s.writeReg r v = s := by
  cases r
  case cmd | srcAddr | srcLen | argAddr | argLen | msgAddr | msgLen | dstAddr | dstCap | type | crcExp | index =>
    exact absurd h (by decide)
  all_goals rfl

/-- Settles O15: the lists of the statement are the registers' offsets by access, the first with what the write leaves. -/
theorem registerWritesWhenIdle : Obligations.RegisterWritesWhenIdle := by
  intro s v hidle
  refine ⟨fun p hp => ?_, fun off hoff => ?_, fun off hlo hhi halign => ?_⟩
  · have hmap : p ∈ RegName.writable.map (fun r => (r.offset, s.writeReg r v)) := hp
    obtain ⟨r, -, rfl⟩ := List.mem_map.1 hmap
    exact regWrite_offset_idle hidle r v
  · have hmap : off ∈ RegName.readOnly.map RegName.offset := hoff
    obtain ⟨r, hr, rfl⟩ := List.mem_map.1 hmap
    rw [regWrite_offset_idle hidle, writeReg_readOnly hr]
  · have hslot := slotAt_reserved hlo hhi halign
    exact ⟨regWrite_reserved_idle hidle hslot v, regRead_reserved_idle hidle hslot⟩

/-! ### The registers right after reset -/

theorem exists_offset {off : Nat} (hlt : off < 0x68) (halign : off % 4 = 0) : ∃ r : RegName, r.offset = off := by
  have hall : ∀ k : Fin 26, ∃ r ∈ RegName.all, r.offset = 4 * k.val := by decide
  obtain ⟨r, -, hr⟩ := hall ⟨off / 4, by omega⟩
  exact ⟨r, by simp only at hr; omega⟩

theorem afterReset_toWord : Status.afterReset.toWord = 0 := by decide

/-- Every register whose reset value R32 gives as 0. -/
theorem regValue_resetWith {r : RegName} (h : r ∉ [RegName.crcAcc, .sigHi, .sigLo, .capMem, .capChunks, .capStore])
    (c : Config) : (State.resetWith c).regValue r = 0 := by
  cases r
  case crcAcc | sigHi | sigLo | capMem | capChunks | capStore => exact absurd (by decide) h
  case status => exact afterReset_toWord
  case flags => exact flags_of_none rfl rfl
  all_goals rfl

/-- Settles O20: BUSY is 0 after reset, so a read returns the register's value. -/
theorem registersAfterReset : Obligations.RegistersAfterReset := by
  refine ⟨rfl, fun c off hlt halign hoff => ?_⟩
  obtain ⟨r, rfl⟩ := exists_offset hlt halign
  have hr : r ∉ [RegName.crcAcc, .sigHi, .sigLo, .capMem, .capChunks, .capStore] :=
    fun hmem => hoff (List.mem_map_of_mem (f := RegName.offset) hmem)
  have hidle : (State.resetWith c).status.busy = false := rfl
  have hread := regRead_offset_idle hidle r
  rw [regValue_resetWith hr] at hread
  exact ⟨hread, regRead_offset_idle hidle .crcAcc⟩

end Sys2Proof.Machine
end

section
/-! PROOFS. The step of the outside (10_state.md R30, 30_encoding.md R121, 60_exceptions.md R265, 70_reset_and_hazards.md R280). -/

namespace Sys2Proof.Machine

section Moves
variable {s : State} {x : Input} {rest : List Input} {ts : List Agent}

/-- With BUSY = 0 the outside moves, and no turn is used up. -/
theorem step_outside_idle (hscript : s.script = x :: rest) (hidle : s.status.busy = false) : step s = hostStep s := by
  simp [step, State.mover, State.takeTurn, hscript, hidle]

/-- With a command pending the outside moves when the turn is its own. -/
theorem step_outside_pending (hscript : s.script = x :: rest) (hbusy : s.status.busy = true) (hturns : s.turns = .host :: ts) :
    step s = hostStep { s with turns := ts } := by
  simp [step, State.mover, State.takeTurn, hscript, hbusy, hturns]

theorem step_nothing_to_do (hscript : s.script = []) (hidle : s.status.busy = false) : step s = .next s := by
  simp [step, State.mover, hscript, hidle]

theorem hostStep_act {a : HostAction} (hscript : s.script = .act a :: rest) :
    hostStep s = hostAction a { s with script := rest } := by
  simp [hostStep, hscript]

/-- The poll that returns BUSY = 0 is the last one of a WAIT. -/
theorem hostStep_wait_idle (hscript : s.script = .wait :: rest) (hidle : s.status.busy = false) :
    hostStep s = .next (pollStatus { s with script := rest }) := by
  simp [hostStep, hscript, hidle]

theorem hostStep_wait_pending (hscript : s.script = .wait :: rest) (hbusy : s.status.busy = true) :
    hostStep s = .next (pollStatus s) := by
  simp [hostStep, hscript, hbusy]

theorem hostStep_reset (hscript : s.script = .reset :: rest) : hostStep s = .next (resetEvent { s with script := rest }) := by
  simp [hostStep, hscript]

end Moves

/-- Settles O11: who moves, then what the next entry of the script does. -/
theorem stepRunsTheOutside : Obligations.StepRunsTheOutside := by
  refine ⟨fun s a rest hscript hidle => ?_, fun s a rest ts hscript hbusy hturns => ?_, fun s rest hscript hidle => ?_,
    fun s rest ts hscript hbusy hturns => ?_, fun s rest hscript hidle => ?_,
    fun s rest ts hscript hbusy hturns => ?_, fun s hscript hidle => step_nothing_to_do hscript hidle⟩
  · rw [step_outside_idle hscript hidle, hostStep_act hscript]
  · rw [step_outside_pending hscript hbusy hturns]; exact hostStep_act hscript
  · rw [step_outside_idle hscript hidle, hostStep_wait_idle hscript hidle]; rfl
  · rw [step_outside_pending hscript hbusy hturns]; exact hostStep_wait_pending hscript hbusy
  · rw [step_outside_idle hscript hidle, hostStep_reset hscript]
  · rw [step_outside_pending hscript hbusy hturns]; exact hostStep_reset hscript

end Sys2Proof.Machine
end

section
/-! PROOFS. The host's byte accesses of BUF while BUSY = 0 (20_memory.md R82). -/

namespace Sys2Proof.Machine

/-- `BUF[x]` after one byte has been written at `a`. -/
theorem byteAt_write (s : State) (a : Nat) (b : Byte) (x : Nat) :
    State.byteAt { s with buf := Memory.write s.buf a b } x = if x = a then b else s.byteAt x := by
  by_cases hx : x = a <;> simp [State.byteAt, lookup_write, hx]

section Idle
variable {s : State} {a : Nat} (hidle : s.status.busy = false) (ha : a < s.cfg.memSize)
include hidle ha

theorem bufRead_idle : bufRead a s = .next (recordRead (.buf a (s.byteAt a)) s) := by
  simp [bufRead, hidle, ha]

theorem bufWrite_idle (b : Byte) : bufWrite a b s = .next { s with buf := Memory.write s.buf a b } := by
  simp [bufWrite, hidle, ha]

end Idle

/-- Settles O16: the read is recorded, and the write is one `Memory.write`, which changes the byte at its own address only. -/
theorem bufAccessesWhenIdle : Obligations.BufAccessesWhenIdle := by
  intro s a hidle ha
  refine ⟨bufRead_idle hidle ha, fun b => ⟨_, bufWrite_idle hidle ha b, rfl, ?_, fun x hx => ?_⟩⟩
  · rw [byteAt_write, if_pos rfl]
  · rw [byteAt_write, if_neg hx]

end Sys2Proof.Machine
end

section
/-! PROOFS. The command word (30_encoding.md R110 to R116): the decoder inverts the encoder, and every other word is illegal. -/

namespace Sys2Proof.Machine

/-! ### The two fields of a command word -/

section Words
variable {w : Word} {op : BitVec 8} {i : Instr}

/-- RSVD and OPCODE are the whole word (R110). -/
theorem reservedOf_append_opcodeOf (w : Word) : reservedOf w ++ opcodeOf w = w := by
  have hjoin : reservedOf w ++ opcodeOf w = w.extractLsb' 0 32 := BitVec.extractLsb'_append_extractLsb'_eq_extractLsb' rfl
  rw [hjoin, BitVec.extractLsb'_eq_self]

theorem reservedOf_eq_zero_iff : reservedOf w = 0 ↔ w >>> 8 = 0 := by
  have hreserved : (reservedOf w).toNat = w.toNat >>> 8 % 2 ^ 24 := BitVec.extractLsb'_toNat 8 24 w
  constructor <;> intro h <;> bv_omega

theorem reservedOf_encode (i : Instr) : reservedOf (encode i) = 0 := by
  cases i <;> rfl

theorem opcodeOf_encode (i : Instr) : opcodeOf (encode i) = opcode i := by
  cases i <;> rfl

theorem eq_encode_iff : w = encode i ↔ reservedOf w = 0 ∧ opcodeOf w = opcode i := by
  constructor
  · rintro rfl
    exact ⟨reservedOf_encode i, opcodeOf_encode i⟩
  · rintro ⟨hres, hop⟩
    rw [← reservedOf_append_opcodeOf w, hres, hop]
    rfl

/-! ### The decoder -/

/-- The table of R113, read in both directions. -/
theorem decodeOpcode_eq_some_iff : decodeOpcode op = some i ↔ op = opcode i := by
  constructor
  · intro h
    unfold decodeOpcode at h
    split at h <;> cases h <;> exact BitVec.eq_of_toNat_eq ‹_›
  · rintro rfl
    cases i <;> rfl

theorem decode_of_reserved (h : reservedOf w ≠ 0) : decode w = .error .reservedBits := if_pos h

theorem decode_of_opcode (hres : reservedOf w = 0) (hop : decodeOpcode (opcodeOf w) = some i) : decode w = .ok i := by
  simp [decode, hres, hop]

theorem decode_of_no_opcode (hres : reservedOf w = 0) (hop : decodeOpcode (opcodeOf w) = none) :
    decode w = .error .unknownOpcode := by
  simp [decode, hres, hop]

theorem decode_encode (i : Instr) : decode (encode i) = .ok i :=
  decode_of_opcode (reservedOf_encode i) (decodeOpcode_eq_some_iff.2 (opcodeOf_encode i))

theorem decode_of_not_encoding (hres : reservedOf w = 0) (h : ∀ i, w ≠ encode i) : decode w = .error .unknownOpcode :=
  decode_of_no_opcode hres <| Option.eq_none_iff_forall_ne_some.2 fun i hop =>
    h i (eq_encode_iff.2 ⟨hres, decodeOpcode_eq_some_iff.1 hop⟩)

/-- A word that is no command's encoding decodes to none: it has a reserved bit set, or its OPCODE is reserved. -/
theorem decode_eq_ok_iff : decode w = .ok i ↔ w = encode i := by
  constructor
  · intro h
    by_cases hres : reservedOf w = 0
    · cases hop : decodeOpcode (opcodeOf w) with
      | none => simp [decode_of_no_opcode hres hop] at h
      | some j =>
        obtain rfl : j = i := by simpa [decode_of_opcode hres hop] using h
        exact eq_encode_iff.2 ⟨hres, decodeOpcode_eq_some_iff.1 hop⟩
    · simp [decode_of_reserved hres] at h
  · rintro rfl
    exact decode_encode i

/-- The OPCODE ranges of R113 between the reserved ones of R114. -/
theorem encode_toNat_ranges (i : Instr) :
    (encode i).toNat ≤ 0x05 ∨ (0x10 ≤ (encode i).toNat ∧ (encode i).toNat ≤ 0x17) ∨
    (0x20 ≤ (encode i).toNat ∧ (encode i).toNat ≤ 0x24) ∨ (0x30 ≤ (encode i).toNat ∧ (encode i).toNat ≤ 0x36) ∨
    (0x40 ≤ (encode i).toNat ∧ (encode i).toNat ≤ 0x42) := by
  cases i <;> decide

end Words

/-- Settles O2: the two fields of a word decide, and the subcodes are those of R116. -/
theorem decodeIsTheInverseOfEncode : Obligations.DecodeIsTheInverseOfEncode := by
  exact ⟨fun w i => decode_eq_ok_iff, fun w h => decode_of_reserved (reservedOf_eq_zero_iff.not.2 h),
    fun w h hne => decode_of_not_encoding (reservedOf_eq_zero_iff.2 h) hne, rfl, rfl, fun r => rfl⟩

/-- Settles O1: each word of the table is the encoding of its row's command. -/
theorem opcodeTableWordsDecode : Obligations.OpcodeTableWordsDecode :=
  ⟨decode_encode .nop, decode_encode .crcInit, decode_encode .crcUpdate, decode_encode .crcFinal, decode_encode .crc32,
    decode_encode .crcCheck, decode_encode .typeLoad, decode_encode .typeFromString, decode_encode .typeIsValid,
    decode_encode .typeIsCritical, decode_encode .typeIsPublic, decode_encode .typeIsPrivate,
    decode_encode .typeIsReservedBitValid, decode_encode .typeIsSafeToCopy, decode_encode .chunkNew,
    decode_encode .chunkParse, decode_encode .chunkSerialize, decode_encode .chunkData, decode_encode .chunkToString,
    decode_encode .pngParse, decode_encode .pngSerialize, decode_encode .pngAppend, decode_encode .pngRemove,
    decode_encode .pngFind, decode_encode .pngGet, decode_encode .pngHeader, decode_encode .opEncode,
    decode_encode .opDecode, decode_encode .opRemove⟩

end Sys2Proof.Machine
end

section
/-! PROOFS. The engine's step on a pending word (30_encoding.md R114, R116, R118), and the acceptance of one (R117). -/

namespace Sys2Proof.Machine

/-! ### The engine's step -/

section Engine
variable {s : State}

theorem engineStep_of_decode {i : Instr} (h : decode s.cmd = .ok i) : engineStep s = exec i s := by
  simp [engineStep, pendingCommand, h]

/-- A word that is no command completes with ILLEGAL_COMMAND (R116). -/
theorem engineStep_of_illegal {r : DecodeError} (h : decode s.cmd = .error r) :
    engineStep s = .next (s.failedWith 0x08 (CmdError.illegalCommand r).sub) := by
  simp only [engineStep, pendingCommand, h]
  rfl

theorem takeTurn_of_turns_nil (h : s.turns = []) : s.takeTurn = s := by
  rcases takeTurn_eq s with hkeep | htail
  · exact hkeep
  · rw [htail, h, List.tail_nil, ← h]

/-- The engine moves when nothing is left outside, or when the turns are used up (70_reset_and_hazards.md R290). -/
theorem step_engine_alone (hbusy : s.status.busy = true) (h : s.script = [] ∨ s.turns = []) : step s = engineStep s := by
  rcases h with hscript | hturns
  · simp [step, State.mover, State.takeTurn, hbusy, hscript]
  · have hmover : s.mover = some .engine := by
      cases hscript : s.script <;> simp [State.mover, hbusy, hscript, hturns]
    simp [step, hmover, takeTurn_of_turns_nil hturns]

theorem step_engine_turn {ts : List Agent} (hbusy : s.status.busy = true) (hscript : s.script ≠ [])
    (hturns : s.turns = .engine :: ts) : step s = engineStep { s with turns := ts } := by
  obtain ⟨x, rest, hscript⟩ := List.exists_cons_of_ne_nil hscript
  simp [step, State.mover, State.takeTurn, hscript, hbusy, hturns]

end Engine

/-- Settles O3: who moves, then what the engine's step is. -/
theorem stepRunsThePendingCommand : Obligations.StepRunsThePendingCommand := by
  refine ⟨fun s i hbusy hdec => ⟨fun hscript => ?_, fun _ hturns => ?_, fun ts hscript hturns => ?_⟩,
    fun s hbusy => ⟨step_engine_alone hbusy, fun ts => step_engine_turn hbusy⟩⟩
  · rw [step_engine_alone hbusy (.inl hscript), engineStep_of_decode hdec]
  · rw [step_engine_alone hbusy (.inr hturns), engineStep_of_decode hdec]
  · rw [step_engine_turn hbusy hscript hturns]
    exact engineStep_of_decode hdec

/-- Settles O4: a reserved bit, or an OPCODE in none of the ranges of the commands. -/
theorem reservedWordsCompleteAsIllegal : Obligations.ReservedWordsCompleteAsIllegal := by
  refine fun s => ⟨fun h => engineStep_of_illegal (decode_of_reserved (reservedOf_eq_zero_iff.not.2 h)), ?_⟩
  rintro op rfl hop hrange
  have hres : s.cmd >>> 8 = 0 := by bv_omega
  have hnot : ∀ i, s.cmd ≠ encode i := by
    intro i hi
    have hencoding := encode_toNat_ranges i
    rw [← hi] at hencoding
    omega
  exact engineStep_of_illegal (decode_of_not_encoding (reservedOf_eq_zero_iff.2 hres) hnot)

/-! ### The acceptance of a command -/

theorem withFetchWord_encode_cmd (s : State) (i : Instr) : (s.withFetchWord 32 (encode i).toNat).cmd = encode i := by
  rw [withFetchWord_cmd, Nat.mod_eq_of_lt (encode i).isLt, BitVec.ofNat_toNat, BitVec.setWidth_eq]

theorem decodeTableWord_encode (i : Instr) : decodeTableWord 32 (encode i).toNat = some i := by
  rw [decodeTableWord, if_pos ⟨le_rfl, (encode i).isLt⟩, BitVec.ofNat_toNat, BitVec.setWidth_eq, decode_encode]
  rfl

/-- Settles O5: the placed word is pending and no turn stands before the engine's. -/
theorem placedWordRunsNext : Obligations.PlacedWordRunsNext := by
  intro s i
  have hcmd := withFetchWord_encode_cmd s i
  refine ⟨?_, hcmd, rfl, decodeTableWord_encode i⟩
  rw [step_engine_alone rfl (.inr rfl), engineStep_of_decode (hcmd ▸ decode_encode i)]

/-- Settles O6: offset 0x00 is CMD's, and its write is CMD acceptance. -/
theorem commandAcceptanceStartsACommand : Obligations.CommandAcceptanceStartsACommand :=
  fun _ v hidle => regWrite_offset_idle hidle .cmd v

end Sys2Proof.Machine
end

section
/-! PROOFS. What a command may write: the "writes on success" column of 30_encoding.md R113, row by row (10_state.md R33 to R47). -/

namespace Sys2Proof.Machine

/-- The commands that do an `Output` (20_memory.md R85). -/
def outputCommands : List Instr :=
  [.chunkSerialize, .chunkData, .chunkToString, .pngSerialize, .pngHeader, .opEncode, .opDecode, .opRemove]

/-- The state `s` with the fields that the table row of `i` lists taken from `t`, field by field. -/
def tableRow (i : Instr) (s t : State) : State :=
  { s with
    crcAcc := if i ∈ [.crcInit, .crcUpdate] then t.crcAcc else s.crcAcc
    result := if i ∈ [.crcFinal, .crc32, .crcCheck, .typeIsValid, .typeIsCritical, .typeIsPublic, .typeIsPrivate,
      .typeIsReservedBitValid, .typeIsSafeToCopy, .chunkParse, .pngFind, .opDecode] then t.result else s.result
    typeReg := if i ∈ [.typeLoad, .typeFromString, .opEncode, .opDecode, .opRemove] then t.typeReg else s.typeReg
    index := if i ∈ [.pngFind, .opDecode] then t.index else s.index
    stage := if i ∈ [.chunkNew, .chunkParse, .pngAppend, .pngRemove, .pngFind, .pngGet, .opEncode, .opDecode, .opRemove]
      then t.stage else s.stage
    png := if i ∈ [.pngParse, .pngAppend, .pngRemove, .opEncode, .opDecode, .opRemove] then t.png else s.png
    dstLen := if i ∈ outputCommands then t.dstLen else s.dstLen
    buf := if i ∈ outputCommands then t.buf else s.buf }

section Rows
variable {i : Instr} {s t w : State}

/-- `Output` changes BUF and DST_LEN only. -/
theorem output_row {out : List Byte} (h : output out s = .ok w) : w = { s with buf := w.buf, dstLen := w.dstLen } := by
  obtain ⟨-, rfl⟩ := output_eq_ok.1 h
  rfl

/-- A successful rule writes what its row lists and nothing else. -/
theorem rule_ok_row (h : ruleOf i s = .ok w) : w = tableRow i s w := by
  cases i <;> simp only [ruleOf] at h
  case nop => exact nopRule_eq_ok.1 h
  case crcInit => obtain rfl := crcInitRule_eq_ok.1 h; rfl
  case crcUpdate => obtain ⟨-, rfl⟩ := crcUpdateRule_eq_ok.1 h; rfl
  case crcFinal => obtain rfl := crcFinalRule_eq_ok.1 h; rfl
  case crc32 => obtain ⟨-, rfl⟩ := crc32Rule_eq_ok.1 h; rfl
  case crcCheck => obtain ⟨-, -, rfl⟩ := crcCheckRule_eq_ok.1 h; rfl
  case typeLoad => obtain ⟨-, rfl⟩ := typeLoadRule_eq_ok.1 h; rfl
  case typeFromString => obtain ⟨-, t, -, rfl⟩ := typeFromStringRule_eq_ok.1 h; rfl
  case chunkNew => obtain ⟨-, -, rfl⟩ := chunkNewRule_eq_ok.1 h; rfl
  case chunkParse => obtain ⟨-, p, -, -, rfl⟩ := chunkParseRule_eq_ok.1 h; rfl
  case chunkSerialize => obtain ⟨c, -, -, hout⟩ := chunkSerializeRule_eq_ok.1 h; exact output_row hout
  case chunkData => obtain ⟨c, -, -, hout⟩ := chunkDataRule_eq_ok.1 h; exact output_row hout
  case chunkToString => obtain ⟨c, -, -, -, hout⟩ := chunkToStringRule_eq_ok.1 h; exact output_row hout
  case pngParse => obtain ⟨-, cs, -, rfl⟩ := pngParseRule_eq_ok.1 h; rfl
  case pngSerialize => obtain ⟨cs, -, -, hout⟩ := pngSerializeRule_eq_ok.1 h; exact output_row hout
  case pngAppend => obtain ⟨cs, -, c, -, -, rfl⟩ := pngAppendRule_eq_ok.1 h; rfl
  case pngRemove => obtain ⟨cs, -, p, -, rfl⟩ := pngRemoveRule_eq_ok.1 h; rfl
  case pngFind => obtain ⟨cs, -, ⟨-, rfl⟩ | ⟨p, -, rfl⟩⟩ := pngFindRule_eq_ok.1 h <;> rfl
  case pngGet => obtain ⟨cs, -, c, -, rfl⟩ := pngGetRule_eq_ok.1 h; rfl
  case pngHeader => obtain ⟨-, hout⟩ := pngHeaderRule_eq_ok.1 h; exact output_row hout
  case opEncode =>
    obtain ⟨-, cs, -, t, -, -, w2, hout, rfl⟩ := opEncodeRule_eq_ok.1 h
    rw [output_row hout]; rfl
  case opDecode =>
    obtain ⟨-, cs, -, t, -, ⟨-, w2, hout, rfl⟩ | ⟨p, -, -, w2, hout, rfl⟩⟩ := opDecodeRule_eq_ok.1 h <;>
      (rw [output_row hout]; rfl)
  case opRemove =>
    obtain ⟨-, cs, -, t, -, p, -, w2, hout, rfl⟩ := opRemoveRule_eq_ok.1 h
    rw [output_row hout]; rfl
  all_goals obtain rfl := predicateRule_eq_ok.1 h; rfl

/-- Taking every field from the state itself is taking none. -/
theorem tableRow_self (i : Instr) (s : State) : tableRow i s s = s := by
  simp [tableRow]

/-- But for STATUS, a command leaves a state that differs from the one before in its row only. After an error it does not
differ at all (60_exceptions.md R254). -/
theorem exec_row (h : exec i s = .next t) : ∃ w st, w = tableRow i s w ∧ t = { w with status := st } := by
  rcases exec_cases h with ⟨w, hw, rfl⟩ | ⟨e, -, rfl⟩
  · exact ⟨w, _, rule_ok_row hw, rfl⟩
  · exact ⟨s, _, (tableRow_self i s).symm, rfl⟩

/-- A field that the row may take from either state and that has changed is one the row lists. -/
theorem listed_of_changed {α : Type} {p : Prop} [Decidable p] {new old : α} (h : new = if p then new else old)
    (hne : new ≠ old) : p :=
  by_contra fun hp => hne (h.trans (if_neg hp))

end Rows

/-- Settles O9: the row names every field that may change. -/
theorem commandsWriteOnlyWhatTheTableLists : Obligations.CommandsWriteOnlyWhatTheTableLists := by
  intro i s t h
  obtain ⟨w, st, hrow, rfl⟩ := exec_row h
  refine ⟨?_, listed_of_changed (congrArg State.crcAcc hrow), listed_of_changed (congrArg State.result hrow),
    listed_of_changed (congrArg State.typeReg hrow), listed_of_changed (congrArg State.index hrow),
    listed_of_changed (congrArg State.stage hrow), listed_of_changed (congrArg State.png hrow), fun hne => ?_⟩
  · rw [hrow]
    exact ⟨rfl, rfl, rfl, rfl, rfl, rfl, rfl, rfl, rfl, rfl, rfl, rfl, rfl, rfl, rfl, rfl⟩
  · exact hne.elim (listed_of_changed (congrArg State.dstLen hrow)) (listed_of_changed (congrArg State.buf hrow))

end Sys2Proof.Machine
end

section
/-! PROOFS. The bits of the CRC register (40_crc.md R140, R149): which bits of the input the next rounds look at, the
register not reflected, and that a changed byte changes the CRC. -/

namespace Sys2Proof.Machine

/-! ### The input of the next rounds -/

section Rounds
variable {n : Nat} {x : Word}

theorem crcBit_of_even (h : x.getLsbD 0 = false) : crcBit x = x >>> 1 := by
  rw [crcBit, h]; rfl

/-- As long as the bits that leave the register are 0, a round is a shift. -/
theorem crcBits_of_low_bits_false (h : ∀ i < n, x.getLsbD i = false) : crcBits n x = x >>> n := by
  induction n generalizing x with
  | zero => simp [crcBits]
  | succ n ih =>
    have hlow : ∀ i < n, (x >>> 1).getLsbD i = false := fun i hi => by
      rw [BitVec.getLsbD_ushiftRight]
      exact h (1 + i) (by omega)
    rw [crcBits, crcBit_of_even (h 0 n.succ_pos), ih hlow, ← BitVec.shiftRight_add, Nat.add_comm]

theorem getLsbD_xor_low_bits (n : Nat) (x : Word) (i : Nat) :
    (x ^^^ (x.setWidth n).setWidth 32).getLsbD i = (x.getLsbD i && !decide (i < n)) := by
  by_cases hi : i < n
  · have hlt : x.getLsbD i = true → i < 32 := BitVec.lt_of_getLsbD
    simpa [hi] using hlt
  · simp [hi]

/-- Of an input to the next rounds, `n` rounds look at the low `n` bits; the rest moves down. -/
theorem crcBits_xor_low_bits (n : Nat) (a x : Word) :
    crcBits n (a ^^^ x) = crcBits n (a ^^^ (x.setWidth n).setWidth 32) ^^^ x >>> n := by
  have hhigh : crcBits n (x ^^^ (x.setWidth n).setWidth 32) = x >>> n := by
    rw [crcBits_of_low_bits_false fun i hi => by rw [getLsbD_xor_low_bits]; simp [hi]]
    apply BitVec.eq_of_getLsbD_eq
    intro i _
    rw [BitVec.getLsbD_ushiftRight, BitVec.getLsbD_ushiftRight, getLsbD_xor_low_bits]
    simp
  calc crcBits n (a ^^^ x)
      = crcBits n (a ^^^ (x.setWidth n).setWidth 32 ^^^ (x ^^^ (x.setWidth n).setWidth 32)) := by
        rw [BitVec.xor_comm x, ← BitVec.xor_assoc, BitVec.xor_assoc a, BitVec.xor_self, BitVec.xor_zero]
    _ = crcBits n (a ^^^ (x.setWidth n).setWidth 32) ^^^ x >>> n := by rw [crcBits_xor, hhigh]

end Rounds

/-! ### The register not reflected -/

theorem reverse_xor (a b : Word) : (a ^^^ b).reverse = a.reverse ^^^ b.reverse := by
  apply BitVec.eq_of_getLsbD_eq
  intro i hi
  simp [hi, BitVec.getElem_reverse]

theorem reverse_shiftLeft_one (a : Word) : (a <<< 1).reverse = a.reverse >>> 1 := by
  apply BitVec.eq_of_getLsbD_eq
  intro i _
  simp [BitVec.getLsbD_reverse, Nat.add_comm]

/-- The polynomial of R140, from either end. -/
theorem reverse_poly : (0x04C11DB7 : Word).reverse = crcPoly := by decide +kernel

theorem crcNormalBit_reverse (reg : Word) (bit : Bool) :
    (crcNormalBit reg bit).reverse = crcBit (reg.reverse ^^^ (BitVec.ofBool bit).setWidth 32) := by
  have hlow : (reg.reverse ^^^ (BitVec.ofBool bit).setWidth 32).getLsbD 0 = (reg.getLsbD 31 ^^ bit) := by
    simp [BitVec.getElem_reverse, BitVec.getMsbD]
  have hshift : (reg.reverse ^^^ (BitVec.ofBool bit).setWidth 32) >>> 1 = reg.reverse >>> 1 := by
    cases bit <;> simp [BitVec.ushiftRight_xor_distrib]
  rw [crcNormalBit, crcBit, hlow, hshift, apply_ite BitVec.reverse, reverse_xor, reverse_shiftLeft_one, reverse_poly]

/-- The rounds on a register take the bits of the input one by one, the low one first. -/
theorem crcBits_reverse (n : Nat) (reg x : Word) :
    crcBits n (reg.reverse ^^^ x) =
      ((List.range n).foldl (fun r k => crcNormalBit r (x.getLsbD k)) reg).reverse ^^^ x >>> n := by
  induction n with
  | zero => simp [crcBits]
  | succ n ih =>
    rw [crcBits_add n 1, ih, crcBits_xor_low_bits 1, BitVec.setWidth_one, ← BitVec.shiftRight_add,
      List.range_succ, List.foldl_append]
    congr 1
    simp [crcBits, crcNormalBit_reverse]

theorem crcStep_reverse (reg : Word) (b : Byte) : crcStep reg.reverse b = (crcNormalByte reg b).reverse := by
  have hrest : (b.setWidth 32 : Word) >>> 8 = 0#32 := by
    apply BitVec.eq_of_getLsbD_eq
    simp
  rw [crcStep, crcBits_reverse, hrest, BitVec.xor_zero]
  simp [crcNormalByte, List.range_succ]

theorem crcFold_reverse (reg : Word) (s : List Byte) : crcFold reg.reverse s = (s.foldl crcNormalByte reg).reverse := by
  induction s generalizing reg with
  | nil => rfl
  | cons b s ih => rw [crcFold_cons, crcStep_reverse, ih, List.foldl_cons]

/-- The CRC of R141 and R142 is the one of the parameters of R140, not reflected. -/
theorem crc32_eq_crcNormal (s : List Byte) : crc32 s = crcNormal s := by
  have hones : crcOnes = (0xFFFFFFFF : Word).reverse := by decide +kernel
  rw [crc32, crcNormal, hones, crcFold_reverse, ← hones]
  rfl

/-! ### The residue -/

theorem crcBits_xor_next_byte (n k : Nat) (a v : Word) :
    crcBits (8 + n) (a ^^^ v >>> k) = crcBits n (crcStep a (v.extractLsb' k 8) ^^^ v >>> (k + 8)) := by
  rw [crcBits_add, crcBits_xor_low_bits, ← BitVec.shiftRight_add]
  rfl

/-- The 4 bytes of a word, least significant first, are folded as the word. -/
theorem crcFold_reverse_u32be (a v : Word) : crcFold a (u32be v).reverse = crcBits 32 (a ^^^ v) := by
  have hstart : a ^^^ v = a ^^^ v >>> 0 := by simp
  have hend : v >>> 32 = 0#32 := BitVec.ushiftRight_eq_zero le_rfl
  rw [hstart, crcBits_xor_next_byte 24 0, crcBits_xor_next_byte 16 8, crcBits_xor_next_byte 8 16,
    crcBits_xor_next_byte 0 24, hend, BitVec.xor_zero]
  rfl

/-- The register after a message and its CRC does not depend on the message (R140). -/
theorem crcFold_message_crc (s : List Byte) : crcFold crcOnes (s ++ (u32be (crc32 s)).reverse) = 0xDEBB20E3 := by
  have hresidue : crcBits 32 crcOnes = 0xDEBB20E3 := by decide +kernel
  rw [crcFold_append, crcFold_reverse_u32be, crc32, ← BitVec.xor_assoc, BitVec.xor_self, BitVec.zero_xor, hresidue]

/-- Settles O30, with the residue from the fold of the CRC's own bytes. -/
theorem crcHasTheParametersOfIsoHdlc : Obligations.CrcHasTheParametersOfIsoHdlc := by
  have hcheck : crc32 [0x31, 0x32, 0x33, 0x34, 0x35, 0x36, 0x37, 0x38, 0x39] = 0xCBF43926 := by decide +kernel
  exact ⟨crc32_eq_crcNormal, rfl, reverse_poly, hcheck, crcFold_message_crc⟩

/-! ### One changed byte -/

theorem crc32_replaced_byte_ne {b c : Byte} (l r : List Byte) (h : b ≠ c) : crc32 (l ++ b :: r) ≠ crc32 (l ++ c :: r) := by
  intro heq
  have hfold := (BitVec.xor_left_inj _).1 heq
  rw [crcFold_append, crcFold_append, crcFold_cons, crcFold_cons] at hfold
  exact h (crcStep_byte_injective (crcFold_injective hfold))

theorem invert_bit_ne {k : Nat} (b : Byte) (hk : k < 8) : b ^^^ (1 : Byte) <<< k ≠ b := by
  intro h
  have hbit := congrArg (fun x => x.getLsbD k) h
  simp [hk] at hbit

/-- Settles O32: the byte with the inverted bit is another byte. -/
theorem crcDetectsEverySingleBitFlip : Obligations.CrcDetectsEverySingleBitFlip := by
  intro s i k hi hk
  have hs : s = s.take i ++ s[i] :: s.drop (i + 1) := by simp
  have hflip : flipBit s i k = s.take i ++ (s[i] ^^^ (1 : Byte) <<< k) :: s.drop (i + 1) := by
    simp [flipBit, hi, List.set_eq_take_append_cons_drop]
  have hne := crc32_replaced_byte_ne (s.take i) (s.drop (i + 1)) (invert_bit_ne s[i] hk)
  rwa [← hflip, ← hs] at hne

end Sys2Proof.Machine
end

section
/-! PROOFS. The five commands of the CRC unit (40_crc.md R143 to R147), and the CRC of a stream in parts (R148). -/

namespace Sys2Proof.Machine

/-! ### The commands -/

section Commands
variable {s : State}

/-- A command that checks a range before anything else ends with its RANGE_ERROR if that is illegal (20_memory.md R83). -/
theorem exec_of_illegal_range {i : Instr} {r : RangeName} {f : Unit → Except CmdError State}
    (hrule : ruleOf i s = (checkRange s r >>= f)) (hillegal : ¬ s.rangeLegal r) :
    exec i s = .next (s.failedWith 0x09 (CmdError.rangeError r).sub) :=
  exec_of_error (e := .rangeError r) <| hrule.trans <| bind_eq_error.2 <| .inl <| checkRange_eq_error.2 ⟨hillegal, rfl⟩

theorem exec_crcInit (s : State) : exec .crcInit s = .next { s with crcAcc := crcOnes }.finished :=
  exec_of_ok (crcInitRule_eq_ok.2 rfl)

theorem exec_crcFinal (s : State) : exec .crcFinal s = .next { s with result := s.crcAcc ^^^ crcOnes }.finished :=
  exec_of_ok (crcFinalRule_eq_ok.2 rfl)

theorem exec_crcUpdate (h : s.Legal s.srcAddr s.srcLen) : exec .crcUpdate s =
    .next { s with crcAcc := crcFold s.crcAcc (s.bytesAt s.srcAddr s.srcLen) }.finished :=
  exec_of_ok (crcUpdateRule_eq_ok.2 ⟨h, rfl⟩)

theorem exec_crc32 (h : s.Legal s.srcAddr s.srcLen) : exec .crc32 s =
    .next { s with result := crc32 (s.bytesAt s.srcAddr s.srcLen) }.finished :=
  exec_of_ok (crc32Rule_eq_ok.2 ⟨h, rfl⟩)

theorem exec_crcCheck_match (h : s.Legal s.srcAddr s.srcLen) (hcrc : crc32 (s.bytesAt s.srcAddr s.srcLen) = s.crcExp) :
    exec .crcCheck s = .next { s with result := crc32 (s.bytesAt s.srcAddr s.srcLen) }.finished :=
  exec_of_ok (crcCheckRule_eq_ok.2 ⟨h, hcrc, rfl⟩)

theorem exec_crcCheck_mismatch (h : s.Legal s.srcAddr s.srcLen) (hcrc : crc32 (s.bytesAt s.srcAddr s.srcLen) ≠ s.crcExp) :
    exec .crcCheck s = .next (s.failedWith 0x03 0) := by
  have hrule : ruleOf .crcCheck s = .error .crcMismatch :=
    bind_eq_error.2 <| .inr ⟨(), checkRange_eq_ok.2 h, bind_eq_error.2 <| .inl <| require_eq_error.2 ⟨hcrc, rfl⟩⟩
  exact exec_of_error hrule

end Commands

/-- Settles O26: SRC is checked, then folded. -/
theorem crcUpdateFoldsTheSource : Obligations.CrcUpdateFoldsTheSource :=
  ⟨rfl, fun _ => ⟨exec_crcUpdate, exec_of_illegal_range (r := .src) rfl⟩⟩

/-- Settles O27: neither command checks a range. -/
theorem crcInitAndFinal : Obligations.CrcInitAndFinal :=
  ⟨rfl, rfl, fun s => ⟨exec_crcInit s, exec_crcFinal s⟩⟩

/-- Settles O28: SRC is checked, and CRC_ACC is not in the rule. -/
theorem crc32OfTheSource : Obligations.Crc32OfTheSource :=
  ⟨rfl, fun _ => ⟨exec_crc32, exec_of_illegal_range (r := .src) rfl⟩⟩

/-- Settles O29: the range is checked before the CRC. -/
theorem crcCheckComparesAllBits : Obligations.CrcCheckComparesAllBits :=
  ⟨rfl, fun _ => ⟨exec_crcCheck_match, exec_crcCheck_mismatch, exec_of_illegal_range (r := .src) rfl⟩⟩

/-! ### The CRC of a stream in parts -/

/-- The state after the host has written a range to SRC and CRC_UPDATE has folded its bytes. -/
def State.crcUpdated (s : State) (r : Word × Word) : State :=
  State.finished { s.withSrc r.1 r.2 with crcAcc := crcFold s.crcAcc (s.bytesAt r.1 r.2) }

section Streamed
variable {s : State} {r : Word × Word} {rs : List (Word × Word)}

theorem exec_crcUpdate_withSrc (h : s.Legal r.1 r.2) : exec .crcUpdate (s.withSrc r.1 r.2) = .next (s.crcUpdated r) := by
  have hbytes : (s.withSrc r.1 r.2).bytesAt r.1 r.2 = s.bytesAt r.1 r.2 :=
    bytesAt_congr (s := s) (t := s.withSrc r.1 r.2) rfl rfl _ _
  rw [State.crcUpdated, ← hbytes]
  exact exec_crcUpdate (s := s.withSrc r.1 r.2) h

/-- An update changes nothing that the next one reads in BUF. -/
theorem bytesAt_crcUpdated (s : State) (r : Word × Word) (a n : Word) : (s.crcUpdated r).bytesAt a n = s.bytesAt a n :=
  bytesAt_congr (s := s) (t := s.crcUpdated r) rfl rfl a n

theorem crcUpdates_of_legal (h : ∀ r ∈ rs, s.Legal r.1 r.2) :
    ∃ t, CrcUpdates s rs t ∧ t.crcAcc = crcFold s.crcAcc (rs.flatMap fun r => s.bytesAt r.1 r.2) := by
  induction rs generalizing s with
  | nil => exact ⟨s, rfl, rfl⟩
  | cons r rs ih =>
    obtain ⟨hr, hrs⟩ := List.forall_mem_cons.1 h
    obtain ⟨t, hupdates, hacc⟩ := ih (s := s.crcUpdated r) hrs
    refine ⟨t, ⟨_, exec_crcUpdate_withSrc hr, rfl, hupdates⟩, ?_⟩
    simp only [bytesAt_crcUpdated] at hacc
    rw [hacc, List.flatMap_cons, crcFold_append]
    rfl

end Streamed

/-- Settles O31: the running register is the fold of the whole, from the initial one. -/
theorem streamedCrcIsTheCrcOfTheWhole : Obligations.StreamedCrcIsTheCrcOfTheWhole := by
  intro s rs hlegal
  have hinit : ∀ r ∈ rs, (State.finished { s with crcAcc := crcOnes }).Legal r.1 r.2 := hlegal
  obtain ⟨t, hupdates, hacc⟩ := crcUpdates_of_legal hinit
  have hresult : t.crcAcc ^^^ crcOnes = crc32 (rs.flatMap fun r => s.bytesAt r.1 r.2) := by
    have hbytes : (State.finished { s with crcAcc := crcOnes }).bytesAt = s.bytesAt :=
      funext₂ (bytesAt_congr rfl rfl)
    rw [hacc, hbytes]
    rfl
  refine ⟨_, t, _, exec_crcInit s, hupdates, exec_crcFinal t, rfl, hresult, fun u hu hbytes => ⟨_, exec_crc32 hu, ?_⟩⟩
  exact (congrArg crc32 hbytes).trans hresult.symm

end Sys2Proof.Machine
end

section
/-! PROOFS. The ChunkType commands (41_chunk_type.md R161 to R169): TYPE_LOAD, TYPE_FROM_STRING and the six predicates of TYPE. -/

namespace Sys2Proof.Machine

/-! ### TYPE_LOAD -/

section Load
variable {s : State}

/-- `be32` as the number that R9 writes. -/
theorem be32_eq_ofNat (b0 b1 b2 b3 : Byte) :
    be32 b0 b1 b2 b3 = BitVec.ofNat 32 (b0.toNat * 2 ^ 24 + b1.toNat * 2 ^ 16 + b2.toNat * 2 ^ 8 + b3.toNat) := by
  rw [← be32_toNat, BitVec.ofNat_toNat, BitVec.setWidth_eq]

theorem exec_typeLoad (h : s.srcAddr.toNat + 4 ≤ s.cfg.memSize) : exec .typeLoad s = .next (State.finished { s with
    typeReg := be32 (s.byteAt s.srcAddr.toNat) (s.byteAt (s.srcAddr.toNat + 1)) (s.byteAt (s.srcAddr.toNat + 2))
      (s.byteAt (s.srcAddr.toNat + 3)) }) :=
  exec_of_ok (typeLoadRule_eq_ok.2 ⟨h, rfl⟩)

end Load

/-- Settles O33: SRC_LEN is in neither the check nor the rule. -/
theorem typeLoadTakesAnyFourBytes : Obligations.TypeLoadTakesAnyFourBytes := by
  refine ⟨rfl, fun s => ⟨fun h => ?_, fun h => ?_⟩⟩
  · rw [exec_typeLoad h, be32_eq_ofNat]
  · exact exec_of_illegal_range (r := .typeWord) rfl (Nat.not_le_of_lt h)

/-! ### The letters of a type -/

section Letters
variable {b : Byte} {bs : List Byte} {t : ChunkType}

theorem isLetter_iff : isLetter b = true ↔ Letter b := by
  simp [isLetter, Letter, BitVec.le_def]

/-- The test of the rules on 4 bytes is that each one is a letter. -/
theorem all_isLetter_iff : (isLetter t.t0 && isLetter t.t1 && isLetter t.t2 && isLetter t.t3) = true ↔
    ∀ b ∈ t.bytes, Letter b := by
  simp [isLetter_iff, ChunkType.bytes, and_assoc]

theorem exists_bytes_eq (h : bs.length = 4) : ∃ t : ChunkType, bs = t.bytes := by
  obtain ⟨t, rest, rfl⟩ := exists_type h.ge
  have hrest : rest = [] := by simpa using h
  exact ⟨t, by rw [hrest, List.append_nil]⟩

theorem typeFromString_of_length_ne (h : bs.length ≠ 4) : typeFromString bs = .error (.invalidChunkType .wrongLength) := by
  unfold typeFromString
  split
  · exact absurd rfl h
  · rfl

theorem typeFromString_bytes (h : ∀ b ∈ t.bytes, Letter b) : typeFromString t.bytes = .ok t :=
  if_pos (all_isLetter_iff.2 h)

theorem typeFromString_bytes_of_not_letter (h : ∃ b ∈ t.bytes, ¬ Letter b) :
    typeFromString t.bytes = .error (.invalidChunkType .nonAlphabetic) :=
  if_neg fun hall => by
    obtain ⟨b, hb, hnot⟩ := h
    exact hnot (all_isLetter_iff.1 hall b hb)

end Letters

/-! ### TYPE_FROM_STRING -/

section FromString
variable {s : State}

theorem exec_typeFromString {t : ChunkType} (h : s.Legal s.srcAddr s.srcLen)
    (ht : typeFromString (s.bytesAt s.srcAddr s.srcLen) = .ok t) :
    exec .typeFromString s = .next (State.finished { s with typeReg := t.toWord }) :=
  exec_of_ok (typeFromStringRule_eq_ok.2 ⟨h, t, ht, rfl⟩)

theorem exec_typeFromString_of_error {e : CmdError} (h : s.Legal s.srcAddr s.srcLen)
    (he : typeFromString (s.bytesAt s.srcAddr s.srcLen) = .error e) :
    exec .typeFromString s = .next (s.failedWith e.code e.sub) := by
  have hrule : ruleOf .typeFromString s = .error e :=
    bind_eq_error.2 <| .inr ⟨(), checkRange_eq_ok.2 h, bind_eq_error.2 <| .inl he⟩
  exact exec_of_error hrule

/-- A source of 4 bytes is the bytes of a type. -/
theorem exists_type_at_src (h : s.srcLen = 4) : ∃ t : ChunkType, s.bytesAt s.srcAddr s.srcLen = t.bytes :=
  exists_bytes_eq (by rw [bytesAt_length, h]; rfl)

end FromString

/-- Settles O34: the range, then the length, then the letters. -/
theorem typeFromStringChecksLengthThenLetters : Obligations.TypeFromStringChecksLengthThenLetters := by
  refine ⟨rfl, fun s => ⟨exec_of_illegal_range (r := .src) rfl, fun h hlen => ?_, fun h hlen hnot => ?_, fun h hlen hall => ?_⟩⟩
  · have hne : (s.bytesAt s.srcAddr s.srcLen).length ≠ 4 := by
      rw [bytesAt_length]
      exact fun h4 => hlen (BitVec.eq_of_toNat_eq h4)
    exact exec_typeFromString_of_error h (typeFromString_of_length_ne hne)
  · obtain ⟨t, ht⟩ := exists_type_at_src hlen
    rw [ht] at hnot
    exact exec_typeFromString_of_error h (ht ▸ typeFromString_bytes_of_not_letter hnot)
  · obtain ⟨t, ht⟩ := exists_type_at_src hlen
    rw [ht] at hall
    exact ⟨_, exec_typeFromString h (ht ▸ typeFromString_bytes hall), rfl, (toWord_bytes t).trans ht.symm⟩

/-! ### The predicates -/

section Predicates
variable {s : State} {i : Instr} {p : ChunkType → Bool} {k : Nat}

/-- Bit 5 of a byte of a word, as a bit of the word. -/
theorem bit5_extractLsb' (v : Word) (k : Nat) : bit5 (v.extractLsb' k 8) = v.getLsbD (k + 5) := by
  simp [bit5]

theorem isValid_iff (t : ChunkType) : t.isValid = true ↔ (∀ b ∈ t.bytes, Letter b) ∧ bit5 t.t2 = false := by
  rw [ChunkType.isValid, Bool.and_eq_true, all_isLetter_iff, Bool.not_eq_true']

/-- TYPE is valid iff its bytes are letters and bit 13, which is bit 5 of byte 2, is clear (41_chunk_type.md R164). -/
theorem typeOperand_isValid_iff :
    s.typeOperand.isValid = true ↔ (∀ b ∈ u32be s.typeReg, Letter b) ∧ s.typeReg.getLsbD 13 = false := by
  rw [← bit5_extractLsb' s.typeReg 8]
  exact isValid_iff s.typeOperand

theorem exec_predicate {b : Bool} (hrule : ruleOf i = predicateRule p) (hp : p s.typeOperand = b) :
    exec i s = .next (State.finished { s with result := boolWord b }) :=
  exec_of_ok (by rw [hrule, ← hp]; exact predicateRule_eq_ok.2 rfl)

theorem exec_predicate_of_bit (hrule : ruleOf i = predicateRule p) (hp : p s.typeOperand = bit5 (s.typeReg.extractLsb' k 8)) :
    exec i s = .next (State.finished { s with result := if s.typeReg.getLsbD (k + 5) then 1 else 0 }) :=
  exec_predicate hrule (hp.trans (bit5_extractLsb' s.typeReg k))

theorem exec_predicate_of_not_bit (hrule : ruleOf i = predicateRule p)
    (hp : p s.typeOperand = !bit5 (s.typeReg.extractLsb' k 8)) :
    exec i s = .next (State.finished { s with result := if s.typeReg.getLsbD (k + 5) then 0 else 1 }) := by
  rw [exec_predicate hrule hp, bit5_extractLsb']
  cases s.typeReg.getLsbD (k + 5) <;> rfl

end Predicates

/-- Settles O35: byte 0, 1, 2, 3 of TYPE begins at bit 24, 16, 8, 0. -/
theorem typePredicatesReadTheirBits : Obligations.TypePredicatesReadTheirBits := by
  refine ⟨by decide, fun s => ⟨fun h => ?_, fun h => ?_, ?_, ?_, ?_, ?_, ?_⟩⟩
  · exact exec_predicate rfl (typeOperand_isValid_iff.2 h)
  · exact exec_predicate rfl (Bool.eq_false_of_not_eq_true (mt typeOperand_isValid_iff.1 h))
  · exact exec_predicate_of_not_bit (p := ChunkType.isCritical) (k := 24) rfl rfl
  · exact exec_predicate_of_not_bit (p := ChunkType.isPublic) (k := 16) rfl rfl
  · exact exec_predicate_of_bit (p := ChunkType.isPrivate) (k := 16) rfl rfl
  · exact exec_predicate_of_not_bit (p := ChunkType.isReservedBitValid) (k := 8) rfl rfl
  · exact exec_predicate_of_bit (p := ChunkType.isSafeToCopy) (k := 0) rfl rfl

end Sys2Proof.Machine
end

section
/-! PROOFS. The frame of a chunk (42_chunk.md R181, R188 to R190): ParseChunk field by field, the round trip, and one inverted bit. -/

namespace Sys2Proof.Machine

/-! ### The round trip -/

theorem parseChunk_chunkBytes {c : Chunk} (rest : List Byte) (hc : c.Sound) :
    parseChunk (chunkBytes c ++ rest) = .ok (c, 12 + c.data.length) :=
  parseChunk_eq_ok.2 ⟨rest, rfl, hc, rfl⟩

/-- Settles O42: ParseChunk succeeds exactly on the frames of sound chunks. -/
theorem chunkRoundTrip : Obligations.ChunkRoundTrip := by
  refine ⟨fun c rest hc => parseChunk_chunkBytes rest hc, fun r c k h => ?_⟩
  obtain ⟨rest, rfl, hsound, hk⟩ := parseChunk_eq_ok.1 h
  obtain rfl : k = (chunkBytes c).length := hk.trans (chunkBytes_length c).symm
  exact ⟨List.take_left.symm, by simp, hsound⟩

/-! ### ParseChunk, field by field -/

section Fields
variable {l : Word} {t : ChunkType} {d tail : List Byte}

theorem parseChunk_of_short_data (h : d.length < l.toNat) :
    parseChunk (u32be l ++ t.bytes ++ d) = .error (.truncated .data) := by
  rw [List.append_assoc, parseChunk_fields, if_pos h]

theorem parseChunk_of_short_crc (hd : d.length = l.toNat) (h : tail.length < 4) :
    parseChunk (u32be l ++ t.bytes ++ d ++ tail) = .error (.truncated .crc) := by
  have henough : ¬ (d ++ tail).length < l.toNat := by simp [← hd]
  simp only [List.append_assoc]
  rw [parseChunk_fields, if_neg henough, ← hd, List.drop_left]
  split
  · simp at h
    omega
  · rfl

theorem parseChunk_of_crc (c : Word) (rest : List Byte) (hd : d.length = l.toNat) :
    parseChunk (u32be l ++ t.bytes ++ d ++ u32be c ++ rest) =
      if c ≠ crc32 (t.bytes ++ d) then .error .crcMismatch
      else .ok ({ ctype := t, data := d, crc := c }, 12 + l.toNat) := by
  have hl : l = wordOfNat d.length := by rw [hd, wordOfNat_of_word]
  simp only [List.append_assoc, ← hd]
  rw [hl, parseChunk_frame t d rest c (hd ▸ l.isLt)]

end Fields

/-- Settles O36: the header, the data, the crc field, and the crc itself, in this order. -/
theorem parseChunkIsStrict : Obligations.ParseChunkIsStrict := by
  refine ⟨fun r => parseChunk_short, fun l t body => parseChunk_of_short_data, fun l t d tail => parseChunk_of_short_crc,
    fun l t d rest c hd => ⟨fun hne => ?_, fun heq => ?_⟩, fun p => rfl, rfl, rfl, rfl, rfl, rfl⟩
  · rw [parseChunk_of_crc c rest hd, if_pos hne]
  · rw [parseChunk_of_crc c rest hd, if_neg (not_not.2 heq)]

/-! ### One inverted bit -/

section Flip
variable {a b : List Byte} {i k : Nat}

@[simp] theorem flipBit_length (a : List Byte) (i k : Nat) : (flipBit a i k).length = a.length := by
  unfold flipBit
  split <;> simp

theorem flipBit_append_left (h : i < a.length) : flipBit (a ++ b) i k = flipBit a i k ++ b := by
  simp [flipBit, List.getElem?_append_left h, h, List.set_append_left]

theorem flipBit_append_right (h : a.length ≤ i) : flipBit (a ++ b) i k = a ++ flipBit b (i - a.length) k := by
  unfold flipBit
  rw [List.getElem?_append_right h]
  split
  · rw [List.set_append_right _ _ h]
  · rfl

/-- A sequence with an inverted bit has another CRC (40_crc.md R149), so it is another sequence. -/
theorem flipBit_ne (hi : i < a.length) (hk : k < 8) : flipBit a i k ≠ a :=
  fun h => crcDetectsEverySingleBitFlip a i k hi hk (by rw [h])

/-- A frame whose first 4 bytes are the length field of what stands between them and a crc field that is not its CRC. -/
theorem parseChunk_of_wrong_crc {n : Nat} {p : List Byte} {c : Word} (hn : n < 2 ^ 32) (hp : p.length = 4 + n)
    (hc : c ≠ crc32 p) : parseChunk (u32be (wordOfNat n) ++ (p ++ u32be c)) = .error .crcMismatch := by
  obtain ⟨t, d, rfl⟩ := exists_type (r := p) (by omega)
  obtain rfl : d.length = n := by simpa using hp
  have hframe := parseChunk_frame t d [] c hn
  rw [if_pos hc, List.append_nil] at hframe
  rwa [List.append_assoc]

end Flip

/-- Settles O43: the bit is in the type and the data, whose CRC changes with it, or in the crc field, which is then another word. -/
theorem frameBitFlipIsDetected : Obligations.FrameBitFlipIsDetected := by
  rintro ⟨t, d, c⟩ i k ⟨hcrc, hlen⟩ hi hend hk
  simp only at hcrc hlen hend
  have hn : d.length < 2 ^ 32 := by omega
  have hp : (t.bytes ++ d).length = 4 + d.length := by simp
  have hframe : chunkBytes { ctype := t, data := d, crc := c } =
      u32be (wordOfNat d.length) ++ ((t.bytes ++ d) ++ u32be c) := by simp [chunkBytes]
  rw [hframe, flipBit_append_right hi, u32be_length]
  by_cases hin : i - 4 < (t.bytes ++ d).length
  · rw [flipBit_append_left hin]
    have hne := crcDetectsEverySingleBitFlip (t.bytes ++ d) (i - 4) k hin hk
    exact parseChunk_of_wrong_crc hn (by rw [flipBit_length, hp]) (hcrc ▸ hne.symm)
  · rw [flipBit_append_right (by omega)]
    have hlast : i - 4 - (t.bytes ++ d).length < (u32be c).length := by rw [hp, u32be_length]; omega
    have hne := flipBit_ne hlast hk
    obtain ⟨c', rest, hc'⟩ := exists_u32be (r := flipBit (u32be c) (i - 4 - (t.bytes ++ d).length) k) (by simp)
    obtain rfl : rest = [] := by simpa using congrArg List.length hc'
    rw [List.append_nil] at hc'
    rw [hc'] at hne ⊢
    exact parseChunk_of_wrong_crc hn hp (hcrc ▸ fun h => hne (by rw [h]))

end Sys2Proof.Machine
end

section
/-! PROOFS. Well-formed UTF-8 (42_chunk.md R187): the rows of the table, and the walk over them. -/

namespace Sys2Proof.Machine

/-! ### The rows of the table -/

/-- The bytes lie in the ranges, one by one. -/
abbrev InSpans : List ByteSpan → List Byte → Prop := List.Forall₂ fun r b => r.has b = true

section Rows
variable {row : Utf8Row} {b : Byte} {bs : List Byte}

theorem ByteSpan.has_iff {r : ByteSpan} : r.has b = true ↔ r.lo ≤ b.toNat ∧ b.toNat ≤ r.hi := by
  simp [ByteSpan.has]

/-- The rows stand by rising first byte. -/
theorem utf8Table_rising : utf8Table.Pairwise fun r q => r.first.hi < q.first.lo := by decide

/-- So at most one row begins with a byte, and the walk finds it. -/
theorem utf8RowOf_eq_some_iff : utf8RowOf b = some row ↔ row ∈ utf8Table ∧ row.first.has b = true := by
  constructor
  · intro h
    exact ⟨List.mem_of_find?_eq_some h, List.find?_some (p := fun r : Utf8Row => r.first.has b) h⟩
  · rintro ⟨hmem, hb⟩
    obtain ⟨before, after, htable⟩ := List.append_of_mem hmem
    have hrising := htable ▸ utf8Table_rising
    refine List.find?_eq_some_iff_append.2 ⟨hb, before, after, htable, fun r hr => ?_⟩
    have hlt : r.first.hi < row.first.lo := (List.pairwise_append.1 hrising).2.2 r hr row (by simp)
    rw [ByteSpan.has_iff] at hb
    simp only [Bool.not_eq_true', Bool.eq_false_iff, ne_eq, ByteSpan.has_iff]
    omega

theorem inSpans_cons_iff {r : ByteSpan} {rs : List ByteSpan} {s : List Byte} :
    InSpans (r :: rs) s ↔ ∃ b bs, r.has b = true ∧ InSpans rs bs ∧ s = b :: bs :=
  List.forall₂_cons_left_iff

theorem inSpans_nil_iff {s : List Byte} : InSpans [] s ↔ s = [] := List.forall₂_nil_left_iff

/-- Row by row, what the table lists is a sequence. -/
theorem utf8Seq_of_row (hrow : row ∈ utf8Table) (hb : row.first.has b = true) (hbs : InSpans row.rest bs) :
    Utf8Seq (b :: bs) := by
  have heq {n : Nat} (h : n ≤ b.toNat ∧ b.toNat ≤ n) : b.toNat = n := le_antisymm h.2 h.1
  simp only [utf8Table, List.mem_cons, List.not_mem_nil, or_false] at hrow
  rcases hrow with rfl | rfl | rfl | rfl | rfl | rfl | rfl | rfl | rfl <;>
    simp only [inSpans_cons_iff, inSpans_nil_iff, contByte, ByteSpan.has_iff] at hb hbs
  · obtain rfl := hbs
    exact .one b hb.2
  · obtain ⟨c, _, hc, rfl, rfl⟩ := hbs
    exact .two b c hb.1 hb.2 hc.1 hc.2
  · obtain ⟨c, _, hc, ⟨d, _, hd, rfl, rfl⟩, rfl⟩ := hbs
    obtain rfl : b = 0xE0 := BitVec.eq_of_toNat_eq (heq hb)
    exact .threeE0 c d hc.1 hc.2 hd.1 hd.2
  · obtain ⟨c, _, hc, ⟨d, _, hd, rfl, rfl⟩, rfl⟩ := hbs
    exact .threeE1 b c d hb.1 hb.2 hc.1 hc.2 hd.1 hd.2
  · obtain ⟨c, _, hc, ⟨d, _, hd, rfl, rfl⟩, rfl⟩ := hbs
    obtain rfl : b = 0xED := BitVec.eq_of_toNat_eq (heq hb)
    exact .threeED c d hc.1 hc.2 hd.1 hd.2
  · obtain ⟨c, _, hc, ⟨d, _, hd, rfl, rfl⟩, rfl⟩ := hbs
    exact .threeEE b c d hb.1 hb.2 hc.1 hc.2 hd.1 hd.2
  · obtain ⟨c, _, hc, ⟨d, _, hd, ⟨e, _, he, rfl, rfl⟩, rfl⟩, rfl⟩ := hbs
    obtain rfl : b = 0xF0 := BitVec.eq_of_toNat_eq (heq hb)
    exact .fourF0 c d e hc.1 hc.2 hd.1 hd.2 he.1 he.2
  · obtain ⟨c, _, hc, ⟨d, _, hd, ⟨e, _, he, rfl, rfl⟩, rfl⟩, rfl⟩ := hbs
    exact .fourF1 b c d e hb.1 hb.2 hc.1 hc.2 hd.1 hd.2 he.1 he.2
  · obtain ⟨c, _, hc, ⟨d, _, hd, ⟨e, _, he, rfl, rfl⟩, rfl⟩, rfl⟩ := hbs
    obtain rfl : b = 0xF4 := BitVec.eq_of_toNat_eq (heq hb)
    exact .fourF4 c d e hc.1 hc.2 hd.1 hd.2 he.1 he.2

theorem has_of_le {r : ByteSpan} (hlo : r.lo ≤ b.toNat) (hhi : b.toNat ≤ r.hi) : r.has b = true :=
  ByteSpan.has_iff.2 ⟨hlo, hhi⟩

/-- Every sequence is listed in a row. -/
theorem exists_row_of_utf8Seq {q : List Byte} (h : Utf8Seq q) :
    ∃ row ∈ utf8Table, ∃ b bs, q = b :: bs ∧ row.first.has b = true ∧ InSpans row.rest bs := by
  have hmem (n : Nat) (hn : n < 9) : utf8Table[n]'hn ∈ utf8Table := List.getElem_mem hn
  cases h with
  | one a ha => exact ⟨_, hmem 0 (by decide), a, _, rfl, has_of_le (Nat.zero_le _) ha, .nil⟩
  | two a b ha ha' hb hb' =>
    exact ⟨_, hmem 1 (by decide), a, _, rfl, has_of_le ha ha', .cons (has_of_le hb hb') .nil⟩
  | threeE0 b c hb hb' hc hc' =>
    exact ⟨_, hmem 2 (by decide), _, _, rfl, rfl, .cons (has_of_le hb hb') (.cons (has_of_le hc hc') .nil)⟩
  | threeE1 a b c ha ha' hb hb' hc hc' =>
    exact ⟨_, hmem 3 (by decide), a, _, rfl, has_of_le ha ha', .cons (has_of_le hb hb') (.cons (has_of_le hc hc') .nil)⟩
  | threeED b c hb hb' hc hc' =>
    exact ⟨_, hmem 4 (by decide), _, _, rfl, rfl, .cons (has_of_le hb hb') (.cons (has_of_le hc hc') .nil)⟩
  | threeEE a b c ha ha' hb hb' hc hc' =>
    exact ⟨_, hmem 5 (by decide), a, _, rfl, has_of_le ha ha', .cons (has_of_le hb hb') (.cons (has_of_le hc hc') .nil)⟩
  | fourF0 b c d hb hb' hc hc' hd hd' =>
    exact ⟨_, hmem 6 (by decide), _, _, rfl, rfl,
      .cons (has_of_le hb hb') (.cons (has_of_le hc hc') (.cons (has_of_le hd hd') .nil))⟩
  | fourF1 a b c d ha ha' hb hb' hc hc' hd hd' =>
    exact ⟨_, hmem 7 (by decide), a, _, rfl, has_of_le ha ha',
      .cons (has_of_le hb hb') (.cons (has_of_le hc hc') (.cons (has_of_le hd hd') .nil))⟩
  | fourF4 b c d hb hb' hc hc' hd hd' =>
    exact ⟨_, hmem 8 (by decide), _, _, rfl, rfl,
      .cons (has_of_le hb hb') (.cons (has_of_le hc hc') (.cons (has_of_le hd hd') .nil))⟩

end Rows

/-! ### The walk -/

section Walk
variable {pending : List ByteSpan} {s t : List Byte}

theorem utf8From_of_inSpans (h : InSpans pending s) : utf8From pending s = true := by
  induction h with
  | nil => rfl
  | cons hb _ ih => simp [hb, ih]

theorem utf8Valid_of_utf8Seq (h : Utf8Seq s) : utf8Valid s = true := by
  obtain ⟨row, hrow, b, bs, rfl, hb, hbs⟩ := exists_row_of_utf8Seq h
  exact (utf8From_first b bs).2 ⟨row, utf8RowOf_eq_some_iff.2 ⟨hrow, hb⟩, utf8From_of_inSpans hbs⟩

theorem utf8Valid_flatten {qs : List (List Byte)} (h : ∀ q ∈ qs, utf8Valid q = true) : utf8Valid qs.flatten = true := by
  induction qs with
  | nil => rfl
  | cons q qs ih =>
    obtain ⟨hq, hqs⟩ := List.forall_mem_cons.1 h
    exact utf8From_append hq (ih hqs)

/-- Text that the walk accepts is the rest of the sequence in progress, and whole sequences after it. -/
theorem exists_sequences_of_utf8From (h : utf8From pending s = true) :
    ∃ (bs : List Byte) (qs : List (List Byte)), InSpans pending bs ∧ (∀ q ∈ qs, Utf8Seq q) ∧ s = bs ++ qs.flatten := by
  induction s generalizing pending with
  | nil =>
    obtain rfl : pending = [] := by simpa using h
    exact ⟨[], [], .nil, by simp, rfl⟩
  | cons b s ih =>
    cases pending with
    | nil =>
      obtain ⟨row, hrow, hs⟩ := (utf8From_first b s).1 h
      obtain ⟨bs, qs, hbs, hqs, rfl⟩ := ih hs
      obtain ⟨hmem, hb⟩ := utf8RowOf_eq_some_iff.1 hrow
      exact ⟨[], (b :: bs) :: qs, .nil, List.forall_mem_cons.2 ⟨utf8Seq_of_row hmem hb hbs, hqs⟩, rfl⟩
    | cons r rs =>
      obtain ⟨hb, hs⟩ : r.has b = true ∧ utf8From rs s = true := by simpa using h
      obtain ⟨bs, qs, hbs, hqs, rfl⟩ := ih hs
      exact ⟨b :: bs, qs, .cons hb hbs, hqs, rfl⟩

end Walk

/-- Settles O37: the walk cuts the text into sequences, and each sequence takes the walk along its row. -/
theorem utf8ValidIsConcatenationOfSequences : Obligations.Utf8ValidIsConcatenationOfSequences := by
  intro s
  constructor
  · intro h
    obtain ⟨bs, qs, hbs, hqs, rfl⟩ := exists_sequences_of_utf8From h
    obtain rfl := List.forall₂_nil_left_iff.1 hbs
    exact ⟨qs, hqs, rfl⟩
  · rintro ⟨qs, hqs, rfl⟩
    exact utf8Valid_flatten fun q hq => utf8Valid_of_utf8Seq (hqs q hq)

end Sys2Proof.Machine
end

section
/-! PROOFS. The Chunk commands (42_chunk.md R182 to R186): the two that stage a chunk, and the three that output the staged one. -/

namespace Sys2Proof.Machine

/-! ### CHUNK_NEW and CHUNK_PARSE -/

section Stage
variable {s : State}

theorem exec_chunkNew (h : s.Legal s.srcAddr s.srcLen) (hcap : s.srcLen.toNat ≤ s.cfg.storeBytes) : exec .chunkNew s =
    .next (State.finished { s with stage := some (newChunk s.typeOperand (s.bytesAt s.srcAddr s.srcLen)) }) :=
  exec_of_ok (chunkNewRule_eq_ok.2 ⟨h, hcap, rfl⟩)

theorem exec_chunkNew_over_capacity (h : s.Legal s.srcAddr s.srcLen) (hcap : s.cfg.storeBytes < s.srcLen.toNat) :
    exec .chunkNew s = .next (s.failedWith 0x0D 1) := by
  have hlen : ¬ (s.rangeBytes .src).length ≤ s.cfg.storeBytes := by
    rw [rangeBytes_length]
    exact Nat.not_le_of_lt hcap
  have hrule : ruleOf .chunkNew s = .error (.capacityExceeded .bytes) :=
    bind_eq_error.2 <| .inr ⟨(), checkRange_eq_ok.2 h, bind_eq_error.2 <| .inl <| require_eq_error.2 ⟨hlen, rfl⟩⟩
  exact exec_of_error hrule

variable {p : Chunk × Nat}

theorem exec_chunkParse (h : s.Legal s.srcAddr s.srcLen) (hp : parseChunk (s.bytesAt s.srcAddr s.srcLen) = .ok p)
    (hcap : p.1.data.length ≤ s.cfg.storeBytes) :
    exec .chunkParse s = .next (State.finished { s with stage := some p.1, result := wordOfNat p.2 }) :=
  exec_of_ok (chunkParseRule_eq_ok.2 ⟨h, p, hp, hcap, rfl⟩)

theorem exec_chunkParse_of_error {e : CmdError} (h : s.Legal s.srcAddr s.srcLen)
    (he : parseChunk (s.bytesAt s.srcAddr s.srcLen) = .error e) : exec .chunkParse s = .next (s.failedWith e.code e.sub) := by
  have hrule : ruleOf .chunkParse s = .error e :=
    bind_eq_error.2 <| .inr ⟨(), checkRange_eq_ok.2 h, bind_eq_error.2 <| .inl he⟩
  exact exec_of_error hrule

theorem exec_chunkParse_over_capacity (h : s.Legal s.srcAddr s.srcLen)
    (hp : parseChunk (s.bytesAt s.srcAddr s.srcLen) = .ok p) (hcap : s.cfg.storeBytes < p.1.data.length) :
    exec .chunkParse s = .next (s.failedWith 0x0D 1) := by
  have hrule : ruleOf .chunkParse s = .error (.capacityExceeded .bytes) :=
    bind_eq_error.2 <| .inr ⟨(), checkRange_eq_ok.2 h, bind_eq_error.2 <| .inr ⟨p, hp, bind_eq_error.2 <| .inl <|
      require_eq_error.2 ⟨Nat.not_le_of_lt hcap, rfl⟩⟩⟩
  exact exec_of_error hrule

end Stage

/-- Settles O38: the range, then the capacity, then NewChunk of TYPE. -/
theorem chunkNewStagesAChunk : Obligations.ChunkNewStagesAChunk :=
  ⟨rfl, fun _ => ⟨exec_of_illegal_range (r := .src) rfl, exec_chunkNew_over_capacity,
    fun h hcap => ⟨_, exec_chunkNew h hcap, rfl, rfl, rfl⟩⟩⟩

/-- Settles O39: the range, then the parse, then the capacity; the bytes taken are those of the frame. -/
theorem chunkParseStagesTheFirstFrame : Obligations.ChunkParseStagesTheFirstFrame := by
  refine ⟨rfl, fun s => ⟨exec_of_illegal_range (r := .src) rfl, fun e => exec_chunkParse_of_error,
    fun c k h hp => exec_chunkParse_over_capacity h hp, fun c k h hp hcap => ?_⟩⟩
  obtain ⟨-, -, -, hk⟩ := parseChunk_eq_ok.1 hp
  obtain rfl : k = 12 + c.data.length := hk
  exact exec_chunkParse h hp hcap

/-! ### The commands that output the staged chunk -/

/-- The common form of the rules of CHUNK_SERIALIZE, CHUNK_DATA and CHUNK_TO_STRING: what is checked of the staged chunk after DST,
and the bytes of it that are output. -/
def stagedOutputRule (check : Chunk → Except CmdError Unit) (bytes : Chunk → List Byte) (w : State) :
    Except CmdError State := do
  let c ← w.stageOperand
  checkRange w .dst
  check c
  output (bytes c) w

theorem ruleOf_chunkSerialize : ruleOf .chunkSerialize = stagedOutputRule (fun _ => .ok ()) chunkBytes := rfl

theorem ruleOf_chunkData : ruleOf .chunkData = stagedOutputRule (fun _ => .ok ()) Chunk.data := rfl

theorem ruleOf_chunkToString : ruleOf .chunkToString =
    stagedOutputRule (fun c => require (utf8Valid c.data = true) .invalidUtf8) Chunk.data := rfl

section Staged
variable {i : Instr} {s : State} {c : Chunk} {check : Chunk → Except CmdError Unit} {bytes : Chunk → List Byte}

/-- With a staged chunk the rule goes on to DST. -/
theorem stagedOutputRule_of_stage (hstage : s.stage = some c) : stagedOutputRule check bytes s =
    (checkRange s .dst >>= fun _ => check c >>= fun _ => output (bytes c) s) := by
  rw [stagedOutputRule, stageOperand_eq_ok.2 hstage, ok_bind]

/-- With a legal DST as well it goes on to the check. -/
theorem stagedOutputRule_of_legal (hstage : s.stage = some c) (h : s.Legal s.dstAddr s.dstCap) :
    stagedOutputRule check bytes s = (check c >>= fun _ => output (bytes c) s) := by
  have hdst : checkRange s .dst = .ok () := checkRange_eq_ok.2 h
  rw [stagedOutputRule_of_stage hstage, hdst, ok_bind]

variable (hrule : ruleOf i = stagedOutputRule check bytes)
include hrule

theorem exec_of_no_stage (hstage : s.stage = none) : exec i s = .next (s.failedWith 0x0C 0) :=
  exec_of_error (e := .noChunk) <| by
    rw [hrule, stagedOutputRule, stageOperand_eq_error.2 ⟨hstage, rfl⟩, error_bind]

theorem exec_of_illegal_dst (hstage : s.stage = some c) (h : ¬ s.Legal s.dstAddr s.dstCap) :
    exec i s = .next (s.failedWith 0x09 3) :=
  exec_of_illegal_range (r := .dst) (by rw [hrule, stagedOutputRule_of_stage hstage]) h

theorem exec_of_failed_check {e : CmdError} (hstage : s.stage = some c) (h : s.Legal s.dstAddr s.dstCap)
    (hcheck : check c = .error e) : exec i s = .next (s.failedWith e.code e.sub) :=
  exec_of_error <| by rw [hrule, stagedOutputRule_of_legal hstage h, hcheck, error_bind]

theorem ruleOf_eq_output (hstage : s.stage = some c) (h : s.Legal s.dstAddr s.dstCap) (hcheck : check c = .ok ()) :
    ruleOf i s = (output (bytes c) s >>= .ok) := by
  rw [hrule, stagedOutputRule_of_legal hstage h, hcheck, ok_bind]
  cases output (bytes c) s <;> rfl

theorem exec_of_staged_overflow (hstage : s.stage = some c) (h : s.Legal s.dstAddr s.dstCap) (hcheck : check c = .ok ())
    (hcap : s.dstCap.toNat < (bytes c).length) : exec i s = .next (s.failedWith 0x0A 0) :=
  exec_of_output_overflow (ruleOf_eq_output hrule hstage h hcheck) hcap

theorem exec_of_staged_output (hstage : s.stage = some c) (h : s.Legal s.dstAddr s.dstCap) (hcheck : check c = .ok ())
    (hcap : (bytes c).length ≤ s.dstCap.toNat) :
    ∃ t, exec i s = .next t ∧ t = State.finished { s with buf := t.buf, dstLen := t.dstLen } ∧ s.Outputs t (bytes c) :=
  exec_of_output (f := id) (ruleOf_eq_output hrule hstage h hcheck) hcap (fun _ => rfl) (fun _ => rfl) (fun _ => rfl)

end Staged

/-- Settles O40: the bytes are those of the frame, 12 more than the data. -/
theorem chunkSerializeOutputsTheFrame : Obligations.ChunkSerializeOutputsTheFrame := by
  refine ⟨rfl, fun s => ⟨exec_of_no_stage ruleOf_chunkSerialize, fun c => exec_of_illegal_dst ruleOf_chunkSerialize,
    fun c hstage h hcap => ?_, fun c hstage h hcap => ?_⟩⟩
  · exact exec_of_staged_overflow ruleOf_chunkSerialize hstage h rfl (by rwa [chunkBytes_length])
  · exact exec_of_staged_output ruleOf_chunkSerialize hstage h rfl (by rwa [chunkBytes_length])

/-- Settles O41: the bytes are the data, and the text form checks them before it looks at their number. -/
theorem chunkDataAndTextOutputTheData : Obligations.ChunkDataAndTextOutputTheData := by
  refine ⟨rfl, rfl, fun s => ⟨fun hstage => ?_, fun c hstage h => ?_, fun c hstage h htext => ?_, fun c hstage h hcap => ?_,
    fun c hstage h hcap => ?_, fun c hstage h hcap htext => ?_⟩⟩
  · exact ⟨exec_of_no_stage ruleOf_chunkData hstage, exec_of_no_stage ruleOf_chunkToString hstage⟩
  · exact ⟨exec_of_illegal_dst ruleOf_chunkData hstage h, exec_of_illegal_dst ruleOf_chunkToString hstage h⟩
  · exact exec_of_failed_check ruleOf_chunkToString hstage h (require_of_not (ne_true_of_eq_false htext))
  · exact ⟨exec_of_staged_overflow ruleOf_chunkData hstage h rfl hcap,
      fun htext => exec_of_staged_overflow ruleOf_chunkToString hstage h (require_of htext) hcap⟩
  · exact exec_of_staged_output ruleOf_chunkData hstage h rfl hcap
  · exact exec_of_staged_output ruleOf_chunkToString hstage h (require_of htext) hcap

end Sys2Proof.Machine
end

section
/-! PROOFS. The stream of a container and its parse (43_png.md R200, R208, R210), and the lookup by type (R209). -/

namespace Sys2Proof.Machine

/-! ### ParsePng -/

section Stream
variable {cfg : Config} {cs : List Chunk} {rest : List Byte}

/-- A pass of the loop ends it with the error of its frame. -/
theorem parseFrames_of_parseChunk_error {f total : Nat} {e : CmdError} (hrest : rest ≠ []) (hf : rest.length ≤ f)
    (h : parseChunk rest = .error e) : parseFrames cfg f rest cs total = .error e := by
  cases f with
  | zero => exact absurd (List.eq_nil_of_length_eq_zero (Nat.le_zero.1 hf)) hrest
  | succ f => simp [parseFrames, hrest, h]

variable (hsound : ∀ c ∈ cs, c.Sound) (hcount : cs.length ≤ cfg.maxChunks) (hbytes : dataTotal cs ≤ cfg.storeBytes)
include hsound hcount hbytes

/-- After the stream of a container within the capacities ParsePng stands before the next frame with that container. -/
theorem parsePng_pngBytes_append (rest : List Byte) :
    parsePng cfg (pngBytes cs ++ rest) = parseFrames cfg (pngBytes cs ++ rest).length rest cs (dataTotal cs) := by
  have hstream : pngBytes cs ++ rest = sig ++ (cs.flatMap chunkBytes ++ rest) := List.append_assoc _ _ _
  rw [hstream, parsePng_sig, parseFrames_frames cfg cs hsound (by simp) [] 0 (by simpa) (by simpa)]
  simp

theorem parsePng_pngBytes : parsePng cfg (pngBytes cs) = .ok cs := by
  simpa using parsePng_pngBytes_append hsound hcount hbytes []

theorem parsePng_of_parseChunk_error {e : CmdError} (hrest : rest ≠ []) (h : parseChunk rest = .error e) :
    parsePng cfg (pngBytes cs ++ rest) = .error e := by
  rw [parsePng_pngBytes_append hsound hcount hbytes]
  exact parseFrames_of_parseChunk_error hrest (by simp) h

theorem parsePng_of_checkRoom_error {e : CmdError} {p : Chunk × Nat} (hp : parseChunk rest = .ok p)
    (h : checkRoom cfg cs.length (dataTotal cs) p.1.data.length = .error e) :
    parsePng cfg (pngBytes cs ++ rest) = .error e := by
  obtain ⟨tail, rfl, hc, -⟩ := parseChunk_eq_ok.1 hp
  rw [parsePng_pngBytes_append hsound hcount hbytes, parseFrames_frame cfg hc (by simp), h, error_bind]

end Stream

/-- Settles O45: a stream that parses is that of its chunks, and the loop passes over the frames of sound chunks. -/
theorem streamRoundTrip : Obligations.StreamRoundTrip := by
  refine ⟨fun cfg b cs h => ?_, fun cfg cs => parsePng_pngBytes⟩
  obtain ⟨hb, -⟩ := parsePng_ok h
  exact hb.symm

/-- Settles O44: the length, the signature, and then what the frame after the chunks that parsed gives. -/
theorem parsePngReportsTheFirstFailure : Obligations.ParsePngReportsTheFirstFailure := by
  refine ⟨fun cfg b h => if_pos h, fun cfg b h8 hsig => ?_, fun cfg cs rest hsound hcount hbytes =>
    ⟨fun hrest => ?_, fun e => parsePng_of_parseChunk_error hsound hcount hbytes, fun c k hp hfull => ?_,
      fun c k hp hroom hfull => ?_⟩, fun r => rfl, rfl, rfl, fun k => rfl, rfl, rfl⟩
  · rw [parsePng, if_neg (Nat.not_lt_of_le h8), if_pos hsig]
  · rw [hrest, List.append_nil, parsePng_pngBytes hsound hcount hbytes]
  · exact parsePng_of_checkRoom_error hsound hcount hbytes hp (checkRoom_eq_error.2 (.inl ⟨hfull, rfl⟩))
  · exact parsePng_of_checkRoom_error hsound hcount hbytes hp (checkRoom_eq_error.2 (.inr ⟨hroom, hfull, rfl⟩))

/-! ### The first chunk of a type -/

section Lookup
variable {l r : List Chunk} {c : Chunk} {t : ChunkType}

theorem firstOfType_append_cons (hc : c.ctype = t) (hl : ∀ d ∈ l, d.ctype ≠ t) :
    firstOfType (l ++ c :: r) t = some (l.length, c) :=
  firstOfType_eq_some.2 ⟨l, r, rfl, rfl, hc, hl⟩

end Lookup

/-- Settles O46: the chunks before index i are those of the part before the found one. -/
theorem firstIndexIsTheLeast : Obligations.FirstIndexIsTheLeast := by
  refine fun cs t => ⟨fun i c => ⟨fun h => ?_, fun ⟨hi, hc, hbefore⟩ => ?_⟩, firstOfType_eq_none⟩
  · obtain ⟨l, r, rfl, rfl, hc, hl⟩ := firstOfType_eq_some.1 h
    refine ⟨by simp, hc, fun j d hj hd => hl d ?_⟩
    rw [List.getElem?_append_left hj] at hd
    exact List.mem_of_getElem? hd
  · obtain ⟨hlt, rfl⟩ := List.getElem?_eq_some_iff.1 hi
    refine firstOfType_eq_some.2 ⟨cs.take i, cs.drop (i + 1), by simp, by simp; omega, hc, fun d hd => ?_⟩
    obtain ⟨j, hj, rfl⟩ := List.mem_take_iff_getElem.1 hd
    exact hbefore j _ (by omega) (List.getElem?_eq_getElem _)

end Sys2Proof.Machine
end

section
/-! PROOFS. The Png commands (43_png.md R201 to R207), and what the primitive commands leave of the container (R211, R212). -/

namespace Sys2Proof.Machine

/-! ### The type in TYPE -/

section TypeReg
variable {t : ChunkType} {s : State}

theorem toWord_eq_iff {v : Word} : t.toWord = v ↔ t = typeOfWord v :=
  ⟨fun h => by rw [← h, typeOfWord_toWord], fun h => by rw [h, toWord_typeOfWord]⟩

theorem bytes_eq_iff : t.bytes = u32be s.typeReg ↔ t = s.typeOperand := by
  obtain ⟨t0, t1, t2, t3⟩ := t
  simp [ChunkType.bytes, u32be, State.typeOperand, typeOfWord]

end TypeReg

/-! ### PNG_PARSE -/

section Parse
variable {s : State} (h : s.Legal s.srcAddr s.srcLen)
include h

theorem exec_pngParse {cs : List Chunk} (hcs : parsePng s.cfg (s.bytesAt s.srcAddr s.srcLen) = .ok cs) :
    exec .pngParse s = .next { s with png := some cs }.finished :=
  exec_of_ok (pngParseRule_eq_ok.2 ⟨h, cs, hcs, rfl⟩)

theorem exec_pngParse_of_error {e : CmdError} (he : parsePng s.cfg (s.bytesAt s.srcAddr s.srcLen) = .error e) :
    exec .pngParse s = .next (s.failedWith e.code e.sub) := by
  have hrule : ruleOf .pngParse s = .error e :=
    bind_eq_error.2 <| .inr ⟨(), checkRange_eq_ok.2 h, bind_eq_error.2 <| .inl he⟩
  exact exec_of_error hrule

end Parse

/-- Settles O47: the range, then the parse. -/
theorem pngParseLoadsTheContainer : Obligations.PngParseLoadsTheContainer :=
  ⟨rfl, fun _ => ⟨exec_of_illegal_range (r := .src) rfl, fun _ h => exec_pngParse_of_error h,
    fun _ h => exec_pngParse h⟩⟩

/-! ### The container as an operand -/

section Container
variable {i : Instr} {s : State} {f : List Chunk → Except CmdError State} (hrule : ruleOf i s = (s.pngOperand >>= f))
include hrule

/-- A command that needs the container first ends with NO_PNG without one. -/
theorem exec_of_no_png (hpng : s.png = none) : exec i s = .next (s.failedWith 0x0B 0) :=
  exec_of_error (e := .noPng) <| by rw [hrule, pngOperand_eq_error.2 ⟨hpng, rfl⟩, error_bind]

theorem ruleOf_of_png {cs : List Chunk} (hpng : s.png = some cs) : ruleOf i s = f cs := by
  rw [hrule, pngOperand_eq_ok.2 hpng, ok_bind]

end Container

/-! ### PNG_SERIALIZE and PNG_HEADER -/

section DstOutput
variable {i : Instr} {s : State} {out : List Byte} (hrule : ruleOf i s = (checkRange s .dst >>= fun _ => output out s))
include hrule

/-- With a legal DST a command that only checks DST and outputs is its output. -/
theorem ruleOf_eq_output_of_legal_dst (h : s.Legal s.dstAddr s.dstCap) : ruleOf i s = (output out s >>= .ok) := by
  have hdst : checkRange s .dst = .ok () := checkRange_eq_ok.2 h
  rw [hrule, hdst, ok_bind]
  cases output out s <;> rfl

theorem exec_of_dst_overflow (h : s.Legal s.dstAddr s.dstCap) (hcap : s.dstCap.toNat < out.length) :
    exec i s = .next (s.failedWith 0x0A 0) :=
  exec_of_output_overflow (ruleOf_eq_output_of_legal_dst hrule h) hcap

theorem exec_of_dst_output (h : s.Legal s.dstAddr s.dstCap) (hcap : out.length ≤ s.dstCap.toNat) :
    ∃ t, exec i s = .next t ∧ t = State.finished { s with buf := t.buf, dstLen := t.dstLen } ∧ s.Outputs t out :=
  exec_of_output (f := id) (ruleOf_eq_output_of_legal_dst hrule h) hcap (fun _ => rfl) (fun _ => rfl) (fun _ => rfl)

end DstOutput

theorem ruleOf_pngSerialize {s : State} {cs : List Chunk} (hpng : s.png = some cs) :
    ruleOf .pngSerialize s = (checkRange s .dst >>= fun _ => output (pngBytes cs) s) :=
  ruleOf_of_png (i := .pngSerialize) rfl hpng

/-- Settles O48: the container, then DST, then the number of bytes of the stream. -/
theorem pngSerializeOutputsTheStream : Obligations.PngSerializeOutputsTheStream := by
  refine ⟨rfl, fun s => ⟨exec_of_no_png rfl, fun cs hpng => exec_of_illegal_range (r := .dst) (ruleOf_pngSerialize hpng),
    fun cs hpng h hcap => ?_, fun cs hpng h hcap => ?_⟩⟩
  · exact exec_of_dst_overflow (ruleOf_pngSerialize hpng) h (by rwa [pngBytes_length])
  · exact exec_of_dst_output (out := pngBytes cs) (ruleOf_pngSerialize hpng) h (by rwa [pngBytes_length])

/-! ### PNG_APPEND -/

section Append
variable {s : State} {cs : List Chunk} {c : Chunk} (hpng : s.png = some cs)
include hpng

theorem exec_pngAppend_of_no_chunk (hstage : s.stage = none) : exec .pngAppend s = .next (s.failedWith 0x0C 0) := by
  have hrule : ruleOf .pngAppend s = .error .noChunk :=
    (ruleOf_of_png rfl hpng).trans <| bind_eq_error.2 <| .inl <| stageOperand_eq_error.2 ⟨hstage, rfl⟩
  exact exec_of_error hrule

variable (hstage : s.stage = some c)
include hstage

theorem exec_pngAppend_of_no_room {e : CmdError}
    (he : checkRoom s.cfg cs.length (dataTotal cs) c.data.length = .error e) :
    exec .pngAppend s = .next (s.failedWith e.code e.sub) := by
  have hrule : ruleOf .pngAppend s = .error e :=
    (ruleOf_of_png rfl hpng).trans <| bind_eq_error.2 <| .inr ⟨c, stageOperand_eq_ok.2 hstage, bind_eq_error.2 <| .inl he⟩
  exact exec_of_error hrule

theorem exec_pngAppend (hcount : cs.length + 1 ≤ s.cfg.maxChunks)
    (hbytes : dataTotal cs + c.data.length ≤ s.cfg.storeBytes) :
    exec .pngAppend s = .next { s with png := some (cs ++ [c]), stage := none }.finished :=
  exec_of_ok (pngAppendRule_eq_ok.2 ⟨cs, hpng, c, hstage, ⟨hcount, hbytes⟩, rfl⟩)

end Append

/-- Settles O49: the container, then STAGE, then the room for one more chunk. -/
theorem pngAppendMovesTheStagedChunkToTheEnd : Obligations.PngAppendMovesTheStagedChunkToTheEnd := by
  refine ⟨rfl, fun s => ⟨exec_of_no_png rfl, fun cs => exec_pngAppend_of_no_chunk, fun cs c hpng hstage =>
    ⟨fun hfull => ?_, fun hroom hfull => ?_, exec_pngAppend hpng hstage⟩⟩⟩
  · exact exec_pngAppend_of_no_room hpng hstage (checkRoom_eq_error.2 (.inl ⟨hfull, rfl⟩))
  · exact exec_pngAppend_of_no_room hpng hstage (checkRoom_eq_error.2 (.inr ⟨hroom, hfull, rfl⟩))

/-! ### PNG_REMOVE and PNG_FIND -/

section ByType
variable {s w : State}

/-- PNG_REMOVE takes the first chunk of TYPE from between the chunks before it and those after it. -/
theorem pngRemoveRule_eq_ok_append : pngRemoveRule s = .ok w ↔
    ∃ l c r, s.png = some (l ++ c :: r) ∧ c.ctype = s.typeOperand ∧ (∀ d ∈ l, d.ctype ≠ s.typeOperand) ∧
      w = { s with png := some (l ++ r), stage := some c } := by
  rw [pngRemoveRule_eq_ok]
  constructor
  · rintro ⟨cs, hpng, ⟨i, c⟩, hfirst, rfl⟩
    obtain ⟨l, r, rfl, rfl, hc, hl⟩ := firstOfType_eq_some.1 hfirst
    exact ⟨l, c, r, hpng, hc, hl, by rw [removeAt_append]⟩
  · rintro ⟨l, c, r, hpng, hc, hl, rfl⟩
    exact ⟨_, hpng, _, firstOfType_append_cons hc hl, by rw [removeAt_append]⟩

theorem exec_pngRemove_of_absent {cs : List Chunk} (hpng : s.png = some cs)
    (habsent : ∀ c ∈ cs, c.ctype ≠ s.typeOperand) : exec .pngRemove s = .next (s.failedWith 0x06 0) := by
  have hrule : ruleOf .pngRemove s = .error .chunkNotFound :=
    (ruleOf_of_png rfl hpng).trans <| bind_eq_error.2 <| .inl <|
      findOrFail_eq_error.2 ⟨firstOfType_eq_none.2 habsent, rfl⟩
  exact exec_of_error hrule

theorem exec_pngFind_of_absent {cs : List Chunk} (hpng : s.png = some cs)
    (habsent : ∀ c ∈ cs, c.ctype ≠ s.typeOperand) : exec .pngFind s = .next { s with result := 0 }.finished :=
  exec_of_ok (pngFindRule_eq_ok.2 ⟨cs, hpng, .inl ⟨firstOfType_eq_none.2 habsent, rfl⟩⟩)

variable {l r : List Chunk} {c : Chunk} (hpng : s.png = some (l ++ c :: r)) (hc : c.ctype = s.typeOperand)
  (hl : ∀ d ∈ l, d.ctype ≠ s.typeOperand)
include hpng hc hl

theorem exec_pngRemove : exec .pngRemove s = .next { s with png := some (l ++ r), stage := some c }.finished :=
  exec_of_ok (pngRemoveRule_eq_ok_append.2 ⟨l, c, r, hpng, hc, hl, rfl⟩)

theorem exec_pngFind : exec .pngFind s =
    .next { s with result := 1, index := wordOfNat l.length, stage := some c }.finished :=
  exec_of_ok (pngFindRule_eq_ok.2 ⟨_, hpng, .inr ⟨_, firstOfType_append_cons hc hl, rfl⟩⟩)

end ByType

/-- Settles O50: the 4 bytes of a type are those of TYPE exactly if it is the type operand. -/
theorem pngRemoveMovesTheFirstMatchToTheStage : Obligations.PngRemoveMovesTheFirstMatchToTheStage := by
  simp only [Obligations.PngRemoveMovesTheFirstMatchToTheStage, ne_eq, bytes_eq_iff]
  exact ⟨rfl, fun s => ⟨exec_of_no_png rfl, fun cs => exec_pngRemove_of_absent, fun l c r => exec_pngRemove⟩⟩

/-- Settles O51, with the types compared as in PNG_REMOVE. -/
theorem pngFindLooksUpTheFirstMatch : Obligations.PngFindLooksUpTheFirstMatch := by
  simp only [Obligations.PngFindLooksUpTheFirstMatch, ne_eq, bytes_eq_iff]
  exact ⟨rfl, fun s => ⟨exec_of_no_png rfl, fun cs => exec_pngFind_of_absent, fun l c r => exec_pngFind⟩⟩

/-! ### PNG_GET -/

section Get
variable {s : State}

theorem exec_pngGet_of_index_out_of_range {cs : List Chunk} (hpng : s.png = some cs) (hindex : cs.length ≤ s.index.toNat) :
    exec .pngGet s = .next (s.failedWith 0x0E 0) := by
  have hrule : ruleOf .pngGet s = .error .indexOutOfRange := by
    rw [ruleOf_of_png rfl hpng, List.getElem?_eq_none hindex]
  exact exec_of_error hrule

theorem exec_pngGet {l r : List Chunk} {c : Chunk} (hpng : s.png = some (l ++ c :: r)) (hindex : s.index.toNat = l.length) :
    exec .pngGet s = .next { s with stage := some c }.finished :=
  exec_of_ok (pngGetRule_eq_ok.2 ⟨_, hpng, c, by simp [hindex], rfl⟩)

end Get

/-- Settles O52: PNG_GET looks at the container and then at INDEX, PNG_HEADER at DST alone. -/
theorem pngGetAndHeader : Obligations.PngGetAndHeader :=
  ⟨rfl, rfl, fun _ => ⟨exec_of_no_png rfl, fun _ => exec_pngGet_of_index_out_of_range, fun _ _ _ => exec_pngGet,
    exec_of_illegal_range (r := .dst) rfl, exec_of_dst_overflow (out := sig) rfl, exec_of_dst_output (out := sig) rfl⟩⟩

/-! ### The order of the chunks that stay -/

section Order
variable {s w : State}

@[simp] theorem finished_chunks (w : State) : w.finished.chunks = w.chunks := rfl

theorem chunks_of_pngAppendRule (h : pngAppendRule s = .ok w) : ∃ c, s.stage = some c ∧ w.chunks = s.chunks ++ [c] := by
  obtain ⟨cs, hpng, c, hstage, -, rfl⟩ := pngAppendRule_eq_ok.1 h
  exact ⟨c, hstage, by simp [State.chunks, hpng]⟩

theorem chunks_of_pngRemoveRule (h : pngRemoveRule s = .ok w) : ∃ l c r, s.chunks = l ++ c :: r ∧ w.chunks = l ++ r ∧
    c.ctype.toWord = s.typeReg ∧ ∀ d ∈ l, d.ctype.toWord ≠ s.typeReg := by
  obtain ⟨l, c, r, hpng, hc, hl, rfl⟩ := pngRemoveRule_eq_ok_append.1 h
  exact ⟨l, c, r, by simp [State.chunks, hpng], rfl, toWord_eq_iff.2 hc, fun d hd => mt toWord_eq_iff.1 (hl d hd)⟩

/-- Without the first element of which `p` holds, the elements of which it holds are those after the first, and the others are
the same. -/
theorem filter_append_of_first {α : Type} {p : α → Prop} [DecidablePred p] {l r : List α} {a : α} (ha : p a)
    (hl : ∀ x ∈ l, ¬ p x) :
    (l ++ r).filter (fun x => p x) = ((l ++ a :: r).filter (fun x => p x)).tail ∧
    (l ++ r).filter (fun x => ¬ p x) = (l ++ a :: r).filter (fun x => ¬ p x) := by
  have hnil : l.filter (fun x => p x) = [] := by simpa using hl
  exact ⟨by simp [hnil, ha], by simp [ha]⟩

end Order

/-- Settles O53: the rules of the two commands, and for every other one the row of the table, which does not list PNG. -/
theorem primitivesKeepChunkOrder : Obligations.PrimitivesKeepChunkOrder := by
  intro i s t h herr
  obtain ⟨w, hw, rfl⟩ := exec_rule_of_no_error h herr
  rw [finished_chunks]
  refine ⟨?_, ?_, fun hi => ?_⟩
  · rintro rfl
    exact chunks_of_pngAppendRule hw
  · rintro rfl
    obtain ⟨l, c, r, hs, ht, hc, hl⟩ := chunks_of_pngRemoveRule hw
    obtain ⟨hof, hother⟩ := filter_append_of_first (r := r) hc hl
    rw [hs, ht]
    exact ⟨hof, hother, (List.sublist_cons_self c r).append_left l⟩
  · exact (congrArg State.png (rule_ok_row hw)).trans (if_neg hi)

end Sys2Proof.Machine
end

section
/-! PROOFS. The orchestration commands (44_orchestration.md R231 to R233): the common form of their rules, and
every outcome of each. -/

namespace Sys2Proof.Machine

/-! ### The common form of the three rules -/

/-- The common form of the rules of OP_ENCODE, OP_DECODE and OP_REMOVE: the ranges, the stream in SRC, the type string in ARG, and
then the command's own steps on the chunks and the type. -/
def streamRule (rs : List RangeName) (steps : List Chunk → ChunkType → Except CmdError State) (w : State) :
    Except CmdError State := do
  checkRanges w rs
  let cs ← parsePng w.cfg (w.rangeBytes .src)
  let t ← typeFromString (w.rangeBytes .arg)
  steps cs t

/-- The operands that all three commands take: legal SRC, ARG and DST, a stream in SRC and a type string in ARG. -/
structure State.StreamOperands (s : State) (cs : List Chunk) (t : ChunkType) : Prop where
  src : s.Legal s.srcAddr s.srcLen
  arg : s.Legal s.argAddr s.argLen
  dst : s.Legal s.dstAddr s.dstCap
  stream : parsePng s.cfg (s.bytesAt s.srcAddr s.srcLen) = .ok cs
  typeString : typeFromString (s.bytesAt s.argAddr s.argLen) = .ok t

/-- The state after an `Output(out)` whose bytes fit (20_memory.md R85). -/
def State.withOutput (s : State) (out : List Byte) : State :=
  { s with buf := Memory.writeBytes s.buf s.dstAddr.toNat out, dstLen := wordOfNat out.length }

section Common
variable {i : Instr} {s : State} {rs : List RangeName} {steps : List Chunk → ChunkType → Except CmdError State}
  {cs : List Chunk} {t : ChunkType} {e : CmdError} {out : List Byte}

theorem output_eq_ok_withOutput {w : State} : output out s = .ok w ↔ out.length ≤ s.dstCap.toNat ∧ w = s.withOutput out :=
  output_eq_ok

/-- What an output after register writes leaves is those writes, and BUF and DST_LEN. -/
theorem finished_withOutput (w : State) (out : List Byte) : (w.withOutput out).finished =
    State.finished { w with buf := (w.withOutput out).finished.buf, dstLen := (w.withOutput out).finished.dstLen } := rfl

/-- `w` is `s` after writes of registers that an output does not read. -/
theorem outputs_withOutput {w : State} (hcap : out.length ≤ s.dstCap.toNat) (hbuf : w.buf = s.buf)
    (hdst : w.dstAddr = s.dstAddr) (hcount : w.resetCount = s.resetCount) : s.Outputs (w.withOutput out).finished out :=
  outputs_of hcap (congrArg₂ (fun m a => Memory.writeBytes m (BitVec.toNat a) out) hbuf hdst) hcount rfl

theorem legal_src_arg_dst (hsrc : s.Legal s.srcAddr s.srcLen) (harg : s.Legal s.argAddr s.argLen)
    (hdst : s.Legal s.dstAddr s.dstCap) : ∀ r ∈ [RangeName.src, .arg, .dst], s.rangeLegal r := by
  simpa using ⟨hsrc, harg, hdst⟩

theorem legal_src_arg_msg_dst (hsrc : s.Legal s.srcAddr s.srcLen) (harg : s.Legal s.argAddr s.argLen)
    (hmsg : s.Legal s.msgAddr s.msgLen) (hdst : s.Legal s.dstAddr s.dstCap) :
    ∀ r ∈ [RangeName.src, .arg, .msg, .dst], s.rangeLegal r := by
  simpa using ⟨hsrc, harg, hmsg, hdst⟩

/-- The bytes of SRC are the stream of the chunks (43_png.md R210). -/
theorem State.StreamOperands.pngBytes_eq (h : s.StreamOperands cs t) : pngBytes cs = s.bytesAt s.srcAddr s.srcLen := by
  obtain ⟨hb, -⟩ := parsePng_ok h.stream
  exact hb.symm

theorem State.StreamOperands.stream_length (h : s.StreamOperands cs t) : (pngBytes cs).length = s.srcLen.toNat := by
  rw [h.pngBytes_eq, bytesAt_length]

section Errors
variable (hrule : ruleOf i s = streamRule rs steps s)
include hrule

/-- The first illegal range of the list is reported (20_memory.md R84). -/
theorem exec_of_first_illegal_range {r : RangeName} (l rest : List RangeName) (hrs : rs = l ++ r :: rest)
    (hl : ∀ q ∈ l, s.rangeLegal q) (hr : ¬ s.rangeLegal r) :
    exec i s = .next (s.failedWith 0x09 (CmdError.rangeError r).sub) :=
  exec_of_error (e := .rangeError r) <| hrule.trans <| bind_eq_error.2 <| .inl <|
    checkRanges_eq_error.2 ⟨l, r, rest, hrs, hl, hr, rfl⟩

variable (hlegal : ∀ r ∈ rs, s.rangeLegal r)
include hlegal

theorem ruleOf_of_legal : ruleOf i s =
    (parsePng s.cfg (s.bytesAt s.srcAddr s.srcLen) >>= fun cs =>
      typeFromString (s.bytesAt s.argAddr s.argLen) >>= fun t => steps cs t) := by
  have hok : checkRanges s rs = .ok () := checkRanges_eq_ok.2 hlegal
  rw [hrule, streamRule, hok, ok_bind]
  rfl

theorem exec_of_stream_error (he : parsePng s.cfg (s.bytesAt s.srcAddr s.srcLen) = .error e) :
    exec i s = .next (s.failedWith e.code e.sub) :=
  exec_of_error <| by rw [ruleOf_of_legal hrule hlegal, he, error_bind]

variable (hcs : parsePng s.cfg (s.bytesAt s.srcAddr s.srcLen) = .ok cs)
include hcs

theorem exec_of_type_error (he : typeFromString (s.bytesAt s.argAddr s.argLen) = .error e) :
    exec i s = .next (s.failedWith e.code e.sub) :=
  exec_of_error <| by rw [ruleOf_of_legal hrule hlegal, hcs, ok_bind, he, error_bind]

theorem ruleOf_of_stream_and_type (ht : typeFromString (s.bytesAt s.argAddr s.argLen) = .ok t) : ruleOf i s = steps cs t := by
  rw [ruleOf_of_legal hrule hlegal, hcs, ok_bind, ht, ok_bind]

end Errors

/-- The checks that OP_DECODE and OP_REMOVE begin with, in their order, and then what holds of their operands. -/
theorem exec_stream_checks {Q : List Chunk → ChunkType → Prop} (hrule : ruleOf i s = streamRule [.src, .arg, .dst] steps s)
    (hQ : ∀ cs t, s.StreamOperands cs t → Q cs t) :
    (¬ s.Legal s.srcAddr s.srcLen → exec i s = .next (s.failedWith 0x09 0)) ∧
    (s.Legal s.srcAddr s.srcLen → ¬ s.Legal s.argAddr s.argLen → exec i s = .next (s.failedWith 0x09 1)) ∧
    (s.Legal s.srcAddr s.srcLen → s.Legal s.argAddr s.argLen → ¬ s.Legal s.dstAddr s.dstCap →
      exec i s = .next (s.failedWith 0x09 3)) ∧
    (s.Legal s.srcAddr s.srcLen → s.Legal s.argAddr s.argLen → s.Legal s.dstAddr s.dstCap →
      (∀ e, parsePng s.cfg (s.bytesAt s.srcAddr s.srcLen) = .error e → exec i s = .next (s.failedWith e.code e.sub)) ∧
      ∀ cs, parsePng s.cfg (s.bytesAt s.srcAddr s.srcLen) = .ok cs →
        (∀ e, typeFromString (s.bytesAt s.argAddr s.argLen) = .error e → exec i s = .next (s.failedWith e.code e.sub)) ∧
        ∀ t, typeFromString (s.bytesAt s.argAddr s.argLen) = .ok t → Q cs t) := by
  refine ⟨?_, fun hsrc => ?_, fun hsrc harg => ?_, fun hsrc harg hdst => ?_⟩
  · exact exec_of_first_illegal_range (r := .src) hrule [] _ rfl (by simp)
  · exact exec_of_first_illegal_range (r := .arg) hrule [.src] _ rfl (List.forall_mem_singleton.2 hsrc)
  · exact exec_of_first_illegal_range (r := .dst) hrule [.src, .arg] _ rfl (by simpa using ⟨hsrc, harg⟩)
  · have hlegal := legal_src_arg_dst hsrc harg hdst
    exact ⟨fun e => exec_of_stream_error hrule hlegal, fun cs hcs =>
      ⟨fun e => exec_of_type_error hrule hlegal hcs, fun t ht => hQ cs t ⟨hsrc, harg, hdst, hcs, ht⟩⟩⟩

/-- A command whose rule outputs `out` and then sets registers by `f`, when `out` fits. -/
theorem exec_of_withOutput {f : State → State} (hrule : ruleOf i s = (output out s >>= fun w => .ok (f w)))
    (hcap : out.length ≤ s.dstCap.toNat) (hf : ∀ out, f (s.withOutput out) = (f s).withOutput out) :
    exec i s = .next ((f s).withOutput out).finished :=
  exec_of_ok <| by rw [hrule, output_eq_ok_withOutput.2 ⟨hcap, rfl⟩, ok_bind, hf]

end Common

/-! ### OP_ENCODE -/

section Encode
variable {s : State} {cs : List Chunk} {ty : ChunkType} {e : CmdError}

/-- The chunk that OP_ENCODE makes of the message. -/
def State.messageChunk (s : State) (ty : ChunkType) : Chunk := newChunk ty (s.bytesAt s.msgAddr s.msgLen)

/-- The room for the message: as for CHUNK_NEW and then as for PNG_APPEND (R231). -/
def State.messageRoom (s : State) (cs : List Chunk) : Except CmdError Unit := do
  require (s.msgLen.toNat ≤ s.cfg.storeBytes) (.capacityExceeded .bytes)
  checkRoom s.cfg cs.length (dataTotal cs) s.msgLen.toNat

/-- The registers and cells that OP_ENCODE writes (R231). -/
def State.encodeWrites (s : State) (cs : List Chunk) (ty : ChunkType) : State :=
  { s with png := some (cs ++ [s.messageChunk ty]), typeReg := ty.toWord, stage := none }

/-- What OP_ENCODE leaves (R231). -/
def State.encoded (s : State) (cs : List Chunk) (ty : ChunkType) : State :=
  ((s.encodeWrites cs ty).withOutput (pngBytes (cs ++ [s.messageChunk ty]))).finished

theorem messageRoom_eq_ok : s.messageRoom cs = .ok () ↔
    cs.length + 1 ≤ s.cfg.maxChunks ∧ dataTotal cs + s.msgLen.toNat ≤ s.cfg.storeBytes := by
  simp only [State.messageRoom, bind_eq_ok, require_eq_ok, checkRoom_eq_ok, exists_const]
  omega

theorem messageRoom_over_store (hfull : s.cfg.storeBytes < s.msgLen.toNat) :
    s.messageRoom cs = .error (.capacityExceeded .bytes) :=
  bind_eq_error.2 <| .inl <| require_of_not (Nat.not_le_of_lt hfull)

theorem messageRoom_of_store (hstore : s.msgLen.toNat ≤ s.cfg.storeBytes) :
    s.messageRoom cs = checkRoom s.cfg cs.length (dataTotal cs) s.msgLen.toNat := by
  rw [State.messageRoom, require_of hstore, ok_bind]

theorem messageRoom_over_count (hstore : s.msgLen.toNat ≤ s.cfg.storeBytes) (hfull : s.cfg.maxChunks < cs.length + 1) :
    s.messageRoom cs = .error (.capacityExceeded .chunks) := by
  rw [messageRoom_of_store hstore]
  exact checkRoom_eq_error.2 (.inl ⟨hfull, rfl⟩)

/-- The message alone may be over STORE_BYTES already, which gives the same error. -/
theorem messageRoom_over_bytes (hcount : cs.length + 1 ≤ s.cfg.maxChunks)
    (hfull : s.cfg.storeBytes < dataTotal cs + s.msgLen.toNat) : s.messageRoom cs = .error (.capacityExceeded .bytes) := by
  rcases Nat.lt_or_ge s.cfg.storeBytes s.msgLen.toNat with hover | hstore
  · exact messageRoom_over_store hover
  · rw [messageRoom_of_store hstore]
    exact checkRoom_eq_error.2 (.inr ⟨hcount, hfull, rfl⟩)

@[simp] theorem messageChunk_data_length (s : State) (ty : ChunkType) : (s.messageChunk ty).data.length = s.msgLen.toNat :=
  bytesAt_length s s.msgAddr s.msgLen

section WithOperands
variable (h : s.StreamOperands cs ty)
include h

/-- The new stream is the old one with the new frame after it. -/
theorem pngBytes_append_messageChunk : pngBytes (cs ++ [s.messageChunk ty]) =
    s.bytesAt s.srcAddr s.srcLen ++ chunkBytes (s.messageChunk ty) := by
  simp [pngBytes_append, h.pngBytes_eq]

theorem encoded_length : (pngBytes (cs ++ [s.messageChunk ty])).length = s.srcLen.toNat + 12 + s.msgLen.toNat := by
  rw [pngBytes_append_messageChunk h]
  simp [Nat.add_assoc]

theorem outputs_encoded (hcap : s.srcLen.toNat + 12 + s.msgLen.toNat ≤ s.dstCap.toNat) :
    s.Outputs (s.encoded cs ty) (pngBytes (cs ++ [s.messageChunk ty])) :=
  outputs_withOutput (by rwa [encoded_length h]) rfl rfl rfl

variable (hmsg : s.Legal s.msgAddr s.msgLen)
include hmsg

theorem ruleOf_opEncode : ruleOf .opEncode s = (s.messageRoom cs >>= fun _ =>
    output (pngBytes (cs ++ [s.messageChunk ty])) s >>= fun w =>
      .ok { w with png := some (cs ++ [s.messageChunk ty]), typeReg := ty.toWord, stage := none }) := by
  rw [ruleOf_of_stream_and_type (i := .opEncode) rfl (legal_src_arg_msg_dst h.src h.arg hmsg h.dst) h.stream h.typeString]
  simp only [rangeBytes_length, State.messageRoom, bind_assoc]
  rfl

theorem exec_opEncode_of_no_room (he : s.messageRoom cs = .error e) :
    exec .opEncode s = .next (s.failedWith e.code e.sub) :=
  exec_of_error <| by rw [ruleOf_opEncode h hmsg, he, error_bind]

variable (hroom : s.messageRoom cs = .ok ())
include hroom

theorem ruleOf_opEncode_of_room : ruleOf .opEncode s = (output (pngBytes (cs ++ [s.messageChunk ty])) s >>= fun w =>
      .ok { w with png := some (cs ++ [s.messageChunk ty]), typeReg := ty.toWord, stage := none }) := by
  rw [ruleOf_opEncode h hmsg, hroom, ok_bind]

theorem exec_opEncode_overflow (hcap : s.dstCap.toNat < s.srcLen.toNat + 12 + s.msgLen.toNat) :
    exec .opEncode s = .next (s.failedWith 0x0A 0) :=
  exec_of_output_overflow (ruleOf_opEncode_of_room h hmsg hroom) (by rwa [encoded_length h])

theorem exec_opEncode (hcap : s.srcLen.toNat + 12 + s.msgLen.toNat ≤ s.dstCap.toNat) :
    exec .opEncode s = .next (s.encoded cs ty) :=
  exec_of_withOutput (ruleOf_opEncode_of_room h hmsg hroom) (by rwa [encoded_length h]) fun _ => rfl

end WithOperands
end Encode

/-- Settles O54: the ranges, the stream, the type string, the room, and then the number of bytes of the longer stream. -/
theorem opEncodeAppendsTheMessage : Obligations.OpEncodeAppendsTheMessage := by
  refine ⟨rfl, fun s => ⟨exec_of_first_illegal_range (r := .src) rfl [] _ rfl (by simp), fun hsrc => ?_,
    fun hsrc harg => ?_, fun hsrc harg hmsg => ?_, fun hsrc harg hmsg hdst => ?_⟩⟩
  · exact exec_of_first_illegal_range (r := .arg) rfl [.src] _ rfl (List.forall_mem_singleton.2 hsrc)
  · exact exec_of_first_illegal_range (r := .msg) rfl [.src, .arg] _ rfl (by simpa using ⟨hsrc, harg⟩)
  · exact exec_of_first_illegal_range (r := .dst) rfl [.src, .arg, .msg] _ rfl (by simpa using ⟨hsrc, harg, hmsg⟩)
  have hlegal := legal_src_arg_msg_dst hsrc harg hmsg hdst
  refine ⟨fun e => exec_of_stream_error rfl hlegal, fun cs hcs =>
    ⟨fun e => exec_of_type_error rfl hlegal hcs, fun ty hty => ?_⟩⟩
  have h : s.StreamOperands cs ty := ⟨hsrc, harg, hdst, hcs, hty⟩
  refine ⟨fun hfull => ?_, fun hstore hfull => ?_, fun hcount hfull => ?_, fun hcount hbytes hcap => ?_,
    fun hcount hbytes hcap => ?_⟩
  · exact exec_opEncode_of_no_room h hmsg (messageRoom_over_store hfull)
  · exact exec_opEncode_of_no_room h hmsg (messageRoom_over_count hstore hfull)
  · exact exec_opEncode_of_no_room h hmsg (messageRoom_over_bytes hcount hfull)
  · exact exec_opEncode_overflow h hmsg (messageRoom_eq_ok.2 ⟨hcount, hbytes⟩) hcap
  · exact ⟨_, exec_opEncode h hmsg (messageRoom_eq_ok.2 ⟨hcount, hbytes⟩) hcap, finished_withOutput _ _,
      pngBytes_append_messageChunk h ▸ outputs_encoded h hcap⟩

/-! ### OP_DECODE -/

section Decode
variable {s : State} {cs : List Chunk} {ty : ChunkType} {i : Nat} {c : Chunk}

/-- The registers and cells that OP_DECODE writes with no chunk of the type (R232). -/
def State.absentWrites (s : State) (cs : List Chunk) (ty : ChunkType) : State :=
  { s with result := 0, png := some cs, typeReg := ty.toWord }

/-- The registers and cells that OP_DECODE writes with `c` the first chunk of the type, at index `i` (R232). -/
def State.textWrites (s : State) (cs : List Chunk) (ty : ChunkType) (i : Nat) (c : Chunk) : State :=
  { s with result := 1, index := wordOfNat i, stage := some c, png := some cs, typeReg := ty.toWord }

/-- What OP_DECODE leaves with no chunk of the type (R232). -/
def State.decodedAbsent (s : State) (cs : List Chunk) (ty : ChunkType) : State :=
  ((s.absentWrites cs ty).withOutput sentinel).finished

/-- What OP_DECODE leaves with `c` the first chunk of the type, at index `i` (R232). -/
def State.decodedText (s : State) (cs : List Chunk) (ty : ChunkType) (i : Nat) (c : Chunk) : State :=
  ((s.textWrites cs ty i c).withOutput c.data).finished

theorem outputs_decodedAbsent (hcap : 23 ≤ s.dstCap.toNat) : s.Outputs (s.decodedAbsent cs ty) sentinel :=
  outputs_withOutput (by rwa [sentinel_length]) rfl rfl rfl

theorem outputs_decodedText (hcap : c.data.length ≤ s.dstCap.toNat) : s.Outputs (s.decodedText cs ty i c) c.data :=
  outputs_withOutput hcap rfl rfl rfl

variable (h : s.StreamOperands cs ty)
include h

theorem ruleOf_opDecode : ruleOf .opDecode s =
    match firstOfType cs ty with
    | none => output sentinel s >>= fun w => .ok { w with result := 0, png := some cs, typeReg := ty.toWord }
    | some p => require (utf8Valid p.2.data = true) .invalidUtf8 >>= fun _ => output p.2.data s >>= fun w => .ok { w with
        result := 1, index := wordOfNat p.1, stage := some p.2, png := some cs, typeReg := ty.toWord } :=
  ruleOf_of_stream_and_type (i := .opDecode) rfl (legal_src_arg_dst h.src h.arg h.dst) h.stream h.typeString

section Absent
variable (habsent : ∀ c ∈ cs, c.ctype ≠ ty)
include habsent

theorem ruleOf_opDecode_of_absent : ruleOf .opDecode s =
    (output sentinel s >>= fun w => .ok { w with result := 0, png := some cs, typeReg := ty.toWord }) := by
  rw [ruleOf_opDecode h, firstOfType_eq_none.2 habsent]

theorem exec_opDecode_of_absent_overflow (hcap : s.dstCap.toNat < 23) : exec .opDecode s = .next (s.failedWith 0x0A 0) :=
  exec_of_output_overflow (ruleOf_opDecode_of_absent h habsent) hcap

theorem exec_opDecode_of_absent (hcap : 23 ≤ s.dstCap.toNat) :
    exec .opDecode s = .next (s.decodedAbsent cs ty) :=
  exec_of_withOutput (ruleOf_opDecode_of_absent h habsent) (by rwa [sentinel_length]) fun _ => rfl

end Absent

section Found
variable (hfirst : firstOfType cs ty = some (i, c))
include hfirst

theorem exec_opDecode_of_not_text (htext : utf8Valid c.data = false) : exec .opDecode s = .next (s.failedWith 0x05 0) := by
  have hrule : ruleOf .opDecode s = .error .invalidUtf8 := by
    rw [ruleOf_opDecode h, hfirst]
    exact bind_eq_error.2 <| .inl <| require_of_not (ne_true_of_eq_false htext)
  exact exec_of_error hrule

variable (htext : utf8Valid c.data = true)
include htext

theorem ruleOf_opDecode_of_text : ruleOf .opDecode s = (output c.data s >>= fun w => .ok { w with
    result := 1, index := wordOfNat i, stage := some c, png := some cs, typeReg := ty.toWord }) := by
  rw [ruleOf_opDecode h, hfirst]
  simp only [require_of htext, ok_bind]

theorem exec_opDecode_of_text_overflow (hcap : s.dstCap.toNat < c.data.length) :
    exec .opDecode s = .next (s.failedWith 0x0A 0) :=
  exec_of_output_overflow (ruleOf_opDecode_of_text h hfirst htext) hcap

theorem exec_opDecode (hcap : c.data.length ≤ s.dstCap.toNat) :
    exec .opDecode s = .next (s.decodedText cs ty i c) :=
  exec_of_withOutput (ruleOf_opDecode_of_text h hfirst htext) hcap fun _ => rfl

end Found
end Decode

/-- Settles O55: the ranges, the stream, the type string, and then the text of the first chunk of the type, or SENTINEL. -/
theorem opDecodeRecoversTheTextOrTheSentinel : Obligations.OpDecodeRecoversTheTextOrTheSentinel := by
  refine ⟨rfl, fun s => exec_stream_checks rfl fun cs ty h => ?_⟩
  refine ⟨exec_opDecode_of_absent_overflow h, fun habsent hcap => ?_, ?_⟩
  · exact ⟨_, exec_opDecode_of_absent h habsent hcap, finished_withOutput _ _, sentinel_eq ▸ outputs_decodedAbsent hcap⟩
  · rintro l c r rfl hc hl
    have hfirst := firstOfType_append_cons (r := r) hc hl
    exact ⟨exec_opDecode_of_not_text h hfirst, exec_opDecode_of_text_overflow h hfirst, fun htext hcap =>
      ⟨_, exec_opDecode h hfirst htext hcap, finished_withOutput _ _, outputs_decodedText hcap⟩⟩

/-! ### OP_REMOVE -/

section Remove
variable {s : State} {l r : List Chunk} {ty : ChunkType} {c : Chunk}

/-- The registers and cells that OP_REMOVE writes when `c` stood between `l` and `r` (R233). -/
def State.removeWrites (s : State) (l : List Chunk) (c : Chunk) (r : List Chunk) (ty : ChunkType) : State :=
  { s with png := some (l ++ r), typeReg := ty.toWord, stage := some c }

/-- What OP_REMOVE leaves when `c` stood between `l` and `r` (R233). -/
def State.removed (s : State) (l : List Chunk) (c : Chunk) (r : List Chunk) (ty : ChunkType) : State :=
  ((s.removeWrites l c r ty).withOutput (pngBytes (l ++ r))).finished

theorem outputs_removed (hcap : (pngBytes (l ++ r)).length ≤ s.dstCap.toNat) :
    s.Outputs (s.removed l c r ty) (pngBytes (l ++ r)) :=
  outputs_withOutput hcap rfl rfl rfl

theorem exec_opRemove_of_absent {cs : List Chunk} (h : s.StreamOperands cs ty) (habsent : ∀ c ∈ cs, c.ctype ≠ ty) :
    exec .opRemove s = .next (s.failedWith 0x06 0) := by
  have hrule : ruleOf .opRemove s = .error .chunkNotFound :=
    (ruleOf_of_stream_and_type rfl (legal_src_arg_dst h.src h.arg h.dst) h.stream h.typeString).trans <|
      bind_eq_error.2 <| .inl <| findOrFail_eq_error.2 ⟨firstOfType_eq_none.2 habsent, rfl⟩
  exact exec_of_error hrule

variable (h : s.StreamOperands (l ++ c :: r) ty)
include h

/-- The output is shorter than the input by the frame of the removed chunk. -/
theorem removed_length : (pngBytes (l ++ r)).length + 12 + c.data.length = s.srcLen.toNat := by
  rw [← h.stream_length, pngBytes_length, pngBytes_length]
  simp only [List.length_append, List.length_cons, dataTotal_append, dataTotal_cons]
  omega

variable (hc : c.ctype = ty) (hl : ∀ d ∈ l, d.ctype ≠ ty)
include hc hl

theorem ruleOf_opRemove : ruleOf .opRemove s = (output (pngBytes (l ++ r)) s >>= fun w =>
    .ok { w with png := some (l ++ r), typeReg := ty.toWord, stage := some c }) := by
  rw [ruleOf_of_stream_and_type (i := .opRemove) rfl (legal_src_arg_dst h.src h.arg h.dst) h.stream h.typeString,
    findOrFail_eq_ok.2 (firstOfType_append_cons hc hl), ok_bind, removeAt_append]

theorem exec_opRemove_overflow (hcap : s.dstCap.toNat + 12 + c.data.length < s.srcLen.toNat) :
    exec .opRemove s = .next (s.failedWith 0x0A 0) := by
  rw [← removed_length h] at hcap
  exact exec_of_output_overflow (ruleOf_opRemove h hc hl) (by omega)

theorem exec_opRemove (hcap : (pngBytes (l ++ r)).length ≤ s.dstCap.toNat) :
    exec .opRemove s = .next (s.removed l c r ty) :=
  exec_of_withOutput (ruleOf_opRemove h hc hl) hcap fun _ => rfl

end Remove

/-- Settles O56: the ranges, the stream, the type string, the first chunk of the type, and then the number of bytes that stay. -/
theorem opRemoveTakesOutTheFirstMatch : Obligations.OpRemoveTakesOutTheFirstMatch := by
  refine ⟨rfl, fun s => exec_stream_checks rfl fun cs ty h => ?_⟩
  refine ⟨exec_opRemove_of_absent h, ?_⟩
  rintro l c r rfl hc hl
  refine ⟨exec_opRemove_overflow h hc hl, fun hcap => ?_⟩
  have hlen := removed_length h
  have hout := outputs_removed (s := s) (l := l) (c := c) (r := r) (ty := ty) (by omega)
  have hdstLen : (s.removed l c r ty).dstLen.toNat = (pngBytes (l ++ r)).length := by
    obtain ⟨hdstLen, -, -⟩ := hout
    exact hdstLen
  exact ⟨_, exec_opRemove h hc hl (by omega), finished_withOutput _ _, by rwa [hdstLen], hout⟩

end Sys2Proof.Machine
end

section
/-! PROOFS. The orchestration commands leave what their primitive commands leave (44_orchestration.md R230). -/

namespace Sys2Proof.Machine

/-! ### What a command without an error has done -/

section Success
variable {s t : State}

theorem next_unique {i : Instr} {t' : State} (h : exec i s = .next t) (h' : exec i s = .next t') : t = t' :=
  Host.Outcome.next.inj (h.symm.trans h')

/-- OP_ENCODE without an error found its operands, room for the message and room for the output. -/
theorem opEncode_of_no_error (h : exec .opEncode s = .next t) (herr : t.status.err = false) : ∃ cs ty,
    s.StreamOperands cs ty ∧ s.Legal s.msgAddr s.msgLen ∧ s.messageRoom cs = .ok () ∧
    s.srcLen.toNat + 12 + s.msgLen.toNat ≤ s.dstCap.toNat ∧ t = s.encoded cs ty := by
  obtain ⟨w, hw, -⟩ := exec_rule_of_no_error h herr
  obtain ⟨⟨hsrc, harg, hmsg, hdst⟩, cs, hcs, ty, hty, ⟨-, hroom⟩, w2, hout, -⟩ := opEncodeRule_eq_ok.1 hw
  obtain ⟨hcap, -⟩ := output_eq_ok.1 hout
  have hops : s.StreamOperands cs ty := ⟨hsrc, harg, hdst, hcs, hty⟩
  replace hroom := messageRoom_eq_ok.2 hroom
  replace hcap := encoded_length hops ▸ hcap
  exact ⟨cs, ty, hops, hmsg, hroom, hcap, next_unique h (exec_opEncode hops hmsg hroom hcap)⟩

/-- OP_DECODE without an error found its operands and wrote SENTINEL, or the text of the first chunk of the type. -/
theorem opDecode_of_no_error (h : exec .opDecode s = .next t) (herr : t.status.err = false) : ∃ cs ty,
    s.StreamOperands cs ty ∧
    (((∀ c ∈ cs, c.ctype ≠ ty) ∧ t = s.decodedAbsent cs ty) ∨
      ∃ l c r, cs = l ++ c :: r ∧ c.ctype = ty ∧ (∀ d ∈ l, d.ctype ≠ ty) ∧ utf8Valid c.data = true ∧
        c.data.length ≤ s.dstCap.toNat ∧ t = s.decodedText cs ty l.length c) := by
  obtain ⟨w, hw, -⟩ := exec_rule_of_no_error h herr
  obtain ⟨⟨hsrc, harg, hdst⟩, cs, hcs, ty, hty, hfound⟩ := opDecodeRule_eq_ok.1 hw
  have hops : s.StreamOperands cs ty := ⟨hsrc, harg, hdst, hcs, hty⟩
  refine ⟨cs, ty, hops, ?_⟩
  obtain ⟨hfirst, w2, hout, -⟩ | ⟨⟨i, c⟩, hfirst, htext, w2, hout, -⟩ := hfound
  · have habsent := firstOfType_eq_none.1 hfirst
    obtain ⟨hcap, -⟩ := output_eq_ok.1 hout
    exact .inl ⟨habsent, next_unique h (exec_opDecode_of_absent hops habsent (by rwa [← sentinel_length]))⟩
  · obtain ⟨hcap, -⟩ := output_eq_ok.1 hout
    obtain ⟨l, r, hlist, rfl, hc, hl⟩ := firstOfType_eq_some.1 hfirst
    exact .inr ⟨l, c, r, hlist, hc, hl, htext, hcap, next_unique h (exec_opDecode hops hfirst htext hcap)⟩

/-- OP_REMOVE without an error found its operands and a chunk of the type. -/
theorem opRemove_of_no_error (h : exec .opRemove s = .next t) (herr : t.status.err = false) : ∃ l c r ty,
    s.StreamOperands (l ++ c :: r) ty ∧ c.ctype = ty ∧ (∀ d ∈ l, d.ctype ≠ ty) ∧
    (pngBytes (l ++ r)).length ≤ s.dstCap.toNat ∧ t = s.removed l c r ty := by
  obtain ⟨w, hw, -⟩ := exec_rule_of_no_error h herr
  obtain ⟨⟨hsrc, harg, hdst⟩, cs, hcs, ty, hty, ⟨i, c⟩, hfirst, w2, hout, -⟩ := opRemoveRule_eq_ok.1 hw
  obtain ⟨l, r, rfl, rfl, hc, hl⟩ := firstOfType_eq_some.1 hfirst
  have hops : s.StreamOperands (l ++ c :: r) ty := ⟨hsrc, harg, hdst, hcs, hty⟩
  obtain ⟨hcap, -⟩ := output_eq_ok.1 hout
  rw [removeAt_append] at hcap
  exact ⟨l, c, r, ty, hops, hc, hl, hcap, next_unique h (exec_opRemove hops hc hl hcap)⟩

end Success

/-! ### The primitive commands -/

section Primitives
variable {s : State} {cs : List Chunk} {ty : ChunkType} {c : Chunk}

theorem exec_pngSerialize (hpng : s.png = some cs) (hdst : s.Legal s.dstAddr s.dstCap)
    (hcap : (pngBytes cs).length ≤ s.dstCap.toNat) :
    exec .pngSerialize s = .next (s.withOutput (pngBytes cs)).finished :=
  exec_of_withOutput (f := id) (ruleOf_eq_output_of_legal_dst (ruleOf_pngSerialize hpng) hdst) hcap fun _ => rfl

theorem exec_chunkToString (hstage : s.stage = some c) (hdst : s.Legal s.dstAddr s.dstCap)
    (htext : utf8Valid c.data = true) (hcap : c.data.length ≤ s.dstCap.toNat) :
    exec .chunkToString s = .next (s.withOutput c.data).finished :=
  exec_of_withOutput (f := id) (ruleOf_eq_output ruleOf_chunkToString hstage hdst (require_of htext)) hcap fun _ => rfl

/-- The state after PNG_PARSE of `cs`, with SRC then written to point at ARG. -/
def State.parsed (s : State) (cs : List Chunk) : State :=
  State.withSrc { s with png := some cs }.finished s.argAddr s.argLen

/-- The state after PNG_PARSE and TYPE_FROM_STRING, which every primitive sequence begins with. -/
def State.loaded (s : State) (cs : List Chunk) (ty : ChunkType) : State :=
  State.finished { s.parsed cs with typeReg := ty.toWord }

/-- The state after the two and CHUNK_NEW of the message. -/
def State.messageStaged (s : State) (cs : List Chunk) (ty : ChunkType) : State :=
  State.finished { (s.loaded cs ty).withSrc s.msgAddr s.msgLen with stage := some (s.messageChunk ty) }

@[simp] theorem typeOperand_loaded (s : State) (cs : List Chunk) (ty : ChunkType) : (s.loaded cs ty).typeOperand = ty :=
  typeOfWord_toWord ty

@[simp] theorem bytesAt_parsed (s : State) (cs : List Chunk) (a n : Word) : (s.parsed cs).bytesAt a n = s.bytesAt a n :=
  bytesAt_congr (s := s) (t := s.parsed cs) rfl rfl a n

@[simp] theorem bytesAt_loaded_withSrc (s : State) (cs : List Chunk) (ty : ChunkType) (b k a n : Word) :
    ((s.loaded cs ty).withSrc b k).bytesAt a n = s.bytesAt a n :=
  bytesAt_congr (s := s) (t := (s.loaded cs ty).withSrc b k) rfl rfl a n

theorem exec_typeFromString_parsed (h : s.StreamOperands cs ty) : exec .typeFromString (s.parsed cs) = .next (s.loaded cs ty) :=
  exec_typeFromString h.arg ((congrArg typeFromString (bytesAt_parsed s cs s.argAddr s.argLen)).trans h.typeString)

theorem exec_chunkNew_message (hmsg : s.Legal s.msgAddr s.msgLen) (hstore : s.msgLen.toNat ≤ s.cfg.storeBytes) :
    exec .chunkNew ((s.loaded cs ty).withSrc s.msgAddr s.msgLen) = .next (s.messageStaged cs ty) := by
  have hnew : newChunk ((s.loaded cs ty).withSrc s.msgAddr s.msgLen).typeOperand
      (((s.loaded cs ty).withSrc s.msgAddr s.msgLen).bytesAt s.msgAddr s.msgLen) = s.messageChunk ty :=
    congrArg₂ newChunk (typeOperand_loaded s cs ty) (bytesAt_loaded_withSrc ..)
  rw [State.messageStaged, ← hnew]
  exact exec_chunkNew (s := (s.loaded cs ty).withSrc s.msgAddr s.msgLen) hmsg hstore

end Primitives

section Comparison
variable {t u : State} {a n : Word} {out : List Byte}

/-- The primitives end in the state that the command's own writes give, but for SRC, which the host has written. -/
theorem same_but_output (hu : u = t.finished.withSrc a n) :
    u.status.err = false ∧ u.png = (t.withOutput out).finished.png ∧ u.typeReg = (t.withOutput out).finished.typeReg ∧
    u.stage = (t.withOutput out).finished.stage ∧ u.index = (t.withOutput out).finished.index ∧
    u.result = (t.withOutput out).finished.result := by
  subst hu
  exact ⟨rfl, rfl, rfl, rfl, rfl, rfl⟩

/-- An output of the same bytes keeps this so. -/
theorem same_after_output (hu : u = t.finished.withSrc a n) :
    (u.withOutput out).finished = (t.withOutput out).finished.withSrc a n := by
  subst hu
  rfl

theorem same_but_src (hu : u = t.withSrc a n) (herr : t.status.err = false) :
    u.status.err = false ∧ u.png = t.png ∧ u.typeReg = t.typeReg ∧ u.stage = t.stage ∧ u.index = t.index ∧
    u.result = t.result ∧ u.dstLen = t.dstLen ∧ ∀ x, u.byteAt x = t.byteAt x := by
  subst hu
  exact ⟨herr, rfl, rfl, rfl, rfl, rfl, rfl, fun _ => rfl⟩

end Comparison

/-- Settles O57, command by command: the primitives run on the operands that the orchestration command found. -/
theorem orchestrationEqualsItsPrimitives : Obligations.OrchestrationEqualsItsPrimitives := by
  refine ⟨fun s t h herr => ?_, fun s t h herr hresult => ?_, fun s t h herr hresult => ?_, fun s t h herr => ?_⟩
  · obtain ⟨cs, ty, hops, hmsg, hroom, hcap, rfl⟩ := opEncode_of_no_error h herr
    obtain ⟨hcount, hbytes⟩ := messageRoom_eq_ok.1 hroom
    have hstore : s.msgLen.toNat ≤ s.cfg.storeBytes := by omega
    rw [← messageChunk_data_length s ty] at hbytes
    rw [← encoded_length hops] at hcap
    have happend := exec_pngAppend (s := s.messageStaged cs ty) rfl rfl hcount hbytes
    exact ⟨_, _, _, _, _, exec_pngParse hops.src hops.stream, exec_typeFromString_parsed hops,
      exec_chunkNew_message hmsg hstore, happend, exec_pngSerialize rfl hops.dst hcap, same_but_src (same_after_output rfl) herr⟩
  · obtain ⟨cs, ty, hops, ⟨-, rfl⟩ | ⟨l, c, r, rfl, hc, hl, htext, hcap, rfl⟩⟩ := opDecode_of_no_error h herr
    · exact absurd hresult (by decide : (0 : Word) ≠ 1)
    · rw [← typeOperand_loaded s (l ++ c :: r) ty] at hc hl
      exact ⟨_, _, _, _, exec_pngParse hops.src hops.stream, exec_typeFromString_parsed hops, exec_pngFind rfl hc hl,
        exec_chunkToString rfl hops.dst htext hcap, same_but_src (same_after_output rfl) herr⟩
  · obtain ⟨cs, ty, hops, ⟨habsent, rfl⟩ | ⟨l, c, r, -, -, -, -, -, rfl⟩⟩ := opDecode_of_no_error h herr
    · rw [← typeOperand_loaded s cs ty] at habsent
      exact ⟨_, _, _, exec_pngParse hops.src hops.stream, exec_typeFromString_parsed hops, exec_pngFind_of_absent rfl habsent,
        same_but_output rfl⟩
    · exact absurd hresult (by decide : (1 : Word) ≠ 0)
  · obtain ⟨l, c, r, ty, hops, hc, hl, hcap, rfl⟩ := opRemove_of_no_error h herr
    rw [← typeOperand_loaded s (l ++ c :: r) ty] at hc hl
    exact ⟨_, _, _, _, exec_pngParse hops.src hops.stream, exec_typeFromString_parsed hops, exec_pngRemove rfl hc hl,
      exec_pngSerialize rfl hops.dst hcap, same_but_src (same_after_output rfl) herr⟩

end Sys2Proof.Machine
end

section
/-! PROOFS. Encode, then decode or remove (44_orchestration.md R235, R236), and decoding an absent type twice (R237). -/

namespace Sys2Proof.Machine

section Operands
variable {s t : State} {cs ds : List Chunk} {ty : ChunkType} {out : List Byte} {a n da dc : Word}

/-- SRC and ARG fix the chunks and the type. -/
theorem State.StreamOperands.unique {cs' : List Chunk} {ty' : ChunkType} (h : s.StreamOperands cs' ty')
    (hcs : parsePng s.cfg (s.bytesAt s.srcAddr s.srcLen) = .ok cs)
    (hty : typeFromString (s.bytesAt s.argAddr s.argLen) = .ok ty) : cs' = cs ∧ ty' = ty :=
  ⟨Except.ok.inj (h.stream.symm.trans hcs), Except.ok.inj (h.typeString.symm.trans hty)⟩

/-- The range that an output takes is legal, as DST is. -/
theorem legal_of_outputs (hout : s.Outputs t out) (hcap : out.length ≤ s.dstCap.toNat) (hdst : s.Legal s.dstAddr s.dstCap) :
    s.Legal s.dstAddr t.dstLen := by
  obtain ⟨hlen, -, -⟩ := hout
  unfold State.Legal at hdst ⊢
  omega

@[simp] theorem bytesAt_withSrc_withDst (t : State) (a n da dc b k : Word) :
    ((t.withSrc a n).withDst da dc).bytesAt b k = t.bytesAt b k :=
  bytesAt_congr (s := t) (t := (t.withSrc a n).withDst da dc) rfl rfl b k

/-- The host points SRC at a container's stream and DST at a legal range. -/
theorem streamOperands_withSrc_withDst (hstream : t.bytesAt a n = pngBytes ds) (hfits : ContainerFits t.cfg ds)
    (hty : typeFromString (t.bytesAt t.argAddr t.argLen) = .ok ty) (hsrc : t.Legal a n) (harg : t.Legal t.argAddr t.argLen)
    (hdst : t.Legal da dc) : ((t.withSrc a n).withDst da dc).StreamOperands ds ty where
  src := hsrc
  arg := harg
  dst := hdst
  stream := by
    obtain ⟨hsound, hcount, hbytes⟩ := hfits
    exact (congrArg (parsePng t.cfg) ((bytesAt_withSrc_withDst t a n da dc a n).trans hstream)).trans
      (parsePng_pngBytes hsound hcount hbytes)
  typeString := (congrArg typeFromString (bytesAt_withSrc_withDst t a n da dc t.argAddr t.argLen)).trans hty

end Operands

/-! ### Decoding and removing what OP_ENCODE added -/

section Encoded
variable {s : State} {cs : List Chunk} {ty : ChunkType} {da dc : Word} (h : s.StreamOperands cs ty)
include h

theorem encoded_fits (hroom : s.messageRoom cs = .ok ()) : ContainerFits s.cfg (cs ++ [s.messageChunk ty]) := by
  obtain ⟨hcount, hbytes⟩ := messageRoom_eq_ok.1 hroom
  have hsound : (s.messageChunk ty).Sound := newChunk_sound ty (by have := s.msgLen.isLt; simp; omega)
  exact (containerFits_of_parsePng h.stream).append_chunk hsound hcount (by simpa using hbytes)

/-- The operands of a command that reads what OP_ENCODE wrote, when the type string still stands at ARG. -/
theorem streamOperands_encoded (hroom : s.messageRoom cs = .ok ())
    (hcap : s.srcLen.toNat + 12 + s.msgLen.toNat ≤ s.dstCap.toNat) {t : State} (ht : t = s.encoded cs ty)
    (harg : t.bytesAt s.argAddr s.argLen = s.bytesAt s.argAddr s.argLen) (hd : s.Legal da dc) :
    ((t.withSrc t.dstAddr t.dstLen).withDst da dc).StreamOperands (cs ++ [s.messageChunk ty]) ty := by
  have hout : s.Outputs t _ := ht ▸ outputs_encoded h hcap
  have hlegal : s.Legal s.dstAddr t.dstLen := legal_of_outputs hout (by rwa [encoded_length h]) h.dst
  obtain ⟨-, hstream, -⟩ := hout
  have hty := (congrArg typeFromString harg).trans h.typeString
  subst ht
  exact streamOperands_withSrc_withDst hstream (encoded_fits h hroom) hty hlegal h.arg hd

end Encoded

/-- The operands of a command that reads what OP_REMOVE wrote, when the type string still stands at ARG. -/
theorem streamOperands_removed {s u : State} {l r : List Chunk} {c : Chunk} {ty : ChunkType} {da dc : Word}
    (h : s.StreamOperands (l ++ c :: r) ty) (hcap : (pngBytes (l ++ r)).length ≤ s.dstCap.toNat)
    (hu : u = s.removed l c r ty) (harg : u.bytesAt s.argAddr s.argLen = s.bytesAt s.argAddr s.argLen)
    (hd : s.Legal da dc) : ((u.withSrc u.dstAddr u.dstLen).withDst da dc).StreamOperands (l ++ r) ty := by
  have hout : s.Outputs u _ := hu ▸ outputs_removed hcap
  have hlegal := legal_of_outputs hout hcap h.dst
  obtain ⟨-, hstream, -⟩ := hout
  have hfits := (containerFits_of_parsePng h.stream).sublist ((List.sublist_cons_self c r).append_left l)
  have hty := (congrArg typeFromString harg).trans h.typeString
  subst hu
  exact streamOperands_withSrc_withDst hstream hfits hty hlegal h.arg hd

section Decoded
variable {s : State} {cs : List Chunk} {ty : ChunkType} {i : Nat} {c : Chunk}

theorem bytesAt_decodedText (hcap : c.data.length ≤ s.dstCap.toNat) :
    (s.decodedText cs ty i c).bytesAt s.dstAddr (s.decodedText cs ty i c).dstLen = c.data := by
  obtain ⟨-, hbytes, -⟩ := outputs_decodedText (cs := cs) (ty := ty) (i := i) hcap
  exact hbytes

theorem bytesAt_decodedAbsent (hcap : 23 ≤ s.dstCap.toNat) :
    (s.decodedAbsent cs ty).bytesAt s.dstAddr (s.decodedAbsent cs ty).dstLen = sentinel := by
  obtain ⟨-, hbytes, -⟩ := outputs_decodedAbsent (cs := cs) (ty := ty) hcap
  exact hbytes

end Decoded

/-- Settles O58: the message's chunk is the only one of the type. -/
theorem encodeThenDecodeGivesTheMessage : Obligations.EncodeThenDecodeGivesTheMessage := by
  intro s t cs ty da dc hexec herr hcs hty habsent htext harg hd hcap
  obtain ⟨cs', ty', h, -, hroom, hfit, ht⟩ := opEncode_of_no_error hexec herr
  obtain ⟨rfl, rfl⟩ := h.unique hcs hty
  have hops := streamOperands_encoded h hroom hfit ht harg hd
  have hfirst := firstOfType_append_cons (r := []) (rfl : (s.messageChunk ty').ctype = ty') habsent
  rw [← messageChunk_data_length s ty'] at hcap
  exact ⟨_, exec_opDecode hops hfirst htext hcap, rfl, rfl, bytesAt_decodedText hcap⟩

/-- Settles O59: OP_REMOVE takes out the message's chunk, and no other one has the type. -/
theorem encodeThenRemoveGivesTheStreamBack : Obligations.EncodeThenRemoveGivesTheStreamBack := by
  intro s t cs ty da dc ea ec hexec herr hcs hty habsent harg hd hcap he hcap'
  obtain ⟨cs', ty', h, -, hroom, hfit, ht⟩ := opEncode_of_no_error hexec herr
  obtain ⟨rfl, rfl⟩ := h.unique hcs hty
  have hops := streamOperands_encoded h hroom hfit ht harg hd
  have hlen : (pngBytes (cs' ++ [])).length ≤ dc.toNat := by rwa [List.append_nil, h.stream_length]
  subst ht
  refine ⟨_, exec_opRemove hops rfl habsent hlen, rfl, ?_, fun harg' => ?_⟩
  · obtain ⟨-, hbytes, -⟩ := outputs_removed (c := s.messageChunk ty') (ty := ty') (s := State.withDst _ da dc) hlen
    rwa [List.append_nil, h.pngBytes_eq] at hbytes
  · have hops' := streamOperands_removed hops hlen rfl (harg'.trans (harg.symm.trans (bytesAt_withSrc_withDst ..).symm)) he
    rw [List.append_nil] at hops'
    exact ⟨_, exec_opDecode_of_absent hops' habsent hcap', rfl, rfl, bytesAt_decodedAbsent hcap'⟩

/-! ### An absent type, twice -/

section Twice
variable {w : State} {cs : List Chunk} {ty : ChunkType} {out : List Byte}

theorem dstCap_finished_withOutput (w : State) (out : List Byte) : (w.withOutput out).finished.dstCap = w.dstCap := rfl

/-- Apart from SRC and ARG, an output leaves the operands. -/
theorem State.StreamOperands.withOutput (h : w.StreamOperands cs ty) (hcap : out.length ≤ w.dstCap.toNat)
    (hsrc : w.srcAddr.toNat + w.srcLen.toNat ≤ w.dstAddr.toNat ∨ w.dstAddr.toNat + out.length ≤ w.srcAddr.toNat)
    (harg : w.argAddr.toNat + w.argLen.toNat ≤ w.dstAddr.toNat ∨ w.dstAddr.toNat + out.length ≤ w.argAddr.toNat) :
    (w.withOutput out).finished.StreamOperands cs ty := by
  have hout : w.Outputs (w.withOutput out).finished out := outputs_withOutput hcap rfl rfl rfl
  exact ⟨h.src, h.arg, h.dst, (congrArg (parsePng w.cfg) (bytesAt_of_outputs hout hsrc)).trans h.stream,
    (congrArg typeFromString (bytesAt_of_outputs hout harg)).trans h.typeString⟩

/-- Nor do the register writes of OP_DECODE touch them. -/
theorem State.StreamOperands.absentWrites (h : w.StreamOperands cs ty) : (w.absentWrites cs ty).StreamOperands cs ty := by
  have hbytes (a n : Word) : (w.absentWrites cs ty).bytesAt a n = w.bytesAt a n :=
    bytesAt_congr (s := w) (t := w.absentWrites cs ty) rfl rfl a n
  exact ⟨h.src, h.arg, h.dst, (congrArg (parsePng w.cfg) (hbytes w.srcAddr w.srcLen)).trans h.stream,
    (congrArg typeFromString (hbytes w.argAddr w.argLen)).trans h.typeString⟩

/-- After the command the same writes change nothing. -/
theorem absentWrites_finished_withOutput (s : State) (cs : List Chunk) (ty : ChunkType) (out : List Byte) :
    ((s.absentWrites cs ty).withOutput out).finished.absentWrites cs ty = ((s.absentWrites cs ty).withOutput out).finished :=
  rfl

theorem decodedAbsent_twice (s : State) (cs : List Chunk) (ty : ChunkType) :
    (s.decodedAbsent cs ty).decodedAbsent cs ty = ((s.decodedAbsent cs ty).withOutput sentinel).finished := by
  rw [State.decodedAbsent, State.decodedAbsent, absentWrites_finished_withOutput]

/-- The same output again changes at most the listing of BUF. -/
theorem withOutput_twice (w : State) (out : List Byte) : ((w.withOutput out).finished.withOutput out).finished =
    { (w.withOutput out).finished with buf := ((w.withOutput out).finished.withOutput out).finished.buf } := rfl

theorem byteAt_finished_withOutput (w : State) (out : List Byte) (a : Nat) : (w.withOutput out).finished.byteAt a =
    if w.dstAddr.toNat ≤ a ∧ a < w.dstAddr.toNat + out.length then (out[a - w.dstAddr.toNat]?).getD 0 else w.byteAt a :=
  byteAt_writeBytes w w.dstAddr.toNat out a

/-- The same bytes stand at the same place. -/
theorem byteAt_withOutput_twice (w : State) (out : List Byte) (a : Nat) :
    ((w.withOutput out).finished.withOutput out).finished.byteAt a = (w.withOutput out).finished.byteAt a := by
  have hdst : (w.withOutput out).finished.dstAddr = w.dstAddr := rfl
  rw [byteAt_finished_withOutput, hdst, byteAt_finished_withOutput]
  split <;> rfl

end Twice

/-- Settles O60: the first run leaves the operands, so the second writes the same bytes again. -/
theorem absenceIsIdempotent : Obligations.AbsenceIsIdempotent := by
  intro s cs ty hsrc harg hdst hcap hcs hty habsent hsrcApart hargApart
  have h : s.StreamOperands cs ty := ⟨hsrc, harg, hdst, hcs, hty⟩
  have hagain : (s.decodedAbsent cs ty).StreamOperands cs ty :=
    h.absentWrites.withOutput (by rwa [sentinel_length]) hsrcApart hargApart
  have hsecond := exec_opDecode_of_absent hagain habsent (by rwa [State.decodedAbsent, dstCap_finished_withOutput])
  rw [decodedAbsent_twice] at hsecond
  exact ⟨_, _, exec_opDecode_of_absent h habsent hcap, hsecond, rfl, rfl, bytesAt_decodedAbsent hcap,
    withOutput_twice (s.absentWrites cs ty) sentinel, byteAt_withOutput_twice (s.absentWrites cs ty) sentinel⟩

end Sys2Proof.Machine
end

section
/-! PROOFS. The system command NOP (45_system.md R245). -/

namespace Sys2Proof.Machine

theorem exec_nop (s : State) : exec .nop s = .next s.finished :=
  exec_of_ok (nopRule_eq_ok.2 rfl)

/-- Bit 8 is the lowest of the reserved bits, although the OPCODE under it is that of NOP. -/
theorem reservedOf_bit_eight_ne_zero : reservedOf 0x00000100 ≠ 0 := by decide

/-- Settles O25: the rule of NOP hands back its working copy, and a reserved bit makes the word illegal before its OPCODE is read. -/
theorem nopChangesOnlyStatus : Obligations.NopChangesOnlyStatus :=
  ⟨rfl, decode_of_reserved reservedOf_bit_eight_ne_zero, exec_nop⟩

end Sys2Proof.Machine
end

section
/-! PROOFS. The errors of a command (60_exceptions.md R250, R254): an error changes STATUS only, and its numbers are in the
"Errors" line of the command's rule. -/

namespace Sys2Proof.Machine

/-- Settles O7: the error entry is the only end with ERR = 1, and it starts from the state at the start of the step. -/
theorem errorChangesNothingButStatus : Obligations.ErrorChangesNothingButStatus := by
  intro i s t h herr
  rcases exec_cases h with ⟨w, -, rfl⟩ | ⟨e, -, rfl⟩
  · simp at herr
  · rfl

/-! ### The errors of the pieces of a rule -/

/-- The ERRCODE and ERRSUB of an error as numbers, in the form of `errorsOf`. -/
def CmdError.numbers (e : CmdError) : Nat × Nat := (e.code.toNat, e.sub.toNat)

/-- Every error a computation can end in has its numbers in the list. -/
def RaisesOnly {α : Type} (l : List (Nat × Nat)) (x : Except CmdError α) : Prop := ∀ e, x = .error e → e.numbers ∈ l

section Pieces
variable {α β : Type} {l k : List (Nat × Nat)} {x : Except CmdError α} {f : α → Except CmdError β}

theorem RaisesOnly.mono (h : RaisesOnly l x) (hl : l ⊆ k) : RaisesOnly k x := fun e he => hl (h e he)

/-- The errors of a sequence are those of its parts. -/
theorem RaisesOnly.bind (hx : RaisesOnly l x) (hf : ∀ a, RaisesOnly k (f a)) : RaisesOnly (l ++ k) (x >>= f) := by
  intro e he
  obtain h | ⟨a, -, h⟩ := bind_eq_error.1 he
  · exact List.mem_append_left k (hx e h)
  · exact List.mem_append_right l (hf a e h)

theorem raisesOnly_ok (a : α) : RaisesOnly [] (.ok a) := fun _ he => nomatch he

theorem raisesOnly_error (e : CmdError) : RaisesOnly [e.numbers] (.error e : Except CmdError α) := by
  rintro _ ⟨⟩
  exact List.mem_singleton_self _

theorem raisesOnly_require (p : Prop) [Decidable p] (e : CmdError) : RaisesOnly [e.numbers] (require p e) := by
  intro e' he
  obtain ⟨-, rfl⟩ := require_eq_error.1 he
  exact List.mem_singleton_self _

theorem raisesOnly_checkRange (s : State) (r : RangeName) : RaisesOnly [(CmdError.rangeError r).numbers] (checkRange s r) :=
  raisesOnly_require _ _

theorem raisesOnly_checkRanges (s : State) (rs : List RangeName) :
    RaisesOnly (rs.map fun r => (CmdError.rangeError r).numbers) (checkRanges s rs) := by
  intro e he
  obtain ⟨l, r, k, rfl, -, -, rfl⟩ := checkRanges_eq_error.1 he
  exact List.mem_map_of_mem (by simp)

theorem raisesOnly_stageOperand (s : State) : RaisesOnly [(0x0C, 0)] s.stageOperand := by
  intro e he
  obtain ⟨-, rfl⟩ := stageOperand_eq_error.1 he
  decide

theorem raisesOnly_pngOperand (s : State) : RaisesOnly [(0x0B, 0)] s.pngOperand := by
  intro e he
  obtain ⟨-, rfl⟩ := pngOperand_eq_error.1 he
  decide

theorem raisesOnly_findOrFail (cs : List Chunk) (t : ChunkType) : RaisesOnly [(0x06, 0)] (findOrFail cs t) := by
  intro e he
  obtain ⟨-, rfl⟩ := findOrFail_eq_error.1 he
  decide

theorem raisesOnly_output (out : List Byte) (s : State) : RaisesOnly [(0x0A, 0)] (output out s) := by
  intro e he
  obtain ⟨-, rfl⟩ := output_eq_error.1 he
  decide

theorem raisesOnly_typeFromString (bs : List Byte) : RaisesOnly [(0x04, 0), (0x04, 1)] (typeFromString bs) := by
  intro e he
  obtain ⟨r, rfl⟩ := typeFromString_error he
  cases r <;> decide

theorem raisesOnly_parseChunk (bs : List Byte) :
    RaisesOnly [(0x02, 0), (0x02, 1), (0x02, 2), (0x03, 0)] (parseChunk bs) := by
  intro e he
  obtain ⟨p, rfl⟩ | rfl := parseChunk_error he
  · cases p <;> decide
  · decide

theorem raisesOnly_checkRoom (cfg : Config) (count total n : Nat) :
    RaisesOnly [(0x0D, 0), (0x0D, 1)] (checkRoom cfg count total n) :=
  (raisesOnly_require _ _).bind fun _ => raisesOnly_require _ _

theorem raisesOnly_parsePng (cfg : Config) (bs : List Byte) : RaisesOnly parseErrors (parsePng cfg bs) := by
  intro e he
  obtain ⟨r, rfl⟩ | ⟨p, rfl⟩ | rfl | ⟨c, rfl⟩ := parsePng_error he
  · cases r <;> decide
  · cases p <;> decide
  · decide
  · cases c <;> decide

theorem raisesOnly_stagedOutputRule {check : Chunk → Except CmdError Unit} (hcheck : ∀ c, RaisesOnly l (check c))
    (bytes : Chunk → List Byte) (s : State) :
    RaisesOnly ([(0x0C, 0)] ++ ([(0x09, 3)] ++ (l ++ [(0x0A, 0)]))) (stagedOutputRule check bytes s) :=
  (raisesOnly_stageOperand s).bind fun c => (raisesOnly_checkRange s .dst).bind fun _ =>
    (hcheck c).bind fun _ => raisesOnly_output _ _

/-- The errors of the common form: those of the ranges, of the stream, of the type string and of the command's own steps. -/
theorem raisesOnly_streamRule (rs : List RangeName) {steps : List Chunk → ChunkType → Except CmdError State}
    (hsteps : ∀ cs t, RaisesOnly l (steps cs t)) (s : State) :
    RaisesOnly ((rs.map fun r => (CmdError.rangeError r).numbers) ++ (parseErrors ++ ([(0x04, 0), (0x04, 1)] ++ l)))
      (streamRule rs steps s) :=
  (raisesOnly_checkRanges s rs).bind fun _ => (raisesOnly_parsePng _ _).bind fun cs =>
    (raisesOnly_typeFromString _).bind fun t => hsteps cs t

end Pieces

/-! ### The errors of a command -/

/-- Every error of a command's rule has its numbers in the command's "Errors" line. -/
theorem ruleOf_raisesOnly (i : Instr) (s : State) : RaisesOnly (errorsOf i) (ruleOf i s) := by
  cases i
  case crcUpdate => exact (raisesOnly_checkRange s .src).bind fun _ => raisesOnly_ok _
  case crc32 => exact (raisesOnly_checkRange s .src).bind fun _ => raisesOnly_ok _
  case crcCheck => exact (raisesOnly_checkRange s .src).bind fun _ => (raisesOnly_require _ _).bind fun _ => raisesOnly_ok _
  case typeLoad => exact (raisesOnly_checkRange s .typeWord).bind fun _ => raisesOnly_ok _
  case typeFromString =>
    exact (raisesOnly_checkRange s .src).bind fun _ => (raisesOnly_typeFromString _).bind fun _ => raisesOnly_ok _
  case chunkNew => exact (raisesOnly_checkRange s .src).bind fun _ => (raisesOnly_require _ _).bind fun _ => raisesOnly_ok _
  case chunkParse =>
    exact (raisesOnly_checkRange s .src).bind fun _ => (raisesOnly_parseChunk _).bind fun _ =>
      (raisesOnly_require _ _).bind fun _ => raisesOnly_ok _
  case chunkSerialize => exact raisesOnly_stagedOutputRule (fun _ => raisesOnly_ok ()) _ s
  case chunkData => exact raisesOnly_stagedOutputRule (fun _ => raisesOnly_ok ()) _ s
  case chunkToString => exact raisesOnly_stagedOutputRule (fun _ => raisesOnly_require _ _) _ s
  case pngParse => exact (raisesOnly_checkRange s .src).bind fun _ => (raisesOnly_parsePng _ _).bind fun _ => raisesOnly_ok _
  case pngSerialize =>
    exact (raisesOnly_pngOperand s).bind fun _ => (raisesOnly_checkRange s .dst).bind fun _ => raisesOnly_output _ _
  case pngAppend =>
    exact (raisesOnly_pngOperand s).bind fun _ => (raisesOnly_stageOperand s).bind fun _ =>
      (raisesOnly_checkRoom _ _ _ _).bind fun _ => raisesOnly_ok _
  case pngRemove =>
    exact (raisesOnly_pngOperand s).bind fun _ => (raisesOnly_findOrFail _ _).bind fun _ => raisesOnly_ok _
  case pngFind =>
    refine (raisesOnly_pngOperand s).bind (k := []) fun cs => ?_
    split <;> exact raisesOnly_ok _
  case pngGet =>
    refine (raisesOnly_pngOperand s).bind (k := [(0x0E, 0)]) fun cs => ?_
    split
    · exact raisesOnly_error _
    · exact (raisesOnly_ok _).mono (List.nil_subset _)
  case pngHeader => exact (raisesOnly_checkRange s .dst).bind fun _ => raisesOnly_output _ _
  case opEncode =>
    refine (raisesOnly_streamRule [.src, .arg, .msg, .dst] (fun cs t => ?_) s).mono
      (l := _ ++ (_ ++ (_ ++ [(0x0D, 1), (0x0D, 0), (0x0D, 1), (0x0A, 0)]))) (by decide)
    exact (raisesOnly_require _ _).bind fun _ => (raisesOnly_checkRoom _ _ _ _).bind fun _ =>
      (raisesOnly_output _ _).bind fun _ => raisesOnly_ok _
  case opDecode =>
    refine (raisesOnly_streamRule [.src, .arg, .dst] (fun cs t => ?_) s).mono
      (l := _ ++ (_ ++ (_ ++ [(0x05, 0), (0x0A, 0)]))) (by decide)
    split
    · exact ((raisesOnly_output _ _).bind fun _ => raisesOnly_ok _).mono (by decide)
    · exact (raisesOnly_require _ _).bind fun _ => (raisesOnly_output _ _).bind fun _ => raisesOnly_ok _
  case opRemove =>
    refine (raisesOnly_streamRule [.src, .arg, .dst] (fun cs t => ?_) s).mono
      (l := _ ++ (_ ++ (_ ++ [(0x06, 0), (0x0A, 0)]))) (by decide)
    exact (raisesOnly_findOrFail _ _).bind fun _ => (raisesOnly_output _ _).bind fun _ => raisesOnly_ok _
  all_goals exact raisesOnly_ok _

/-- Settles O8: a command ends as its rule does, and a successful rule leaves CMD. -/
theorem everyErrorIsOneOfTheCommands : Obligations.EveryErrorIsOneOfTheCommands := by
  intro i s
  cases h : ruleOf i s with
  | ok w =>
    have hcmd : w.cmd = s.cmd := by rw [rule_ok_frame h]
    exact ⟨w.finished, exec_of_ok h, rfl, rfl, congrArg (BitVec.extractLsb' 0 8) hcmd, fun _ => ⟨rfl, rfl⟩, nofun⟩
  | error e =>
    exact ⟨s.failedWith e.code e.sub, exec_of_error h, rfl, rfl, rfl, nofun, fun _ => ruleOf_raisesOnly i s e h⟩

end Sys2Proof.Machine
end

section
/-! PROOFS. Host accesses by the slot of their offset, and what they do while BUSY = 1 (70_reset_and_hazards.md R285, R286, R289); the
reset event (R280, R281). -/

namespace Sys2Proof.Machine

/-! ### The refused offsets -/

theorem slotAt_outside {off : Nat} (h : 0x100 ≤ off) : slotAt off = .outside := if_pos h

theorem slotAt_misaligned {off : Nat} (hlt : off < 0x100) (h : off % 4 ≠ 0) : slotAt off = .misaligned := by
  rw [slotAt, if_neg (by omega), if_pos h]

section Refused
variable {s : State} {off a : Nat}

theorem register_access_refused (h : 0x100 ≤ off ∨ off % 4 ≠ 0) (v : Word) :
    ∃ f, hostAction (.regRead off) s = .fault f ∧ hostAction (.regWrite off v) s = .fault f := by
  by_cases hout : 0x100 ≤ off
  · exact ⟨.offsetOutOfWindow, by simp [hostAction, regRead, regWrite, slotAt_outside hout]⟩
  · have hslot : slotAt off = .misaligned := slotAt_misaligned (by omega) (by omega)
    exact ⟨.misalignedOffset, by simp [hostAction, regRead, regWrite, hslot]⟩

theorem bufRead_past_end (h : s.cfg.memSize ≤ a) : hostAction (.bufRead a) s = .fault .bufAddressOutOfRange := by
  simp [hostAction, bufRead, h]

theorem bufWrite_past_end (h : s.cfg.memSize ≤ a) (b : Byte) : hostAction (.bufWrite a b) s = .fault .bufAddressOutOfRange := by
  simp [hostAction, bufWrite, h]

end Refused

/-! ### Accesses while BUSY = 1 -/

/-- STATUS and the constants read the same, busy or not (R286). -/
theorem regRead_steady (s : State) {r : RegName} (h : (Slot.reg r).steady = true) :
    hostAction (.regRead r.offset) s = .next (recordRead (.reg r.offset (s.regValue r)) s) := by
  simp [hostAction, regRead, State.slotValue, h]

section Busy
variable {s : State} (hbusy : s.status.busy = true) {off a : Nat}
include hbusy

/-- Whatever the slot, a write to it faults. -/
theorem regWrite_busy (v : Word) : ∃ f, hostAction (.regWrite off v) s = .fault f := by
  cases hslot : slotAt off with
  | outside => exact ⟨.offsetOutOfWindow, by simp [hostAction, regWrite, hslot]⟩
  | misaligned => exact ⟨.misalignedOffset, by simp [hostAction, regWrite, hslot]⟩
  | reserved => exact ⟨.writeWhileBusy, by simp [hostAction, regWrite, hslot, hbusy]⟩
  | reg r => exact ⟨.writeWhileBusy, by simp [hostAction, regWrite, hslot, hbusy]⟩

theorem bufWrite_busy (b : Byte) : ∃ f, hostAction (.bufWrite a b) s = .fault f := by
  by_cases ha : s.cfg.memSize ≤ a
  · exact ⟨_, bufWrite_past_end ha b⟩
  · exact ⟨.writeWhileBusy, by simp [hostAction, bufWrite, ha, hbusy]⟩

theorem regRead_offset_draws {r : RegName} (h : (Slot.reg r).steady = false) : hostAction (.regRead r.offset) s =
    .next (recordRead (.reg r.offset (Config.busyWord s.drawCount)) { s with drawCount := s.drawCount + 1 }) := by
  simp [hostAction, regRead, hbusy, h]

theorem regRead_reserved_draws (h : slotAt off = .reserved) : hostAction (.regRead off) s =
    .next (recordRead (.reg off (Config.busyWord s.drawCount)) { s with drawCount := s.drawCount + 1 }) := by
  simp [hostAction, regRead, hbusy, h, Slot.steady]

theorem bufRead_draws (ha : a < s.cfg.memSize) : hostAction (.bufRead a) s =
    .next (recordRead (.buf a (Config.busyByte s.drawCount)) { s with drawCount := s.drawCount + 1 }) := by
  simp [hostAction, bufRead, hbusy, ha]

end Busy

/-- Settles O17: first the refused offsets and addresses, then any write while BUSY = 1. -/
theorem hostProtocolViolationsFault : Obligations.HostProtocolViolationsFault := by
  intro s off a v b
  refine ⟨fun h => ?_, fun ha => ⟨_, _, bufRead_past_end ha, bufWrite_past_end ha b⟩,
    fun hbusy => ⟨regWrite_busy hbusy v, bufWrite_busy hbusy b⟩⟩
  obtain ⟨f, hread, hwrite⟩ := register_access_refused h v
  exact ⟨f, f, hread, hwrite⟩

/-- STATUS and the constants (R286). -/
def RegName.steadyRegs : List RegName := [.status, .sigHi, .sigLo, .capMem, .capChunks, .capStore]

/-- All the other registers, in the order of their offsets. -/
def RegName.drawnRegs : List RegName :=
  [.cmd, .srcAddr, .srcLen, .argAddr, .argLen, .msgAddr, .msgLen, .dstAddr, .dstCap, .dstLen, .result, .type, .crcAcc, .crcExp,
    .index, .chunkCount, .stageLen, .stageType, .stageCrc, .flags]

theorem steady_of_mem_steadyRegs : ∀ r ∈ RegName.steadyRegs, (Slot.reg r).steady = true := by decide

theorem not_steady_of_mem_drawnRegs : ∀ r ∈ RegName.drawnRegs, (Slot.reg r).steady = false := by decide

/-- Settles O18: the lists of the statement are the offsets of the steady registers, with their values, and of the others. -/
theorem readWhileBusy : Obligations.ReadWhileBusy := by
  intro s hbusy
  refine ⟨fun p hp => ?_, fun off hoff => ?_, fun off hlo hhi halign => ?_, fun a ha => bufRead_draws hbusy ha⟩
  · have hmap : p ∈ RegName.steadyRegs.map (fun r => (r.offset, s.regValue r)) := hp
    obtain ⟨r, hr, rfl⟩ := List.mem_map.1 hmap
    exact regRead_steady s (steady_of_mem_steadyRegs r hr)
  · have hmap : off ∈ RegName.drawnRegs.map RegName.offset := hoff
    obtain ⟨r, hr, rfl⟩ := List.mem_map.1 hmap
    exact regRead_offset_draws hbusy (not_steady_of_mem_drawnRegs r hr)
  · exact regRead_reserved_draws hbusy (slotAt_reserved hlo hhi halign)

/-! ### The reset event -/

/-- Settles O19, by the fields of the reset event and its BUF bytes. -/
theorem resetEventSetsEveryPieceOfState : Obligations.ResetEventSetsEveryPieceOfState := by
  refine ⟨fun s => ⟨_, rfl, ?_⟩, fun _ _ => rfl⟩
  simp [afterReset_toWord]

end Sys2Proof.Machine
end

section
/-! PROOFS. A pending command completes while the outside only reads (70_reset_and_hazards.md R290). -/

namespace Sys2Proof.Machine

/-! ### The engine's step -/

/-- Whatever word is pending, the engine's step completes it. -/
theorem engineStep_completes (s : State) :
    ∃ t, engineStep s = .next t ∧ t.status.busy = false ∧ t.status.done = true := by
  cases hdec : decode s.cmd with
  | ok i =>
    obtain ⟨t, hexec, hbusy, hdone, -⟩ := everyErrorIsOneOfTheCommands i s
    exact ⟨t, (engineStep_of_decode hdec).trans hexec, hbusy, hdone⟩
  | error r => exact ⟨_, engineStep_of_illegal hdec, rfl, rfl⟩

/-! ### The outside's reads -/

/-- What the outside may do without a fault while BUSY = 1: a WAIT, or a read where it may read (R286, R289). -/
def Input.LegalRead (memSize : Nat) (x : Input) : Prop :=
  x = .wait ∨ (∃ off : Nat, x = .act (.regRead off) ∧ off < 0x100 ∧ off % 4 = 0) ∨
    ∃ a : Nat, x = .act (.bufRead a) ∧ a < memSize

section Reads
variable {s : State} (hbusy : s.status.busy = true)
include hbusy

/-- While BUSY = 1 a host action that does not fault is a read. -/
theorem hostAction_busy_cases {a : HostAction} {t : State} (h : hostAction a s = .next t) :
    ∃ x n, t = recordRead x { s with drawCount := n } := by
  rcases hostAction_cases h with hread | ⟨hidle, -⟩ | ⟨hidle, -⟩ | ⟨hidle, -⟩
  · exact hread
  all_goals simp [hbusy] at hidle

theorem regRead_legal {off : Nat} (hlt : off < 0x100) (halign : off % 4 = 0) : ∃ t, hostAction (.regRead off) s = .next t := by
  by_cases hreg : off < 0x68
  · obtain ⟨r, rfl⟩ := exists_offset hreg halign
    cases hsteady : (Slot.reg r).steady with
    | true => exact ⟨_, regRead_steady s hsteady⟩
    | false => exact ⟨_, regRead_offset_draws hbusy hsteady⟩
  · exact ⟨_, regRead_reserved_draws hbusy (slotAt_reserved (by omega) (by omega) halign)⟩

/-- A host action that does not fault is used up. -/
theorem hostStep_act_busy {a : HostAction} {rest : List Input} (hscript : s.script = .act a :: rest)
    (h : ∃ t, hostAction a { s with script := rest } = .next t) :
    ∃ n sc rd, sc ⊆ s.script ∧ hostStep s = .next (s.withOutside n sc s.turns rd) := by
  obtain ⟨t, h⟩ := h
  obtain ⟨x, n, rfl⟩ := hostAction_busy_cases (s := { s with script := rest }) hbusy h
  exact ⟨n, rest, x :: s.reads, by simp [hscript], (hostStep_act hscript).trans h⟩

/-- The outside's step on a legal read changes what is outside the block only, and adds nothing to the script. -/
theorem hostStep_legalRead {x : Input} {rest : List Input} (hscript : s.script = x :: rest) (hx : x.LegalRead s.cfg.memSize) :
    ∃ n sc rd, sc ⊆ s.script ∧ hostStep s = .next (s.withOutside n sc s.turns rd) := by
  rcases hx with rfl | ⟨off, rfl, hlt, halign⟩ | ⟨a, rfl, ha⟩
  · exact ⟨s.drawCount, s.script, _, List.Subset.refl _, hostStep_wait_pending hscript hbusy⟩
  · exact hostStep_act_busy hbusy hscript (regRead_legal (s := { s with script := rest }) hbusy hlt halign)
  · exact hostStep_act_busy hbusy hscript ⟨_, bufRead_draws (s := { s with script := rest }) hbusy ha⟩

/-! ### Whose turn it is -/

/-- With a command pending the engine's step is next, or a turn of the outside is. -/
theorem engine_or_outside_next : (∃ ts, step s = engineStep { s with turns := ts }) ∨
    ∃ x rest ts, s.script = x :: rest ∧ s.turns = .host :: ts := by
  by_cases halone : s.script = [] ∨ s.turns = []
  · exact .inl ⟨s.turns, step_engine_alone hbusy halone⟩
  · obtain ⟨hleft, hturn⟩ := not_or.1 halone
    obtain ⟨agent, ts, hturns⟩ := List.exists_cons_of_ne_nil hturn
    cases agent with
    | engine => exact .inl ⟨ts, step_engine_turn hbusy hleft hturns⟩
    | host =>
      obtain ⟨x, rest, hscript⟩ := List.exists_cons_of_ne_nil hleft
      exact .inr ⟨x, rest, ts, hscript, hturns⟩

end Reads

theorem run_succ_of_step {M : Host.Core} {s t : M.State} (h : M.step s = .next t) (k : Nat) : M.run (k + 1) s = M.run k t := by
  rw [Host.Core.run, h]

/-- Each turn of the outside is used up by its step, so the engine's comes after at most as many steps as there are turns. -/
theorem engine_gets_its_turn {s : State} (hbusy : s.status.busy = true) (hreads : ∀ x ∈ s.script, x.LegalRead s.cfg.memSize) :
    ∃ k n sc ts rd ts', k ≤ s.turns.length ∧ Host.Core.run core k s = .next (s.withOutside n sc ts rd) ∧
      step (s.withOutside n sc ts rd) = engineStep (s.withOutside n sc ts' rd) := by
  obtain ⟨ts', hengine⟩ | ⟨x, rest, ts, hscript, hturns⟩ := engine_or_outside_next hbusy
  · exact ⟨0, s.drawCount, s.script, s.turns, s.reads, ts', Nat.zero_le _, rfl, hengine⟩
  · obtain ⟨n, sc, rd, hsub, hhost⟩ := hostStep_legalRead (s := { s with turns := ts }) hbusy hscript
      (hreads x (by simp [hscript]))
    have hstep : step s = .next (s.withOutside n sc ts rd) := (step_outside_pending hscript hbusy hturns).trans hhost
    have hless : ts.length < s.turns.length := by simp [hturns]
    obtain ⟨k, n', sc', ts₁, rd', ts', hk, hrun, hengine⟩ := engine_gets_its_turn (s := s.withOutside n sc ts rd) hbusy
      fun y hy => hreads y (hsub hy)
    exact ⟨k + 1, n', sc', ts₁, rd', ts', hk.trans_lt hless, (run_succ_of_step (M := core) hstep k).trans hrun, hengine⟩
termination_by s.turns.length

/-- Settles O23: the engine gets its turn, and its step completes the command. -/
theorem pendingCommandCompletes : Obligations.PendingCommandCompletes := by
  intro s hbusy hreads
  obtain ⟨k, n, sc, ts, rd, ts', hk, hrun, hengine⟩ := engine_gets_its_turn hbusy hreads
  obtain ⟨t, ht, hdone⟩ := engineStep_completes (s.withOutside n sc ts' rd)
  refine ⟨k, n, sc, ts, rd, hk, hrun, ⟨t, hengine.trans ht, hdone⟩, fun i hdec => ⟨ts', ?_⟩⟩
  exact hengine.trans (engineStep_of_decode (s := s.withOutside n sc ts' rd) hdec)

end Sys2Proof.Machine
end
